-- ==== Sys2Proof/Word.lean ====
section
/-! DEFINITION. The word types of HUFCORE: the widths that spec/00_scope.md R10 and spec/10_state.md
R22 to R36 give. Plain bit vectors, so that the BitVec lemmas apply as they stand. -/

namespace Sys2Proof

/-- One byte of a stream, a symbol register, the command byte (R10 `SYM_BITS` = 8, R21). -/
abbrev Byte := BitVec 8

/-- A 64-bit register: a counter, a node weight, a code value, an accumulator word, a length
(R10 `FREQ_BITS`, `CODE_BITS`, `W`; R24, R28, R29, R31). -/
abbrev Word := BitVec 64

/-- A node index or a cursor (R10 `IDX_BITS` = 9). -/
abbrev Idx := BitVec 9

/-- A code length or a bit count, `0 .. 64` (R31 `FREE`, `NBITS`; R34, R36 `len`). -/
abbrev Len := BitVec 7

/-- A value of `PHASE` (R27, R83). -/
abbrev PhaseCode := BitVec 6

/-- The frequency field width in bytes as the register `F` and the record `PAIR` hold it (R30). -/
abbrev FieldWidth := BitVec 4

end Sys2Proof
end

