-- ==== Sys2Proof/Config.lean ====
section
/-! DEFINITION. What an implementation fixes (spec/00_scope.md R10, R11) and the two free values of the
model: the draw of the I/O oracle (spec/20_memory.md R70) where the state lists none, and a difference that
the rules do not state. -/

namespace Sys2Proof

/-- A byte order: `LE` is least significant byte first, `BE` most significant byte first (R11). -/
inductive ByteOrder
  | le
  | be
  deriving DecidableEq, Repr

/-- The two parameters of R10 that take one of two values (R11); every rule is written for both. -/
structure Config where
  /-- `FREQ_ORDER`, the byte order of a frequency field (R62). -/
  freqOrder : ByteOrder
  /-- `WORD_ORDER`, the byte order of a stream word and of the ragged tail (R63). -/
  wordOrder : ByteOrder
  deriving DecidableEq, Repr

/-- The values this hardware takes (R10: `FREQ_ORDER = LE`, `WORD_ORDER = LE`). -/
def Config.hufcore : Config := { freqOrder := .le, wordOrder := .le }

/-- `TIE_SORT`, the tie-break of the descending sort (R10): one rule is specified. -/
inductive TieSort
  /-- Symbol ascending, signed 8-bit compare, stable. -/
  | symbolSignedStable
  deriving DecidableEq, Repr

/-- `TIE_MERGE`, the candidate a selection takes when a leaf and a pending subtree weigh the same (R10). -/
inductive TieMerge
  | leaf
  | pending
  deriving DecidableEq, Repr

/-- `ORIENT`, the child the first-selected item becomes (R10). -/
inductive Orient
  | left
  | right
  deriving DecidableEq, Repr

/-- The parameters of R10 that have one value, row by row (the two byte orders are in `Config`; R11). The
widths are those of the types in Word.lean. -/
structure Parameters where
  /-- `SYM_BITS`, width of a symbol register. -/
  symBits : Nat
  /-- `SYM_MAX`, the largest symbol value COMPRESS accepts as data. -/
  symMax : Nat
  /-- `SENTINEL`, the end-of-stream symbol. -/
  sentinel : Byte
  /-- `NSYM_MAX`, the largest alphabet size. -/
  nsymMax : Nat
  /-- `FREQ_BITS`, width of a frequency register and of a node weight. -/
  freqBits : Nat
  /-- `CODE_BITS`, width of the code register and the largest code length. -/
  codeBits : Nat
  /-- `W`, bits in an accumulator word. -/
  wordBits : Nat
  /-- `FW_SET`, the legal frequency field widths in bytes. -/
  fieldWidths : List Nat
  tieSort : TieSort
  tieMerge : TieMerge
  orient : Orient
  /-- `IDX_BITS`, width of a node index. -/
  idxBits : Nat
  /-- `NONE`, the index value meaning "no node". -/
  none : Idx

/-- The values HUFCORE takes (R10). -/
def Config.fixed : Parameters where
  symBits := 8
  symMax := 127
  sentinel := 0#8
  nsymMax := 255
  freqBits := 64
  codeBits := 64
  wordBits := 64
  fieldWidths := [1, 2, 4, 8]
  tieSort := .symbolSignedStable
  tieMerge := .leaf
  orient := .left
  idxBits := 9
  none := 0x1FF#9

def Config.symMax : Nat := Config.fixed.symMax

def Config.sentinel : Byte := Config.fixed.sentinel

def Config.nsymMax : Nat := Config.fixed.nsymMax

def Config.codeBits : Nat := Config.fixed.codeBits

def Config.wordBits : Nat := Config.fixed.wordBits

/-- `WB = W / 8`, bytes in a stream word, and the widest access of `MemRead` and `MemWrite`
(R10, R68, R69). -/
def Config.wordBytes : Nat := Config.fixed.wordBits / 8

/-- `ARENA_SIZE = 2*NSYM_MAX - 1`, entries of the node store (R10). -/
def Config.arenaSize : Nat := 2 * Config.fixed.nsymMax - 1

/-- Entries of `CNT` and of `LUT`, one for every symbol `0 .. SYM_MAX` (R32, R36). -/
def Config.symCount : Nat := Config.fixed.symMax + 1

def Config.none : Idx := Config.fixed.none

def Config.fieldWidths : List Nat := Config.fixed.fieldWidths

@[simp] theorem Config.symMax_eq : Config.symMax = 127 := rfl
@[simp] theorem Config.sentinel_eq : Config.sentinel = 0#8 := rfl
@[simp] theorem Config.nsymMax_eq : Config.nsymMax = 255 := rfl
@[simp] theorem Config.codeBits_eq : Config.codeBits = 64 := rfl
@[simp] theorem Config.wordBits_eq : Config.wordBits = 64 := rfl
@[simp] theorem Config.wordBytes_eq : Config.wordBytes = 8 := rfl
@[simp] theorem Config.arenaSize_eq : Config.arenaSize = 509 := rfl
@[simp] theorem Config.symCount_eq : Config.symCount = 128 := rfl
@[simp] theorem Config.none_eq : Config.none = 0x1FF#9 := rfl
@[simp] theorem Config.fieldWidths_eq : Config.fieldWidths = [1, 2, 4, 8] := rfl

/-- One draw of the I/O failure oracle (R70): the access passes, or it fails and, for a write, at most
`landed` of its bytes were appended before it failed (R69). -/
inductive IoDraw
  | passes
  | fails (landed : Nat)
  deriving DecidableEq, Repr, Inhabited

/-- FREE VALUE (assumption log 2). The oracle's draws past those that `State.draws` lists: "a draw under
no law" (R70), so nothing says what they are. -/
opaque Config.freeDraw : Nat → IoDraw

/-- FREE VALUE (assumption log 20). A difference of payload lengths where more is taken than there is, for
which R175, R177 and R203 state no result. -/
opaque Config.freeWord : Nat → Word

end Sys2Proof
end

