-- ==== Sys2Proof/Syntax.lean ====
section
/-! DEFINITION. The operations of HUFCORE, one constructor per row of spec/opcode_table.json
(spec/30_encoding.md R94). -/

namespace Sys2Proof

/-- An operation of HUFCORE: a host command, a micro-operation of the sequencer, a sub-operation, the
reset event, or a container record as the operation that consumes it meets it (R94). -/
inductive Instr
  -- The command byte (R82). An illegal command keeps the bits its row's mask leaves free.
  | nop
  | compress
  | decompress
  | illegal03
  | illegal04 (x : BitVec 2)
  | illegal08 (x : BitVec 3)
  | illegal10 (x : BitVec 4)
  | illegal20 (x : BitVec 5)
  | illegal40 (x : BitVec 6)
  | illegal80 (x : BitVec 7)
  -- The micro-operations that `PHASE` selects (R83).
  | fsClear
  | fsCount
  | fsSent
  | fsCollect
  | tbSort
  | tbInit
  | tbMerge
  | tbRoot
  | caClear
  | caWalk
  | hcWidth
  | hcPuthdr
  | hcPutpair
  | hcGethdr
  | hcGetpair
  | bseInit
  | bseSym
  | bseEos
  | bseFinal
  | bsdInit
  | bsdFetch
  | bsdBit
  | cmdClose
  | pIdle
  -- The sub-operations, which have no bit pattern (R83, R94).
  | tbTake
  | bsePut (v : Word) (l : Len)
  | bsdLeaf
  -- The reset event (R235).
  | reset
  -- The container records (R84 to R89, R94).
  | hdrCount (n : Byte)
  | hdrWidth (f : Byte)
  | pair (sym : Byte) (f : FieldWidth) (freq : Word)
  | word (w : Word)
  | tail (k : BitVec 4) (t : Word)
  | code (c : Word) (len : Len)
  deriving DecidableEq, Repr

end Sys2Proof
end

