-- ==== Sys2Proof/WellFormed.lean ====
section
/-! DEFINITION. Which terms of `Instr` are operations of HUFCORE: the operand ranges the spec gives.
An operand whose type already has exactly the spec's range needs no check. -/

namespace Sys2Proof

/-- A code is a pair `(code, len)` with `len` in `0 .. 64` and no bit at or above `len`
(spec/30_encoding.md R89; `BSE.PUT`'s operands, spec/44_bitstream_encoder.md R163). -/
def codeFits (c : Word) (len : Len) : Bool :=
  decide (len.toNat ≤ Config.codeBits) && decide (c.toNat < 2 ^ len.toNat)

/-- The value fits in `k` bytes (the precondition of `ser`, spec/00_scope.md R13). -/
def fitsBytes (v : Word) (k : Nat) : Bool := decide (v.toNat < 2 ^ (8 * k))

/-- The operand ranges of an operation. -/
def WellFormed : Instr → Bool
  | .bsePut v l => codeFits v l
  | .pair _ f freq => decide (f.toNat ∈ Config.fieldWidths) && fitsBytes freq f.toNat
  | .tail k t => decide (1 ≤ k.toNat) && decide (k.toNat ≤ 7) && fitsBytes t k.toNat
  | .code c len => codeFits c len
  | .nop | .compress | .decompress | .illegal03 | .illegal04 _ | .illegal08 _ | .illegal10 _
  | .illegal20 _ | .illegal40 _ | .illegal80 _ | .fsClear | .fsCount | .fsSent | .fsCollect
  | .tbSort | .tbInit | .tbMerge | .tbRoot | .caClear | .caWalk | .hcWidth | .hcPuthdr
  | .hcPutpair | .hcGethdr | .hcGetpair | .bseInit | .bseSym | .bseEos | .bseFinal | .bsdInit
  | .bsdFetch | .bsdBit | .cmdClose | .pIdle | .tbTake | .bsdLeaf | .reset | .hdrCount _
  | .hdrWidth _ | .word _ => true

end Sys2Proof
end

