-- ==== Sys2Proof/Decode.lean ====
section
/-! DEFINITION. The bit patterns of HUFCORE and what each stands for (spec/30_encoding.md): the command
byte, the phase codes, the container records and the codes of the bit stream. The decoder is total and
rejects by name. After it the encoder, written from the same tables. -/

namespace Sys2Proof

/-! ## Byte orders (spec/00_scope.md R13, `ser` and `deser`) -/

/-- `ser(v, k, LE)`: byte `i` is `v[8i+7 : 8i]`. -/
def serLE : Nat → Nat → List Byte
  | 0, _ => []
  | k + 1, v => BitVec.ofNat 8 v :: serLE k (v / 256)

/-- `deser(bs, k, LE)`: the sum of `bs[i] << 8i`. -/
def deserLE : List Byte → Nat
  | [] => 0
  | b :: bs => b.toNat + 256 * deserLE bs

/-- `ser(v, k, ORD)`: the `k`-byte serialisation of `v`, in stream order. -/
def ser (v k : Nat) : ByteOrder → List Byte
  | .le => serLE k v
  | .be => (serLE k v).reverse

/-- `deser(bs, k, ORD)`, the inverse of `ser`. -/
def deser (bs : List Byte) : ByteOrder → Nat
  | .le => deserLE bs
  | .be => deserLE bs.reverse

/-! ## Codes as bit lists (R15, R89) -/

/-- The `len` bits of a code in stream order: bit `len-1` first, bit 0 last (R15). -/
def codeBits : Nat → Nat → List Bool
  | 0, _ => []
  | k + 1, c => c.testBit k :: codeBits k c

/-- The value whose bits, most significant first, are the list. -/
def bitsValue : List Bool → Nat
  | [] => 0
  | b :: bs => b.toNat * 2 ^ bs.length + bitsValue bs

/-! ## Phase codes (R83) -/

namespace Phase

abbrev idle : PhaseCode := 0#6
abbrev fsClear : PhaseCode := 1#6
abbrev fsCount : PhaseCode := 2#6
abbrev fsSent : PhaseCode := 3#6
abbrev fsCollect : PhaseCode := 4#6
abbrev tbSort : PhaseCode := 8#6
abbrev tbInit : PhaseCode := 9#6
abbrev tbMerge : PhaseCode := 10#6
abbrev tbRoot : PhaseCode := 11#6
abbrev caClear : PhaseCode := 16#6
abbrev caWalk : PhaseCode := 17#6
abbrev hcWidth : PhaseCode := 24#6
abbrev hcPuthdr : PhaseCode := 25#6
abbrev hcPutpair : PhaseCode := 26#6
abbrev hcGethdr : PhaseCode := 27#6
abbrev hcGetpair : PhaseCode := 28#6
abbrev bseInit : PhaseCode := 32#6
abbrev bseSym : PhaseCode := 33#6
abbrev bseEos : PhaseCode := 34#6
abbrev bseFinal : PhaseCode := 35#6
abbrev bsdInit : PhaseCode := 40#6
abbrev bsdFetch : PhaseCode := 41#6
abbrev bsdBit : PhaseCode := 42#6
abbrev close : PhaseCode := 48#6

end Phase

/-- The operation a phase code selects; none for a code R83 leaves unused. -/
def decodePhase (p : PhaseCode) : Option Instr :=
  if p = Phase.idle then some .pIdle
  else if p = Phase.fsClear then some .fsClear
  else if p = Phase.fsCount then some .fsCount
  else if p = Phase.fsSent then some .fsSent
  else if p = Phase.fsCollect then some .fsCollect
  else if p = Phase.tbSort then some .tbSort
  else if p = Phase.tbInit then some .tbInit
  else if p = Phase.tbMerge then some .tbMerge
  else if p = Phase.tbRoot then some .tbRoot
  else if p = Phase.caClear then some .caClear
  else if p = Phase.caWalk then some .caWalk
  else if p = Phase.hcWidth then some .hcWidth
  else if p = Phase.hcPuthdr then some .hcPuthdr
  else if p = Phase.hcPutpair then some .hcPutpair
  else if p = Phase.hcGethdr then some .hcGethdr
  else if p = Phase.hcGetpair then some .hcGetpair
  else if p = Phase.bseInit then some .bseInit
  else if p = Phase.bseSym then some .bseSym
  else if p = Phase.bseEos then some .bseEos
  else if p = Phase.bseFinal then some .bseFinal
  else if p = Phase.bsdInit then some .bsdInit
  else if p = Phase.bsdFetch then some .bsdFetch
  else if p = Phase.bsdBit then some .bsdBit
  else if p = Phase.close then some .cmdClose
  else none

/-! ## The command byte (R80, R82; the seven disjoint `ILLEGAL` rows of R94) -/

/-- The command a byte written to `CMD` stands for. -/
def decodeCmd (c : Byte) : Instr :=
  if c = 0x00#8 then .nop
  else if c = 0x01#8 then .compress
  else if c = 0x02#8 then .decompress
  else if c = 0x03#8 then .illegal03
  else if c.getLsbD 7 then .illegal80 (c.extractLsb' 0 7)
  else if c.getLsbD 6 then .illegal40 (c.extractLsb' 0 6)
  else if c.getLsbD 5 then .illegal20 (c.extractLsb' 0 5)
  else if c.getLsbD 4 then .illegal10 (c.extractLsb' 0 4)
  else if c.getLsbD 3 then .illegal08 (c.extractLsb' 0 3)
  else .illegal04 (c.extractLsb' 0 2)

/-! ## All bit patterns, each at the place where HUFCORE meets it (R80) -/

/-- A bit pattern with the place it stands at: the place tells the format (R80). -/
inductive Raw
  /-- A byte written to `CMD`. -/
  | cmd (c : Byte)
  /-- A value of `PHASE`. -/
  | phase (p : PhaseCode)
  /-- The container byte at offset 0. -/
  | hdrCount (b : Byte)
  /-- The container byte at offset 1. -/
  | hdrWidth (b : Byte)
  /-- The `1 + F` bytes of a pair. -/
  | pair (bs : List Byte)
  /-- The bytes one fetch of the payload moves. -/
  | payload (bs : List Byte)
  /-- Consecutive bits of the bit stream. -/
  | code (bits : List Bool)
  deriving DecidableEq, Repr

/-- Why a bit pattern is no operation and no record of HUFCORE. -/
inductive DecodeError
  /-- A phase code that R83 leaves unused. -/
  | unusedPhase (p : PhaseCode)
  /-- A pair whose frequency field has none of the widths of R85. -/
  | pairLength (n : Nat)
  /-- A payload record of no byte or of more than 8 (R81). -/
  | payloadLength (n : Nat)
  /-- More bits than the longest code has (R89). -/
  | codeLength (n : Nat)
  deriving DecidableEq, Repr

/-- What a bit pattern at its place stands for. -/
def decode (cfg : Config) : Raw → Except DecodeError Instr
  | .cmd c => .ok (decodeCmd c)
  | .phase p =>
    match decodePhase p with
    | some i => .ok i
    | none => .error (.unusedPhase p)
  | .hdrCount b => .ok (.hdrCount b)
  | .hdrWidth b => .ok (.hdrWidth b)
  | .pair [] => .error (.pairLength 0)
  | .pair (s :: bs) =>
    if bs.length ∈ Config.fieldWidths then
      .ok (.pair s (BitVec.ofNat 4 bs.length) (BitVec.ofNat 64 (deser bs cfg.freqOrder)))
    else .error (.pairLength (bs.length + 1))
  | .payload bs =>
    if bs.length = 8 then .ok (.word (BitVec.ofNat 64 (deser bs cfg.wordOrder)))
    else if 1 ≤ bs.length ∧ bs.length ≤ 7 then
      .ok (.tail (BitVec.ofNat 4 bs.length) (BitVec.ofNat 64 (deser bs cfg.wordOrder)))
    else .error (.payloadLength bs.length)
  | .code bits =>
    if bits.length ≤ Config.wordBits then
      .ok (.code (BitVec.ofNat 64 (bitsValue bits)) (BitVec.ofNat 7 bits.length))
    else .error (.codeLength bits.length)

/-! ## The encoder -/

/-- The command byte of a host command (R82): the fixed bits of its row over the free ones. -/
def cmdByte : Instr → Option Byte
  | .nop => some 0x00#8
  | .compress => some 0x01#8
  | .decompress => some 0x02#8
  | .illegal03 => some 0x03#8
  | .illegal04 x => some (1#6 ++ x)
  | .illegal08 x => some (1#5 ++ x)
  | .illegal10 x => some (1#4 ++ x)
  | .illegal20 x => some (1#3 ++ x)
  | .illegal40 x => some (1#2 ++ x)
  | .illegal80 x => some (1#1 ++ x)
  | _ => none

/-- The phase code of a micro-operation (R83). -/
def phaseCode : Instr → Option PhaseCode
  | .pIdle => some Phase.idle
  | .fsClear => some Phase.fsClear
  | .fsCount => some Phase.fsCount
  | .fsSent => some Phase.fsSent
  | .fsCollect => some Phase.fsCollect
  | .tbSort => some Phase.tbSort
  | .tbInit => some Phase.tbInit
  | .tbMerge => some Phase.tbMerge
  | .tbRoot => some Phase.tbRoot
  | .caClear => some Phase.caClear
  | .caWalk => some Phase.caWalk
  | .hcWidth => some Phase.hcWidth
  | .hcPuthdr => some Phase.hcPuthdr
  | .hcPutpair => some Phase.hcPutpair
  | .hcGethdr => some Phase.hcGethdr
  | .hcGetpair => some Phase.hcGetpair
  | .bseInit => some Phase.bseInit
  | .bseSym => some Phase.bseSym
  | .bseEos => some Phase.bseEos
  | .bseFinal => some Phase.bseFinal
  | .bsdInit => some Phase.bsdInit
  | .bsdFetch => some Phase.bsdFetch
  | .bsdBit => some Phase.bsdBit
  | .cmdClose => some Phase.close
  | _ => none

/-- The bit pattern of an operation at its place; none for the sub-operations and `RESET`, whose rows
carry `"encoding": "-"` (R94). -/
def encode (cfg : Config) (i : Instr) : Option Raw :=
  match i with
  | .hdrCount n => some (.hdrCount n)
  | .hdrWidth f => some (.hdrWidth f)
  | .pair s f freq => some (.pair (s :: ser freq.toNat f.toNat cfg.freqOrder))
  | .word w => some (.payload (ser w.toNat 8 cfg.wordOrder))
  | .tail k t => some (.payload (ser t.toNat k.toNat cfg.wordOrder))
  | .code c len => some (.code (codeBits len.toNat c.toNat))
  | .tbTake | .bsePut _ _ | .bsdLeaf | .reset => none
  | i =>
    match cmdByte i with
    | some c => some (.cmd c)
    | none => (phaseCode i).map .phase

/-! ## The opcode table's own numbering -/

/-- The place of a word of spec/opcode_table.json. A row of format `CMD` has 8 bits and a row of format
`PHASE` has 6; a phase code handed over as a whole byte is the same number as a command byte, so for a
byte the phase codes of R83 come first and the other bytes are command bytes (assumption log 8). -/
def tableRaw (nbits w : Nat) : Option Raw :=
  if nbits = 6 ∧ w < 64 then some (.phase (BitVec.ofNat 6 w))
  else if nbits = 8 ∧ w < 256 then
    if w < 64 ∧ (decodePhase (BitVec.ofNat 6 w)).isSome then some (.phase (BitVec.ofNat 6 w))
    else some (.cmd (BitVec.ofNat 8 w))
  else none

/-- The instruction the decoder reads from a word of spec/opcode_table.json. -/
def decodeTableWord (nbits w : Nat) : Option Instr :=
  match tableRaw nbits w with
  | some r => (decode Config.hufcore r).toOption
  | none => none

end Sys2Proof
end

