-- ==== Sys2Proof/Machine/State.lean ====
section
/-! DEFINITION. The state of HUFCORE (spec/10_state.md, R20 to R41), the ways a step of the model can
stop, and the state after reset (R39). Every field cites the rule that names it; the fields of the last
group are the model's own. -/

namespace Sys2Proof.Machine

/-- `STATUS`, 2 bits, all four values named (R22). -/
inductive Status
  | idle
  | busy
  | done
  | failed
  deriving DecidableEq, Repr

/-- `CAUSE`, 4 bits; the codes 10 to 15 are never written (R23, R210). -/
inductive Cause
  | none
  | ioError
  | emptyAlphabet
  | alphabetTooLarge
  | codeOverflow
  | malformedHeader
  | unexpectedEndOfStream
  | symbolOutOfRange
  | lookupMiss
  | illegalCommand
  deriving DecidableEq, Repr

/-- `OP`, 2 bits: 0 none, 1 COMPRESS, 2 DECOMPRESS (R26). -/
inductive Op
  | none
  | compress
  | decompress
  deriving DecidableEq, Repr

/-- `FLAGS`, 3 bits, all defined (R25). -/
structure Flags where
  /-- Bit 0. -/
  emptyInput : Bool
  /-- Bit 1. -/
  inOpen : Bool
  /-- Bit 2. -/
  outOpen : Bool
  deriving DecidableEq, Repr

/-- `NODE[i].kind`, 1 bit: 0 `Leaf`, 1 `Internal` (R34). -/
inductive Kind
  | leaf
  | internal
  deriving DecidableEq, Repr

/-- An entry of the node store (R34). -/
structure NodeEntry where
  kind : Kind
  freq : Word
  parent : Idx
  sym : Byte
  code : Word
  len : Len
  left : Idx
  right : Idx
  deriving DecidableEq, Repr

/-- An entry of the code lookup table (R36). -/
structure LutEntry where
  valid : Bool
  code : Word
  len : Len
  deriving DecidableEq, Repr

/-- A byte-addressed space (R37): (offset, byte) cells with strictly rising offsets. An offset that is not
listed holds no byte. -/
abbrev Memory := List Host.Cell

/-- What the host does to the core between two steps (R199): it writes a byte to `CMD`, handing over an
input stream with the length it states for it (R191), or it raises `RESET` (R235). -/
inductive HostAct
  | cmd (c : Byte) (input : Memory) (len : Word)
  | reset
  deriving DecidableEq, Repr

/-- When the host acts: after so many steps of the machine, whatever they are, or as soon as
`STATUS` is not `BUSY` (duty H1 of R243). -/
inductive Wait
  | steps (n : Nat)
  | notBusy
  deriving DecidableEq, Repr

/-- One planned act of the host. -/
structure HostEvent where
  wait : Wait
  act : HostAct
  deriving DecidableEq, Repr

/-- The input stream the host holds out with its last `CMD` write, with the length it states (R191). -/
structure Offer where
  input : Memory
  len : Word
  deriving DecidableEq, Repr

/-- The state of HUFCORE. -/
structure State where
  -- The implementation parameters, constant (R10, R11; assumption log 4).
  cfg : Config
  -- Control and status registers (R22 to R30). `CMD` has no storage (R21).
  status : Status
  cause : Cause
  info : Word
  flags : Flags
  op : Op
  phase : PhaseCode
  inLen : Word
  inPos : Word
  outLen : Word
  n : Byte
  f : FieldWidth
  -- Working registers (R31).
  root : Idx
  lrem : Idx
  qh : Idx
  nt : Idx
  sel : Idx
  caI : Idx
  hcI : Idx
  acc : Word
  free : Len
  dword : Word
  nbits : Len
  cur : Idx
  prem : Word
  -- Register arrays (R32, R34, R36).
  cnt : Vector Word 128
  node : Vector NodeEntry 509
  lut : Vector LutEntry 128
  -- The two spaces (R37): the input of the running command and what it has appended.
  inp : Memory
  out : Memory
  -- The model's own: the host's planned acts, the streams it holds out, the oracle's draws in order, how
  -- many draws past them and how many unstated words have been taken (assumption log 1, 2, 3, 20).
  host : List HostEvent
  offer : Offer
  draws : List IoDraw
  drawn : Nat
  unstated : Nat
  deriving DecidableEq, Repr

/-- Where the model stops because a rule's precondition fails: the spec gives no effect there, and no
state that the rules reach gets there (R225; DESIGN CHOICE, assumption log 9). Each is SAFE: the machine
stops where the hardware's behaviour is not described. -/
inductive Fault
  /-- An index of `NODE` outside `0 .. 508` (R34, R225); raised by every operation that indexes it. -/
  | nodeIndex
  /-- An index of `LUT` outside `0 .. 127` (R36, R137); raised by `CA.WALK`. -/
  | lutIndex
  /-- A `MemRead` with `FLAGS.IN_OPEN = 0` (R68); raised by every reading operation. -/
  | streamClosed
  /-- A `MemRead` past `IN_LEN` (the precondition of R68); raised by every reading operation. -/
  | readPastEnd
  /-- A stream access of no byte or of more than 8 (R68, R69). -/
  | accessWidth
  /-- Neither an untaken leaf nor a pending subtree, or fewer than two items (the preconditions of R124,
  R125); raised by `TB.TAKE` and `TB.MERGE`. -/
  | nothingToTake
  /-- `FREE` above 64, or an operand of `BSE.PUT` that is no code (R31, R163); raised by `BSE.PUT`,
  `BSE.SYM`, `BSE.EOS`, `BSE.FINAL`. -/
  | bitCount
  /-- `BSD.BIT` with `NBITS = 0` (the precondition of R178). -/
  | noBitLeft
  /-- A walk that does not stand on an internal node (the precondition of R178); raised by `BSD.BIT` and
  by the record `CODE`. -/
  | walkFromLeaf
  /-- `STATUS = BUSY` with a phase code that R83 leaves unused; raised by the sequencer. -/
  | unusedPhase
  deriving DecidableEq, Repr

/-- Where the model gives a step no meaning. SAFE: no claim about such a step can be proved. -/
inductive Refusal
  /-- An instruction without a meaning; no arm of `exec` answers with it. -/
  | notModelled (mnemonic : String)
  /-- The host stated a length longer than the input it handed over and the read reaches the missing
  bytes: duty H9 of R243 is broken and the spec gives no next state (spec/93, U21). -/
  | inputMissing
  deriving DecidableEq, Repr

/-! ## Reset -/

/-- What `RESET` leaves in a `NODE` entry: the value 1 in every field, which the spec does not give (R39,
R40; assumption log 5). -/
def NodeEntry.afterReset : NodeEntry :=
  { kind := .internal, freq := 1, parent := 1, sym := 1, code := 1, len := 1, left := 1, right := 1 }

/-- What `RESET` leaves in a `LUT` entry: the value 1 in every field (assumption log 5). -/
def LutEntry.afterReset : LutEntry := { valid := true, code := 1, len := 1 }

/-- HUFCORE right after reset (R39): the registers the rule lists at its values, every working register
and array entry, which it leaves unspecified, at 1 (assumption log 5), nothing planned and nothing
appended. -/
def State.reset : State where
  cfg := Config.hufcore
  status := .idle
  cause := .none
  info := 0
  flags := { emptyInput := false, inOpen := false, outOpen := false }
  op := .none
  phase := Phase.idle
  inLen := 0
  inPos := 0
  outLen := 0
  n := 0
  f := 0
  root := 1
  lrem := 1
  qh := 1
  nt := 1
  sel := 1
  caI := 1
  hcI := 1
  acc := 1
  free := 1
  dword := 1
  nbits := 1
  cur := 1
  prem := 1
  cnt := Vector.replicate 128 1
  node := Vector.replicate 509 NodeEntry.afterReset
  lut := Vector.replicate 128 LutEntry.afterReset
  inp := []
  out := []
  host := []
  offer := { input := [], len := 0 }
  draws := []
  drawn := 0
  unstated := 0

end Sys2Proof.Machine
end

