-- ==== Sys2Proof/Machine/Flags.lean ====
section
/-! DEFINITION. The flags and the codes of the result registers (spec/10_state.md R22 to R26). HUFCORE has
no arithmetic flag: these are the only ones, and only the places below set or clear them (R25). -/

namespace Sys2Proof.Machine

/-- Command start (R191): `EMPTY_INPUT` for a COMPRESS of no byte (R193), both streams held. -/
def Flags.atStart (op : Op) (len : Word) : Flags :=
  { emptyInput := decide (op = .compress) && decide (len = 0), inOpen := true, outOpen := true }

/-- `IN_OPEN` and `OUT_OPEN` cleared, `EMPTY_INPUT` kept (R197, R198, R220). -/
def Flags.closed (fl : Flags) : Flags := { fl with inOpen := false, outOpen := false }

/-- The three bits as the host reads them, `EMPTY_INPUT` in bit 0 (R25). -/
def Flags.bits (fl : Flags) : BitVec 3 :=
  BitVec.ofBool fl.outOpen ++ BitVec.ofBool fl.inOpen ++ BitVec.ofBool fl.emptyInput

/-- The value of `STATUS` (R22). -/
def Status.code : Status → BitVec 2
  | .idle => 0
  | .busy => 1
  | .done => 2
  | .failed => 3

/-- The cause codes (R210). -/
def Cause.code : Cause → BitVec 4
  | .none => 0
  | .ioError => 1
  | .emptyAlphabet => 2
  | .alphabetTooLarge => 3
  | .codeOverflow => 4
  | .malformedHeader => 5
  | .unexpectedEndOfStream => 6
  | .symbolOutOfRange => 7
  | .lookupMiss => 8
  | .illegalCommand => 9

/-- The value of `OP` (R26). -/
def Op.code : Op → BitVec 2
  | .none => 0
  | .compress => 1
  | .decompress => 2

end Sys2Proof.Machine
end

