-- ==== Sys2Proof/Machine/Ops.lean ====
section
/-! DEFINITION. The shared operations: the two stream spaces (spec/20_memory.md), the I/O oracle (R70),
`MemRead` and `MemWrite` (R68, R69), fault entry (spec/60_exceptions.md R220), the node store, and the one
place where results of partial operations are chained. -/

namespace Sys2Proof.Machine

/-- What an operation answers. -/
abbrev Result := Host.Outcome State Fault Refusal

/-! ## The stream spaces (R37, R60) -/

/-- The byte at an offset; none where the space holds none. -/
def Memory.byteAt : Memory → Nat → Option Byte
  | [], _ => none
  | (k, b) :: rest, a => if k = a then some b else Memory.byteAt rest a

/-- Offsets rise strictly and start at `lo` or above. -/
def Memory.wfFrom : Nat → Memory → Bool
  | _, [] => true
  | lo, (k, _) :: rest => decide (lo ≤ k) && Memory.wfFrom (k + 1) rest

/-- The canonical form: strictly rising offsets. An unlisted offset reads as no byte, so no entry can
equal what it reads as. -/
def Memory.wf (m : Memory) : Bool := Memory.wfFrom 0 m

/-- The offset just past the last byte, `lo` for an empty space. -/
def Memory.endFrom : Nat → Memory → Nat
  | lo, [] => lo
  | _, (k, _) :: rest => Memory.endFrom (k + 1) rest

/-- The offset at which the next byte is appended (R60). -/
def Memory.endOff (m : Memory) : Nat := Memory.endFrom 0 m

/-- One byte appended at the end (R60: `OUT` only grows at its end). -/
def Memory.append (m : Memory) (b : Byte) : Memory := m ++ [(m.endOff, b)]

/-- Bytes appended in the order given (R69). -/
def Memory.appendAll (m : Memory) : List Byte → Memory
  | [] => m
  | b :: bs => Memory.appendAll (m.append b) bs

/-- The space that holds exactly these bytes from offset 0 on. -/
def Memory.ofBytes (bs : List Byte) : Memory := Memory.appendAll [] bs

/-- The bytes in offset order. -/
def Memory.bytes (m : Memory) : List Byte := m.map Prod.snd

/-- The `n` bytes at offsets `a .. a+n-1`; none where one of them is missing. -/
def Memory.bytesAt (m : Memory) : Nat → Nat → Option (List Byte)
  | _, 0 => some []
  | a, n + 1 =>
    match m.byteAt a, m.bytesAt (a + 1) n with
    | some b, some bs => some (b :: bs)
    | _, _ => none

/-! ## Phase transfer and fault entry -/

/-- `PHASE <- P` (R13). -/
def State.setPhase (s : State) (p : PhaseCode) : State := { s with phase := p }

/-- TAKING AN EXCEPTION: fault entry `raise X(info)` (R220). Nothing is saved anywhere else, and there is
no handler: the sequencer stops and the host finds `STATUS = FAILED`. There is no return from a fault
(R224); the host's next command starts from scratch (`State.startCommand`). -/
def State.raise (s : State) (c : Cause) (info : Word) : State :=
  { s with
    cause := c
    info := info
    flags := s.flags.closed
    status := .failed
    phase := Phase.idle }

/-! ## Chaining -/

/-- A part of an operation: it yields a value and a state, or it ends the operation. -/
inductive Access (α : Type)
  | ok (a : α) (s : State)
  | halt (r : Result)

/-- The rest of the operation after a part of it. -/
def Access.andThen {α : Type} (x : Access α) (k : α → State → Result) : Result :=
  match x with
  | .ok a s => k a s
  | .halt r => r

/-- A part after a part. -/
def Access.bind {α β : Type} (x : Access α) (k : α → State → Access β) : Access β :=
  match x with
  | .ok a s => k a s
  | .halt r => .halt r

/-- The part as a whole operation. -/
def Access.finish (x : Access Unit) : Result := x.andThen fun _ s => .next s

/-! ## The I/O oracle (R70) -/

/-- The draw for the next stream access: the first that the state lists, else the free value. -/
def State.nextDraw (s : State) : IoDraw :=
  match s.draws with
  | d :: _ => d
  | [] => Config.freeDraw s.drawn

/-- The state after one draw. -/
def State.afterDraw (s : State) : State :=
  match s.draws with
  | _ :: ds => { s with draws := ds }
  | [] => { s with drawn := s.drawn + 1 }

/-! ## `MemRead` and `MemWrite` (R68, R69) -/

/-- `MemRead(IN, a, n)` (R68). The preconditions come first, then the oracle, once for the whole access,
then the bytes (DEDUCED, assumption log 12). A failed read changes nothing but fault entry (R211). -/
def State.memRead (s : State) (a n : Nat) : Access (List Byte) :=
  if n = 0 ∨ Config.wordBytes < n then .halt (.fault .accessWidth)
  else if s.flags.inOpen = false then .halt (.fault .streamClosed)
  else if s.inLen.toNat < a + n then .halt (.fault .readPastEnd)
  else
    match s.nextDraw with
    | .fails _ => .halt (.next (s.afterDraw.raise .ioError 0))
    | .passes =>
      match s.inp.bytesAt a n with
      | some bs => .ok bs s.afterDraw
      | none => .halt (.refused .inputMissing)

/-- The bytes appended to `OUT` and counted in `OUT_LEN`, which is kept modulo `2^64` (R69, R204). -/
def State.appendOut (s : State) (bs : List Byte) : State :=
  { s with out := s.out.appendAll bs, outLen := s.outLen + BitVec.ofNat 64 bs.length }

/-- How many of `n` bytes a failed write leaves behind: a proper prefix, chosen by the oracle (R69). -/
def landedBytes (landed n : Nat) : Nat := min landed (n - 1)

/-- `MemWrite(OUT, n, bs)` with `n` the length of `bs` (R69). It does not look at `OUT_OPEN` (DEDUCED,
assumption log 18). -/
def State.memWrite (s : State) (bs : List Byte) : Access Unit :=
  if bs.length = 0 ∨ Config.wordBytes < bs.length then .halt (.fault .accessWidth)
  else
    match s.nextDraw with
    | .passes => .ok () (s.afterDraw.appendOut bs)
    | .fails p =>
      .halt (.next ((s.afterDraw.appendOut (bs.take (landedBytes p bs.length))).raise .ioError 1))

/-! ## The node store (R34) -/

/-- `NODE[i]`; none outside the store. -/
def State.nodeAt (s : State) (i : Idx) : Option NodeEntry := s.node[i.toNat]?

/-- Entry `i` of a store rewritten by `g`; unchanged where there is no such entry. -/
def updNode (v : Vector NodeEntry 509) (i : Nat) (g : NodeEntry → NodeEntry) : Vector NodeEntry 509 :=
  match v[i]? with
  | some e => v.setIfInBounds i (g e)
  | none => v

/-- The fields of entry `i` that `g` changes, written. -/
def State.setNode (s : State) (i : Idx) (g : NodeEntry → NodeEntry) : State :=
  { s with node := updNode s.node i.toNat g }

/-- `Leaf{ kind = 0, sym, freq, parent = NONE }`: `code` and `len` stay unwritten (R113, R151), and what the
rule does not name keeps its contents (DEDUCED, assumption log 10). -/
def NodeEntry.asLeaf (e : NodeEntry) (sym : Byte) (freq : Word) : NodeEntry :=
  { e with kind := .leaf, sym := sym, freq := freq, parent := Config.none }

/-- Leaves written to consecutive entries from `j` on. -/
def placeLeaves : List (Byte × Word) → Nat → Vector NodeEntry 509 → Vector NodeEntry 509
  | [], _, v => v
  | (sym, freq) :: rest, j, v => placeLeaves rest (j + 1) (updNode v j fun e => e.asLeaf sym freq)

/-- Whole entries written to consecutive places from `j` on. -/
def placeEntries : List NodeEntry → Nat → Vector NodeEntry 509 → Vector NodeEntry 509
  | [], _, v => v
  | e :: rest, j, v => placeEntries rest (j + 1) (v.setIfInBounds j e)

/-! ## Command start (R191) and reset (R235) -/

/-- The first phase of a command (R191, R200). -/
def Op.firstPhase : Op → PhaseCode
  | .decompress => Phase.hcGethdr
  | _ => Phase.fsClear

/-- Command start (R191): the input the host holds out is taken, `OUT` as this command sees it is empty,
working registers and arrays keep what they hold (R41, R192). -/
def State.startCommand (s : State) (op : Op) : State :=
  { s with
    status := .busy
    cause := .none
    info := 0
    flags := Flags.atStart op s.offer.len
    op := op
    inLen := s.offer.len
    inPos := 0
    outLen := 0
    n := 0
    f := 0
    phase := op.firstPhase
    inp := s.offer.input
    out := [] }

/-- `RESET` (R235) in any state: the registers of the rule at their values, the unspecified ones as
`State.reset` has them (assumption log 5); the parameters, the streams and what is outside the core stay. -/
def State.resetCore (s : State) : State :=
  { State.reset with
    cfg := s.cfg
    inp := s.inp
    out := s.out
    host := s.host
    offer := s.offer
    draws := s.draws
    drawn := s.drawn
    unstated := s.unstated }

end Sys2Proof.Machine
end

