-- ==== Sys2Proof/Machine/Operands.lean ====
section
/-! DEFINITION. Operand forms: what an operation reads besides plain registers (an input byte, an entry of
an array, a code, a record of the container) and the arithmetic on it (spec/47_arithmetic_laws.md), and
what the host reads. -/

namespace Sys2Proof.Machine

/-! ## Symbols and the sort order (R14, R122, R206) -/

/-- `s8(b)`, the signed reading of a symbol byte (R13, R206). -/
def s8 (b : Byte) : Int := if b.toNat < 128 then b.toNat else (b.toNat : Int) - 256

/-- Which symbol goes first among equal frequencies (R10 `TIE_SORT`, R122). -/
def symbolFirst : TieSort → Byte → Byte → Bool
  | .symbolSignedStable, x, y => decide (s8 x < s8 y)

/-- The sort order `before(x, y)` (R122): greater `freq` first, then smaller signed `sym`. -/
def before (x y : NodeEntry) : Bool :=
  decide (y.freq < x.freq) ||
    (decide (x.freq = y.freq) && symbolFirst Config.fixed.tieSort x.sym y.sym)

/-- Whether the lightest leaf, of weight `x`, is taken before the oldest pending subtree, of weight `y`
(R124; on equal weights R10 `TIE_MERGE`). -/
def leafFirst (x y : Word) : Bool :=
  match Config.fixed.tieMerge with
  | .leaf => decide (x ≤ y)
  | .pending => decide (x < y)

/-- The left and the right child, of the item taken first and the item taken second (R125; R10
`ORIENT`). -/
def children (a b : Idx) : Idx × Idx :=
  match Config.fixed.orient with
  | .left => (a, b)
  | .right => (b, a)

/-- `x` put into a sorted list, ahead of the entries that do not come before it: an entry that the order
leaves undecided stays ahead of those after it, so the sort is stable (R121). -/
def insertEntry (x : NodeEntry) : List NodeEntry → List NodeEntry
  | [] => [x]
  | y :: ys => if before y x then y :: insertEntry x ys else x :: y :: ys

/-- The stable sort by `before` (R121; the method is not observable, R19). -/
def sortEntries : List NodeEntry → List NodeEntry
  | [] => []
  | x :: xs => insertEntry x (sortEntries xs)

/-! ## Header arithmetic (R81, R87, R146, R150) -/

/-- `HDR_LEN = 2 + N*(1+F)` (R81). -/
def headerLen (n f : Nat) : Nat := 2 + n * (1 + f)

/-- The smallest legal width that holds `m` (R146). -/
def widthFor (m : Word) : FieldWidth :=
  if m.toNat ≤ 0xFF then 1
  else if m.toNat ≤ 0xFFFF then 2
  else if m.toNat ≤ 0xFFFFFFFF then 4
  else 8

/-- The bytes of a frequency field (R87, write side). -/
def freqBytes (cfg : Config) (freq : Word) (f : FieldWidth) : List Byte :=
  ser (freq.toNat % 2 ^ (8 * f.toNat)) f.toNat cfg.freqOrder

/-- The frequency a field holds (R87, read side): zero-extended. -/
def freqOfBytes (cfg : Config) (bs : List Byte) : Word := BitVec.ofNat 64 (deser bs cfg.freqOrder)

/-- The first test of the header bytes that fires, as the `INFO` of `MalformedHeader` (R150, R222). -/
def headerFault (n f : Byte) (inLen : Word) : Option Word :=
  if n = 0 then some 1
  else if f.toNat ∉ Config.fieldWidths then some 2
  else if inLen.toNat < headerLen n.toNat f.toNat then some 3
  else none

/-! ## Words of the payload (R63, R163, R164, R177) -/

/-- `2^r - 1` as a word. -/
def lowMask (r : Nat) : Word := BitVec.ofNat 64 (2 ^ r - 1)

/-- `ceil8(n)`, whole bytes that hold `n` bits (R13). -/
def ceil8 (n : Nat) : Nat := (n + 7) / 8

/-- A stream word as bytes (R63). -/
def wordBytes (cfg : Config) (w : Word) : List Byte := ser w.toNat Config.wordBytes cfg.wordOrder

/-- The ragged tail of `k` bytes: the `k` most significant bytes of the accumulator (R63, R164). -/
def tailBytes (cfg : Config) (acc : Word) (k : Nat) : List Byte :=
  ser (acc >>> (8 * (8 - k))).toNat k cfg.wordOrder

/-- The value of `k` bytes left-aligned in a word (R63, R177). -/
def leftAlign (v k : Nat) : Word := BitVec.ofNat 64 v <<< (8 * (8 - k))

/-! ## Codes (R89) -/

/-- What a leaf-to-root walk finds (R137). -/
inductive Walk
  | code (c : Word) (len : Nat)
  | tooDeep
  | badIndex
  deriving DecidableEq, Repr

/-- The leaf-to-root walk of `CA.WALK` (R137). `room` is how many more branches the code register holds,
`l` how many it has: the branch found `l`-th from the leaf goes to bit `l`. -/
def walkUp (v : Vector NodeEntry 509) : Nat → Idx → Word → Nat → Walk
  | room, i, acc, l =>
    match v[i.toNat]? with
    | none => .badIndex
    | some e =>
      if e.parent = Config.none then .code acc l
      else
        match v[e.parent.toNat]? with
        | none => .badIndex
        | some p =>
          match room with
          | 0 => .tooDeep
          | room + 1 =>
            walkUp v room e.parent (acc ||| (if p.right = i then 1#64 <<< l else 0#64)) (l + 1)

/-! ## What the host reads (R19, R21 to R30) -/

/-- The host-visible registers. `CMD` is not readable (R21). -/
inductive HostReg
  | status
  | cause
  | info
  | flags
  | n
  | f
  | outLen
  deriving DecidableEq, Repr

/-- A host read of a register, at any time for `STATUS`; the others offer no read while a command runs
(D36; spec/93, U26; assumption log 17). -/
def State.hostRead (s : State) : HostReg → Option Word
  | .status => some (s.status.code.setWidth 64)
  | .cause => if s.status = .busy then none else some (s.cause.code.setWidth 64)
  | .info => if s.status = .busy then none else some s.info
  | .flags => if s.status = .busy then none else some (s.flags.bits.setWidth 64)
  | .n => if s.status = .busy then none else some (s.n.setWidth 64)
  | .f => if s.status = .busy then none else some (s.f.setWidth 64)
  | .outLen => if s.status = .busy then none else some s.outLen

/-- The output bytes as the host finds them once the command has ended (R19, R74). -/
def State.hostOut (s : State) : Option (List Byte) :=
  if s.status = .busy then none else some s.out.bytes

end Sys2Proof.Machine
end

