-- ==== Sys2Proof/Machine/Bsd.lean ====
section
/-! DEFINITION. The BitStreamDecoder (spec/45_bitstream_decoder.md). -/

namespace Sys2Proof.Machine

/-- `PREM <- a - k` (R175, R177). Where `k` is more than `a` the rules state no result, and `PREM` takes a
free value (DESIGN CHOICE, assumption log 20). -/
def State.setPrem (s : State) (a : Word) (k : Nat) : State :=
  { s with
    prem := if k ≤ a.toNat then a - BitVec.ofNat 64 k else Config.freeWord s.unstated
    unstated := if k ≤ a.toNat then s.unstated else s.unstated + 1 }

/-- The state in which `BSD.INIT` decides how to go on (R175). -/
def State.startDecoder (s : State) : State :=
  { s.setPrem s.inLen (headerLen s.n.toNat s.f.toNat) with nbits := 0, cur := s.root }

/-- `BSD.INIT` (R175). -/
def execBsdInit (s : State) : Result :=
  match s.nodeAt s.root with
  | none => .fault .nodeIndex
  | some e =>
    if e.kind = .leaf then
      if e.sym = Config.sentinel then .next (s.startDecoder.setPhase Phase.close)
      else .next (s.startDecoder.raise .unexpectedEndOfStream 0)
    else .next (s.startDecoder.setPhase Phase.bsdFetch)

/-- `k` payload bytes of value `v` taken up: left-aligned in `DWORD`, the cursors moved (R177). -/
def State.loadWord (s : State) (v k : Nat) : State :=
  { s.setPrem s.prem k with
    dword := leftAlign v k
    nbits := BitVec.ofNat 7 (8 * k)
    inPos := s.inPos + BitVec.ofNat 64 k
    phase := Phase.bsdBit }

/-- `BSD.FETCH` (R177): the exhaustion test comes first. -/
def execBsdFetch (s : State) : Result :=
  if s.prem = 0 then .next (s.raise .unexpectedEndOfStream 0)
  else
    let k := min 8 s.prem.toNat
    (s.memRead s.inPos.toNat k).andThen fun bs s => .next (s.loadWord (deser bs s.cfg.wordOrder) k)

/-- `BSD.LEAF` (R176). The value says whether the leaf is the sentinel, where decoding stops. -/
def emitLeaf (s : State) : Access Bool :=
  match s.nodeAt s.cur with
  | none => .halt (.fault .nodeIndex)
  | some e =>
    if e.sym = Config.sentinel then .ok true (s.setPhase Phase.close)
    else (s.memWrite [e.sym]).bind fun _ s => .ok false { s with cur := s.root }

/-- `BSD.LEAF` on its own (R176). Its operand is the leaf `NODE[CUR]`: on an internal entry, where no rule calls
it, it acts by that entry's `sym` all the same (DESIGN CHOICE, assumption log 13). -/
def execBsdLeaf (s : State) : Result := (emitLeaf s).andThen fun _ s => .next s

/-- One bit of the walk (R178): one edge down, and `BSD.LEAF` where a leaf is reached. The value says
whether decoding stops. -/
def walkBit (bit : Bool) (s : State) : Access Bool :=
  match s.nodeAt s.cur with
  | none => .halt (.fault .nodeIndex)
  | some e =>
    if e.kind = .leaf then .halt (.fault .walkFromLeaf)
    else
      let c := if bit then e.right else e.left
      match s.nodeAt c with
      | none => .halt (.fault .nodeIndex)
      | some d =>
        if d.kind = .leaf then emitLeaf { s with cur := c } else .ok false { s with cur := c }

/-- The first bit of `DWORD` used up (R178). -/
def State.dropBit (s : State) : State := { s with dword := s.dword <<< 1, nbits := s.nbits - 1 }

/-- `BSD.BIT` (R178). -/
def execBsdBit (s : State) : Result :=
  if s.nbits = 0 then .fault .noBitLeft
  else
    (walkBit (s.dword.getLsbD 63) s.dropBit).andThen fun stop s =>
      if stop then .next s
      else .next (s.setPhase (if s.nbits = 0 then Phase.bsdFetch else Phase.bsdBit))

end Sys2Proof.Machine
end

