-- ==== Sys2Proof/Machine/Bse.lean ====
section
/-! DEFINITION. The BitStreamEncoder (spec/44_bitstream_encoder.md). -/

namespace Sys2Proof.Machine

/-- `BSE.INIT` (R160). -/
def execBseInit (s : State) : Result :=
  .next { s with acc := 0, free := 64, inPos := 0, phase := Phase.bseSym }

/-- `BSE.PUT(v, l)` (R163): the code fits in the free bits, or it is split: the
accumulator is filled before the write that may fail (R220), and the rest seeds a new one. -/
def putCode (v : Word) (l : Len) (s : State) : Access Unit :=
  if Config.wordBits < s.free.toNat ∨ codeFits v l = false then .halt (.fault .bitCount)
  else if l.toNat ≤ s.free.toNat then
    .ok () { s with acc := s.acc ||| (v <<< (s.free.toNat - l.toNat)), free := s.free - l }
  else
    let r := l.toNat - s.free.toNat
    let u := { s with acc := s.acc ||| (v >>> r) }
    (u.memWrite (wordBytes u.cfg u.acc)).bind fun _ s =>
      .ok () { s with acc := (v &&& lowMask r) <<< (64 - r), free := BitVec.ofNat 7 (64 - r) }

/-- `BSE.PUT` on its own (R163; DESIGN CHOICE, assumption log 13). -/
def execBsePut (v : Word) (l : Len) (s : State) : Result := (putCode v l s).finish

/-- The table entry of a byte, where it has a code (R161): none for a byte above 127 or an entry that is
not valid. -/
def State.lutFor (s : State) (b : Byte) : Option LutEntry :=
  match s.lut[b.toNat]? with
  | some e => if e.valid then some e else none
  | none => none

/-- `BSE.SYM` (R161); a literal 0x00 ends the stream (R168). -/
def execBseSym (s : State) : Result :=
  if s.inPos = s.inLen then .next (s.setPhase Phase.bseEos)
  else
    (s.memRead s.inPos.toNat 1).andThen fun bs s =>
      let b := bs.headD 0
      match s.lutFor b with
      | none => .next (s.raise .lookupMiss s.inPos)
      | some e =>
        (putCode e.code e.len { s with inPos := s.inPos + 1 }).andThen fun _ s =>
          .next (s.setPhase (if b = Config.sentinel then Phase.bseFinal else Phase.bseSym))

/-- `BSE.EOS` (R162). -/
def execBseEos (s : State) : Result :=
  let e := s.lut[Config.sentinel.toNat]
  (putCode e.code e.len s).andThen fun _ s => .next (s.setPhase Phase.bseFinal)

/-- `BSE.FINAL` (R164). -/
def execBseFinal (s : State) : Result :=
  if Config.wordBits < s.free.toNat then .fault .bitCount
  else
    let k := ceil8 (64 - s.free.toNat)
    if k = 0 then .next (s.setPhase Phase.close)
    else (s.memWrite (tailBytes s.cfg s.acc k)).andThen fun _ s => .next (s.setPhase Phase.close)

end Sys2Proof.Machine
end

