-- ==== Sys2Proof/Machine/Ca.lean ====
section
/-! DEFINITION. The CodeAssigner and the code lookup table (spec/42_code_assigner.md). -/

namespace Sys2Proof.Machine

/-- `CA.CLEAR` (R136): only the `valid` fields are written. -/
def execCaClear (s : State) : Result :=
  .next
    { s with
      lut := s.lut.map fun e => { e with valid := false }
      caI := 0
      phase := Phase.caWalk }

/-- The code of leaf `CA_I` stored in its entry and in the table (R137). -/
def State.assignCode (s : State) (sym : Byte) (c : Word) (len : Len) : State :=
  { s.setNode s.caI fun e => { e with code := c, len := len } with
    lut := s.lut.setIfInBounds sym.toNat { valid := true, code := c, len := len }
    caI := s.caI + 1
    phase := Phase.caWalk }

/-- `CA.WALK` (R137, R140). -/
def execCaWalk (s : State) : Result :=
  if s.caI.toNat = s.n.toNat then .next (s.setPhase Phase.hcWidth)
  else
    match s.nodeAt s.caI with
    | none => .fault .nodeIndex
    | some e =>
      match walkUp s.node Config.codeBits s.caI 0 0 with
      | .badIndex => .fault .nodeIndex
      | .tooDeep => .next (s.raise .codeOverflow (e.sym.setWidth 64))
      | .code c len =>
        if e.sym.toNat < Config.symCount then .next (s.assignCode e.sym c (BitVec.ofNat 7 len))
        else .fault .lutIndex

end Sys2Proof.Machine
end

