-- ==== Sys2Proof/Machine/Cmd.lean ====
section
/-! DEFINITION. The host commands, the close of a command, the idle phase and the reset event
(spec/46_commands.md, spec/70_reset_and_hazards.md). -/

namespace Sys2Proof.Machine

/-- Acceptance of a `CMD` write (R190): while a command runs the write has no effect of any kind. -/
def State.accept (s : State) (t : State) : State := if s.status = .busy then s else t

/-- `NOP` (R196). -/
def execNop (s : State) : Result := .next s

/-- `COMPRESS` (R194): command start (R191). -/
def execCompress (s : State) : Result := .next (s.accept (s.startCommand .compress))

/-- `DECOMPRESS` (R195): command start (R191). -/
def execDecompress (s : State) : Result := .next (s.accept (s.startCommand .decompress))

/-- An illegal command `c` (R197): fault entry without a running command, and `OP` cleared. -/
def State.illegal (s : State) (c : Byte) : State :=
  { s.raise .illegalCommand (c.setWidth 64) with op := .none }

/-- A reserved value of `CMD` (R197, R190). -/
def illegalCommand (c : Byte) (s : State) : Result := .next (s.accept (s.illegal c))

/-- `CMD` = 0x03 (R197). -/
def execIllegal03 (s : State) : Result := illegalCommand 0x03#8 s

/-- `CMD` = 0x04 to 0x07 (R197). -/
def execIllegal04 (x : BitVec 2) (s : State) : Result := illegalCommand (1#6 ++ x) s

/-- `CMD` = 0x08 to 0x0F (R197). -/
def execIllegal08 (x : BitVec 3) (s : State) : Result := illegalCommand (1#5 ++ x) s

/-- `CMD` = 0x10 to 0x1F (R197). -/
def execIllegal10 (x : BitVec 4) (s : State) : Result := illegalCommand (1#4 ++ x) s

/-- `CMD` = 0x20 to 0x3F (R197). -/
def execIllegal20 (x : BitVec 5) (s : State) : Result := illegalCommand (1#3 ++ x) s

/-- `CMD` = 0x40 to 0x7F (R197). -/
def execIllegal40 (x : BitVec 6) (s : State) : Result := illegalCommand (1#2 ++ x) s

/-- `CMD` = 0x80 to 0xFF (R197). -/
def execIllegal80 (x : BitVec 7) (s : State) : Result := illegalCommand (1#1 ++ x) s

/-- `CMD.CLOSE` (R198). -/
def execCmdClose (s : State) : Result :=
  .next { s with flags := s.flags.closed, status := .done, phase := Phase.idle }

/-- `P_IDLE` (R83, R199): no operation. -/
def execPIdle (s : State) : Result := .next s

/-- `RESET` (R235), in any state (R236). -/
def execReset (s : State) : Result := .next s.resetCore

end Sys2Proof.Machine
end

