-- ==== Sys2Proof/Machine/Fs.lean ====
section
/-! DEFINITION. The FrequencyScanner (spec/40_frequency_scanner.md). -/

namespace Sys2Proof.Machine

/-- `FS.CLEAR` (R110). -/
def execFsClear (s : State) : Result :=
  .next { s with cnt := Vector.replicate 128 0, inPos := 0, phase := Phase.fsCount }

/-- A counter raised by one, modulo `2^64` (R33). -/
def State.countSym (s : State) (b : Byte) : State :=
  { s with cnt := s.cnt.setIfInBounds b.toNat ((s.cnt[b.toNat]?).getD 0 + 1) }

/-- `FS.COUNT` (R111). -/
def execFsCount (s : State) : Result :=
  if s.inPos = s.inLen then .next (s.setPhase Phase.fsSent)
  else
    (s.memRead s.inPos.toNat 1).andThen fun bs s =>
      let b := bs.headD 0
      if Config.symMax < b.toNat then .next (s.raise .symbolOutOfRange s.inPos)
      else .next { s.countSym b with inPos := s.inPos + 1, phase := Phase.fsCount }

/-- `FS.SENT` (R112). -/
def execFsSent (s : State) : Result :=
  .next ((s.countSym Config.sentinel).setPhase Phase.fsCollect)

/-- The leaves of the counters that are not zero, from symbol `sym` on (R113). -/
def leavesFrom (cnt : Vector Word 128) : Nat → Nat → List (Byte × Word)
  | 0, _ => []
  | k + 1, sym =>
    match cnt[sym]? with
    | some c =>
      if c = 0 then leavesFrom cnt k (sym + 1)
      else (BitVec.ofNat 8 sym, c) :: leavesFrom cnt k (sym + 1)
    | none => []

/-- The leaf list of the scan, in ascending symbol order (R113, R114). -/
def scanLeaves (cnt : Vector Word 128) : List (Byte × Word) := leavesFrom cnt Config.symCount 0

/-- `FS.COLLECT` (R113). -/
def execFsCollect (s : State) : Result :=
  .next
    (let leaves := scanLeaves s.cnt
     let t := { s with node := placeLeaves leaves 0 s.node }
     if leaves.length = 0 then t.raise .emptyAlphabet 0
     else if Config.nsymMax < leaves.length then
       t.raise .alphabetTooLarge (BitVec.ofNat 64 leaves.length)
     else { t with n := BitVec.ofNat 8 leaves.length, phase := Phase.tbSort })

end Sys2Proof.Machine
end

