-- ==== Sys2Proof/Machine/Hc.lean ====
section
/-! DEFINITION. The HeaderCodec (spec/43_header_codec.md). -/

namespace Sys2Proof.Machine

/-- `HC.WIDTH` (R146). -/
def execHcWidth (s : State) : Result :=
  .next { s with f := widthFor (s.node[0]).freq, phase := Phase.hcPuthdr }

/-- `HC.PUTHDR` (R147). -/
def execHcPuthdr (s : State) : Result :=
  (s.memWrite [s.n]).andThen fun _ s =>
    (s.memWrite [s.f.setWidth 8]).andThen fun _ s =>
      .next { s with hcI := 0, phase := Phase.hcPutpair }

/-- `HC.PUTPAIR` (R148). -/
def execHcPutpair (s : State) : Result :=
  if s.hcI.toNat = s.n.toNat then .next (s.setPhase Phase.bseInit)
  else
    match s.nodeAt s.hcI with
    | none => .fault .nodeIndex
    | some e =>
      (s.memWrite [e.sym]).andThen fun _ s =>
        (s.memWrite (freqBytes s.cfg e.freq s.f)).andThen fun _ s =>
          .next { s with hcI := s.hcI + 1, phase := Phase.hcPutpair }

/-- `HC.GETHDR` (R150): the tests in the order written (R222). -/
def execHcGethdr (s : State) : Result :=
  if s.inLen.toNat < 2 then .next (s.raise .malformedHeader 0)
  else
    (s.memRead 0 1).andThen fun ns s =>
      (s.memRead 1 1).andThen fun fs s =>
        let n := ns.headD 0
        let f := fs.headD 0
        let t := { s with inPos := 2 }
        match headerFault n f s.inLen with
        | some info => .next (t.raise .malformedHeader info)
        | none => .next { t with n := n, f := f.setWidth 4, hcI := 0, phase := Phase.hcGetpair }

/-- The leaf of one pair stored, the cursors moved past it (R151). -/
def State.storePair (s : State) (sym : Byte) (freq : Word) (f : FieldWidth) : State :=
  { s.setNode s.hcI fun e => e.asLeaf sym freq with
    inPos := s.inPos + 1 + f.setWidth 64
    hcI := s.hcI + 1
    phase := Phase.hcGetpair }

/-- `HC.GETPAIR` (R151). -/
def execHcGetpair (s : State) : Result :=
  if s.hcI.toNat = s.n.toNat then .next (s.setPhase Phase.tbSort)
  else
    (s.memRead s.inPos.toNat 1).andThen fun ss s =>
      (s.memRead (s.inPos.toNat + 1) s.f.toNat).andThen fun bs s =>
        match s.nodeAt s.hcI with
        | none => .fault .nodeIndex
        | some _ => .next (s.storePair (ss.headD 0) (freqOfBytes s.cfg bs) s.f)

end Sys2Proof.Machine
end

