-- ==== Sys2Proof/Machine/Records.lean ====
section
/-! DEFINITION. The container records as operations (spec/30_encoding.md R84 to R90, R94): what the rule that
consumes a record does with it once its bytes, or its bits, are there (assumption log 7). The cursor moves
past the record's bytes. In a state where its reader would not come to the record the spec gives it no effect:
it is consumed all the same (DESIGN CHOICE, assumption log 7, which names these states). -/

namespace Sys2Proof.Machine

/-- `HDR_COUNT` (R84), consumed by `HC.GETHDR` (R150): 0 is illegal. `N` is set at once, before the width is
tested, and with `IN_LEN < 2` too, where the reader has raised `MalformedHeader(0)` (DESIGN CHOICE, assumption
log 7). -/
def execHdrCount (n : Byte) (s : State) : Result :=
  let t := { s with inPos := s.inPos + 1 }
  if n = 0 then .next (t.raise .malformedHeader 1) else .next { t with n := n }

/-- `HDR_WIDTH` (R85), consumed by `HC.GETHDR` (R150): the width must be legal and the pairs must be
there. With `N = 0` its reader has raised `MalformedHeader(1)`, and with `IN_LEN < 2` `MalformedHeader(0)`,
before the width is looked at: the width is tested and consumed all the same (DESIGN CHOICE, assumption
log 7). -/
def execHdrWidth (f : Byte) (s : State) : Result :=
  let t := { s with inPos := s.inPos + 1 }
  if f.toNat ∉ Config.fieldWidths then .next (t.raise .malformedHeader 2)
  else if s.inLen.toNat < headerLen s.n.toNat f.toNat then .next (t.raise .malformedHeader 3)
  else .next { t with f := f.setWidth 4, hcI := 0, phase := Phase.hcGetpair }

/-- `PAIR` (R86, R87), consumed by `HC.GETPAIR` (R151). A pair with `HC_I >= N`, or whose width is not `F`, is
one the reader never consumes: it is stored and the cursors move all the same (DESIGN CHOICE, assumption
log 7). -/
def execPair (sym : Byte) (f : FieldWidth) (freq : Word) (s : State) : Result :=
  match s.nodeAt s.hcI with
  | none => .fault .nodeIndex
  | some _ => .next (s.storePair sym freq f)

/-- `WORD` (R88), consumed by `BSD.FETCH` (R177), with bits left in `DWORD` or `PREM < 8` too, where the reader
takes no word (DESIGN CHOICE, assumption log 7). With `PREM < 8` the rules state no new `PREM`: it takes a
free value (DESIGN CHOICE, assumption log 20). -/
def execWord (w : Word) (s : State) : Result := .next (s.loadWord w.toNat 8)

/-- `TAIL` of `k` bytes (R88), consumed by `BSD.FETCH` (R177). The spec has a tail only as the last record
(R81): one with `PREM` other than `k`, or with bits left in `DWORD`, is consumed all the same (DESIGN CHOICE,
assumption log 7). With `PREM < k` the
rules state no new `PREM`: it takes a free value (DESIGN CHOICE, assumption log 20). -/
def execTail (k : BitVec 4) (t : Word) (s : State) : Result := .next (s.loadWord t.toNat k.toNat)

/-- The walk over bits of the stream (R90, R178); it ends where the sentinel leaf is reached. -/
def walkBits : List Bool → State → Access Unit
  | [], s => .ok () s
  | b :: bs, s => (walkBit b s).bind fun stop s => if stop then .ok () s else walkBits bs s

/-- `CODE` (R89, R90), consumed bit by bit by `BSD.BIT` (R178): bit `len-1` first. Where it does not end at
the sentinel `PHASE` stays as it was: the reader writes it by `NBITS`, of which the record uses nothing up
(DESIGN CHOICE, assumption log 7). -/
def execCode (c : Word) (len : Len) (s : State) : Result :=
  (walkBits (codeBits len.toNat c.toNat) s).finish

end Sys2Proof.Machine
end

