-- ==== Sys2Proof/Machine/Tb.lean ====
section
/-! DEFINITION. The TreeBuilder: sort and sorted-frequency reduction (spec/41_tree_builder.md). -/

namespace Sys2Proof.Machine

/-- The leaves `NODE[0 .. N-1]` in index order. -/
def State.leaves (s : State) : List NodeEntry := s.node.toList.take s.n.toNat

/-- `TB.SORT` (R121): entries move whole. -/
def execTbSort (s : State) : Result :=
  .next { s with node := placeEntries (sortEntries s.leaves) 0 s.node, phase := Phase.tbInit }

/-- `TB.INIT` (R123). -/
def execTbInit (s : State) : Result :=
  .next
    { s with
      lrem := s.n.setWidth 9
      qh := s.n.setWidth 9
      nt := s.n.setWidth 9
      phase := if 2 ≤ s.n.toNat then Phase.tbMerge else Phase.tbRoot }

/-- The lowest-frequency untaken leaf is taken (R124). -/
def State.takeLeaf (s : State) : State := { s with sel := s.lrem - 1, lrem := s.lrem - 1 }

/-- The oldest pending subtree is taken (R124). -/
def State.takePending (s : State) : State := { s with sel := s.qh, qh := s.qh + 1 }

/-- `TB.TAKE` (R124): the lighter of the last untaken leaf and the oldest pending subtree, the leaf on a
tie. -/
def takeItem (s : State) : Access Unit :=
  if s.lrem = 0 then
    if s.qh < s.nt then .ok () s.takePending else .halt (.fault .nothingToTake)
  else if s.qh < s.nt then
    match s.nodeAt (s.lrem - 1), s.nodeAt s.qh with
    | some x, some y => if leafFirst x.freq y.freq then .ok () s.takeLeaf else .ok () s.takePending
    | _, _ => .halt (.fault .nodeIndex)
  else .ok () s.takeLeaf

/-- `TB.TAKE` on its own (R124; DESIGN CHOICE, assumption log 13). -/
def execTbTake (s : State) : Result := (takeItem s).finish

/-- The item count `LREM + (NT - QH)` (R125). -/
def State.items (s : State) : Nat := s.lrem.toNat + s.nt.toNat - s.qh.toNat

/-- The entry of the internal node that joins `a` and `b` (R125, D11), `a` taken first. What
the rule does not name keeps its contents (DEDUCED, assumption log 10). -/
def NodeEntry.asInternal (e : NodeEntry) (freq : Word) (a b : Idx) : NodeEntry :=
  { e with
    kind := .internal
    freq := freq
    left := (children a b).1
    right := (children a b).2
    parent := Config.none }

/-- The two items `a` and `b`, of weights `x` and `y`, joined at `NODE[NT]` (R125). -/
def State.join (s : State) (a b : Idx) (x y : Word) : State :=
  (((s.setNode s.nt fun e => e.asInternal (x + y) a b).setNode a
      fun e => { e with parent := s.nt }).setNode b fun e => { e with parent := s.nt })

/-- The end of `TB.MERGE`: the tail moves and the item count decides the phase (R125). -/
def State.afterJoin (s : State) : State :=
  let t := { s with nt := s.nt + 1 }
  t.setPhase (if 2 ≤ t.items then Phase.tbMerge else Phase.tbRoot)

/-- `TB.MERGE` (R125). -/
def execTbMerge (s : State) : Result :=
  if s.items < 2 then .fault .nothingToTake
  else
    (takeItem s).andThen fun _ s1 =>
      (takeItem s1).andThen fun _ s2 =>
        match s2.nodeAt s1.sel, s2.nodeAt s2.sel, s2.nodeAt s2.nt with
        | some x, some y, some _ => .next (s2.join s1.sel s2.sel x.freq y.freq).afterJoin
        | _, _, _ => .fault .nodeIndex

/-- `TB.ROOT` (R127). -/
def execTbRoot (s : State) : Result :=
  .next
    { s with
      root := if s.n = 1 then 0 else s.nt - 1
      phase := if s.op = .compress then Phase.caClear else Phase.bsdInit }

end Sys2Proof.Machine
end

