-- ==== Sys2Proof/Machine/Dispatch.lean ====
section
/-! DEFINITION. One arm per operation, each a call of its meaning. -/

namespace Sys2Proof.Machine

def exec (i : Instr) (s : State) : Host.Outcome State Fault Refusal :=
  match i with
  -- the command byte
  | .nop => Sys2Proof.Machine.execNop s
  | .compress => Sys2Proof.Machine.execCompress s
  | .decompress => Sys2Proof.Machine.execDecompress s
  | .illegal03 => Sys2Proof.Machine.execIllegal03 s
  | .illegal04 x => Sys2Proof.Machine.execIllegal04 x s
  | .illegal08 x => Sys2Proof.Machine.execIllegal08 x s
  | .illegal10 x => Sys2Proof.Machine.execIllegal10 x s
  | .illegal20 x => Sys2Proof.Machine.execIllegal20 x s
  | .illegal40 x => Sys2Proof.Machine.execIllegal40 x s
  | .illegal80 x => Sys2Proof.Machine.execIllegal80 x s
  -- the micro-operations
  | .fsClear => Sys2Proof.Machine.execFsClear s
  | .fsCount => Sys2Proof.Machine.execFsCount s
  | .fsSent => Sys2Proof.Machine.execFsSent s
  | .fsCollect => Sys2Proof.Machine.execFsCollect s
  | .tbSort => Sys2Proof.Machine.execTbSort s
  | .tbInit => Sys2Proof.Machine.execTbInit s
  | .tbMerge => Sys2Proof.Machine.execTbMerge s
  | .tbRoot => Sys2Proof.Machine.execTbRoot s
  | .caClear => Sys2Proof.Machine.execCaClear s
  | .caWalk => Sys2Proof.Machine.execCaWalk s
  | .hcWidth => Sys2Proof.Machine.execHcWidth s
  | .hcPuthdr => Sys2Proof.Machine.execHcPuthdr s
  | .hcPutpair => Sys2Proof.Machine.execHcPutpair s
  | .hcGethdr => Sys2Proof.Machine.execHcGethdr s
  | .hcGetpair => Sys2Proof.Machine.execHcGetpair s
  | .bseInit => Sys2Proof.Machine.execBseInit s
  | .bseSym => Sys2Proof.Machine.execBseSym s
  | .bseEos => Sys2Proof.Machine.execBseEos s
  | .bseFinal => Sys2Proof.Machine.execBseFinal s
  | .bsdInit => Sys2Proof.Machine.execBsdInit s
  | .bsdFetch => Sys2Proof.Machine.execBsdFetch s
  | .bsdBit => Sys2Proof.Machine.execBsdBit s
  | .cmdClose => Sys2Proof.Machine.execCmdClose s
  | .pIdle => Sys2Proof.Machine.execPIdle s
  -- the sub-operations and the reset event
  | .tbTake => Sys2Proof.Machine.execTbTake s
  | .bsePut v l => Sys2Proof.Machine.execBsePut v l s
  | .bsdLeaf => Sys2Proof.Machine.execBsdLeaf s
  | .reset => Sys2Proof.Machine.execReset s
  -- the container records
  | .hdrCount n => Sys2Proof.Machine.execHdrCount n s
  | .hdrWidth f => Sys2Proof.Machine.execHdrWidth f s
  | .pair sym f freq => Sys2Proof.Machine.execPair sym f freq s
  | .word w => Sys2Proof.Machine.execWord w s
  | .tail k t => Sys2Proof.Machine.execTail k t s
  | .code c len => Sys2Proof.Machine.execCode c len s

end Sys2Proof.Machine
end

