-- ==== Sys2Proof/Machine/Fetch.lean ====
section
/-! DEFINITION. What the machine runs next (spec/46_commands.md R199): an act of the host that is due, else
the operation that `PHASE` selects, else nothing. -/

namespace Sys2Proof.Machine

/-- The operation to run, with the state it runs in. -/
inductive Fetched
  | run (i : Instr) (s : State)
  | stop (r : Fault)

/-- Whether the host acts now. -/
def HostEvent.due (e : HostEvent) (s : State) : Bool :=
  match e.wait with
  | .steps n => decide (n = 0)
  | .notBusy => decide (s.status ≠ .busy)

/-- One step nearer. -/
def HostEvent.tick (e : HostEvent) : HostEvent :=
  match e.wait with
  | .steps n => { e with wait := .steps (n - 1) }
  | .notBusy => e

/-- The host's plan after a step in which it does not act. -/
def tickHost : List HostEvent → List HostEvent
  | [] => []
  | e :: rest => e.tick :: rest

/-- The sequencer's own step (R199): with `STATUS = BUSY` the operation of `PHASE`, else none. -/
def sequencer (s : State) : Fetched :=
  if s.status = .busy then
    match decodePhase s.phase with
    | some i => .run i s
    | none => .stop .unusedPhase
  else .run .pIdle s

/-- The host's act (R191, R235): the byte it writes decoded, with the input it hands over held out. -/
def deliver (act : HostAct) (s : State) : Fetched :=
  match act with
  | .cmd c input len => .run (decodeCmd c) { s with offer := { input := input, len := len } }
  | .reset => .run .reset s

/-- What runs next (the form of the host is the model's: DESIGN CHOICE, assumption log 1). -/
def fetch (s : State) : Fetched :=
  match s.host with
  | [] => sequencer s
  | e :: rest =>
    if e.due s then deliver e.act { s with host := rest }
    else sequencer { s with host := tickHost s.host }

/-- A bit pattern put where the machine fetches its next operation: a phase code in `PHASE` with a command
running and nothing planned by the host, a command byte as the host's next act with an empty input
(assumption log 8). -/
def State.place (s : State) : Raw → State
  | .phase p =>
    if p = Phase.idle then { s with host := [], phase := p }
    else
      { s with
        host := []
        status := .busy
        flags := { s.flags with inOpen := true, outOpen := true }
        phase := p }
  | .cmd c => { s with host := { wait := .steps 0, act := .cmd c [] 0 } :: s.host }
  | _ => s

end Sys2Proof.Machine
end

