-- ==== Sys2Proof/Machine/Step.lean ====
section
/-! DEFINITION. One step of HUFCORE (spec/46_commands.md R199). -/

namespace Sys2Proof.Machine

/-- One step: what `fetch` finds is run by `exec`. A step with nothing to run leaves the core as it is. -/
def step (s : State) : Host.Outcome State Fault Refusal :=
  match fetch s with
  | .run i t => exec i t
  | .stop r => .fault r

/-- The state with the word of the opcode table placed where the next step fetches it. -/
def State.withFetchWord (s : State) (nbits w : Nat) : State :=
  match tableRaw nbits w with
  | some r => s.place r
  | none => s

end Sys2Proof.Machine
end

