-- ==== Sys2Proof/Safety.lean ====
section
/-! DEFINITION. What a good state of HUFCORE is: the invariants the rules state about the control registers
(R22 to R29), the streams (R29, R37, R60), the tree (R35, R126) and the cursors, from which no step stops
(spec/60_exceptions.md R225) and every command ends (spec/70_reset_and_hazards.md R250). -/

namespace Sys2Proof.Machine

/-! ## Control -/

/-- The phases of a command (R194, R195). -/
def Op.phases : Op → List PhaseCode
  | .none => []
  | .compress =>
    [Phase.fsClear, Phase.fsCount, Phase.fsSent, Phase.fsCollect, Phase.tbSort, Phase.tbInit,
      Phase.tbMerge, Phase.tbRoot, Phase.caClear, Phase.caWalk, Phase.hcWidth, Phase.hcPuthdr,
      Phase.hcPutpair, Phase.bseInit, Phase.bseSym, Phase.bseEos, Phase.bseFinal, Phase.close]
  | .decompress =>
    [Phase.hcGethdr, Phase.hcGetpair, Phase.tbSort, Phase.tbInit, Phase.tbMerge, Phase.tbRoot,
      Phase.bsdInit, Phase.bsdFetch, Phase.bsdBit, Phase.close]

/-- The control registers agree with each other (R22, R23, R25, R26, R27, R28). -/
structure ControlOk (s : State) : Prop where
  /-- A running command is in a phase of its own sequence and holds both streams. -/
  running : s.status = .busy →
    s.phase ∈ s.op.phases ∧ s.flags.inOpen = true ∧ s.flags.outOpen = true
  /-- When `STATUS != BUSY`, `PHASE = P_IDLE` and both streams are closed. -/
  resting : s.status ≠ .busy →
    s.phase = Phase.idle ∧ s.flags.inOpen = false ∧ s.flags.outOpen = false
  /-- `CAUSE` and `INFO` are 0 unless a command has failed. -/
  noCause : s.status ≠ .failed → s.cause = .none ∧ s.info = 0
  /-- A command that failed has a cause. -/
  hasCause : s.status = .failed → s.cause ≠ .none
  /-- `IDLE` means that no command has run since reset. -/
  unused : s.status = .idle → s.op = .none
  /-- `0 <= IN_POS <= IN_LEN`. -/
  cursor : s.inPos.toNat ≤ s.inLen.toNat

/-! ## Streams -/

/-- The host plans to hand over only spaces in canonical form. -/
def HostAct.wf : HostAct → Bool
  | .cmd _ input _ => input.wf
  | .reset => true

/-- Every space is in canonical form, `OUT` has no hole, and `OUT_LEN` counts its bytes modulo `2^64`
from the start of a command on (R29, R60, R204). -/
structure StreamsOk (s : State) : Prop where
  inp : s.inp.wf = true
  out : s.out.wf = true
  dense : s.out.endOff = s.out.length
  counted : s.op ≠ .none → s.outLen = BitVec.ofNat 64 s.out.length
  offered : s.offer.input.wf = true
  planned : ∀ e ∈ s.host, e.act.wf = true

/-! ## Runs that never stop -/

/-- The space holds a byte at each of the offsets `0 .. len-1` (duty H9 of R243). -/
def Memory.covers (m : Memory) (len : Word) : Prop := ∀ a < len.toNat, (m.byteAt a).isSome

/-- The host hands over an input as long as it says. -/
def HostAct.complete : HostAct → Prop
  | .cmd _ input len => input.covers len
  | .reset => True

/-- Entry `i` is a leaf whose parent is missing or below `top`, with a symbol of at most 127 in a
COMPRESS (R34, R35). -/
def LeafOk (s : State) (top i : Nat) : Prop :=
  ∃ e, s.node[i]? = some e ∧ e.kind = .leaf ∧
    (e.parent = Config.none ∨ e.parent.toNat < top) ∧ (s.op = .compress → e.sym.toNat ≤ Config.symMax)

/-- Entry `i` is an internal node whose children, and whose parent where it has one, are below `top`
(R35, R126). -/
def InternalOk (s : State) (top i : Nat) : Prop :=
  ∃ e, s.node[i]? = some e ∧ e.kind = .internal ∧ e.left.toNat < top ∧ e.right.toNat < top ∧
    (e.parent = Config.none ∨ e.parent.toNat < top)

/-- Leaves at `0 .. N-1` and internal nodes at `N .. top-1` (R34). -/
structure ForestOk (s : State) (top : Nat) : Prop where
  leaves : ∀ i < s.n.toNat, LeafOk s top i
  internals : ∀ i, s.n.toNat ≤ i → i < top → InternalOk s top i

/-- Entry `i` has no parent. -/
def Loose (s : State) (i : Nat) : Prop := ∃ e, s.node[i]? = some e ∧ e.parent = Config.none

/-- Entry `i` has a parent, a later internal node below `top` of which it is one, and only one, of the two
children (R35 (c)). -/
def Joined (s : State) (top i : Nat) : Prop :=
  ∃ e p, s.node[i]? = some e ∧ i < e.parent.toNat ∧ e.parent.toNat < top ∧
    s.node[e.parent.toNat]? = some p ∧ p.kind = .internal ∧ p.left ≠ p.right ∧
    (p.left.toNat = i ∨ p.right.toNat = i)

/-- The merge in progress: the cursors are in order and each merge made one item of two (R126). -/
structure MergeOk (s : State) : Prop where
  some : 1 ≤ s.n.toNat
  left : s.lrem.toNat ≤ s.n.toNat
  queue : s.n.toNat ≤ s.qh.toNat ∧ s.qh.toNat ≤ s.nt.toNat
  count : s.lrem.toNat + 2 * s.nt.toNat = s.qh.toNat + 2 * s.n.toNat
  forest : ForestOk s s.nt.toNat

/-- What the merge in progress has joined: the items taken have their parent, the others have none, and the
node made last is pending (R124, R125). -/
structure MergeLinked (s : State) : Prop where
  untaken : ∀ i < s.lrem.toNat, Loose s i
  taken : ∀ i, s.lrem.toNat ≤ i → i < s.n.toNat → Joined s s.nt.toNat i
  attached : ∀ i, s.n.toNat ≤ i → i < s.qh.toNat → Joined s s.nt.toNat i
  pending : ∀ i, s.qh.toNat ≤ i → i < s.nt.toNat → Loose s i
  last : s.n.toNat < s.nt.toNat → s.qh.toNat < s.nt.toNat

/-- The finished tree (R35): `2N-1` entries, the root last and without a parent, every other entry a child
of its parent. -/
structure TreeOk (s : State) : Prop where
  some : 1 ≤ s.n.toNat
  forest : ForestOk s (2 * s.n.toNat - 1)
  root : s.root.toNat = 2 * s.n.toNat - 2
  top : Loose s (2 * s.n.toNat - 2)
  joined : ∀ i < 2 * s.n.toNat - 2, Joined s (2 * s.n.toNat - 1) i

/-- A legal frequency field width (R85). -/
def WidthOk (s : State) : Prop := s.f.toNat ∈ Config.fieldWidths

/-- In a DECOMPRESS the header has been read and the cursor stands behind it (R151). -/
def HeaderRead (s : State) : Prop :=
  s.op = .decompress → WidthOk s ∧ headerLen s.n.toNat s.f.toNat ≤ s.inLen.toNat ∧
    s.inPos.toNat = headerLen s.n.toNat s.f.toNat

/-- The payload is where the cursor stands, and the walk stands on an internal node (R178). -/
structure WalkOk (s : State) : Prop where
  tree : TreeOk s
  inside : s.n.toNat ≤ s.cur.toNat ∧ s.cur.toNat < 2 * s.n.toNat - 1
  several : 2 ≤ s.n.toNat
  payload : s.inPos.toNat + s.prem.toNat = s.inLen.toNat
  bits : s.nbits.toNat ≤ 64

/-- The free bits of `ACC` are zero (R166). -/
def FreeBitsZero (s : State) : Prop := s.free.toNat ≤ 64 ∧ s.acc.toNat % 2 ^ s.free.toNat = 0

/-- What holds in a phase when its operation is about to run. -/
structure PhaseOk (s : State) : Prop where
  getpair : s.phase = Phase.hcGetpair →
    1 ≤ s.n.toNat ∧ s.hcI.toNat ≤ s.n.toNat ∧ WidthOk s ∧
      headerLen s.n.toNat s.f.toNat ≤ s.inLen.toNat ∧
      s.inPos.toNat = headerLen s.hcI.toNat s.f.toNat ∧ ∀ i < s.hcI.toNat, LeafOk s 0 i
  sort : s.phase = Phase.tbSort ∨ s.phase = Phase.tbInit →
    1 ≤ s.n.toNat ∧ (∀ i < s.n.toNat, LeafOk s 0 i) ∧ HeaderRead s
  merge : s.phase = Phase.tbMerge → MergeOk s ∧ MergeLinked s ∧ 2 ≤ s.items ∧ HeaderRead s
  rooting : s.phase = Phase.tbRoot → MergeOk s ∧ MergeLinked s ∧ s.items = 1 ∧ HeaderRead s
  coded : s.phase = Phase.caClear ∨ s.phase = Phase.hcWidth → TreeOk s
  walking : s.phase = Phase.caWalk → TreeOk s ∧ s.caI.toNat ≤ s.n.toNat
  header : s.phase = Phase.hcPuthdr → WidthOk s
  putpair : s.phase = Phase.hcPutpair → WidthOk s ∧ s.hcI.toNat ≤ s.n.toNat
  packing : s.phase = Phase.bseSym ∨ s.phase = Phase.bseEos ∨ s.phase = Phase.bseFinal →
    FreeBitsZero s
  decoding : s.phase = Phase.bsdInit → TreeOk s ∧ HeaderRead s
  fetching : s.phase = Phase.bsdFetch → WalkOk s
  bit : s.phase = Phase.bsdBit → WalkOk s ∧ 1 ≤ s.nbits.toNat

/-- A state from which the machine never stops (R225). -/
structure RunOk (s : State) : Prop where
  control : ControlOk s
  codes : ∀ (i : Nat) (e : LutEntry), s.lut[i]? = some e → codeFits e.code e.len = true
  input : s.status = .busy → s.inp.covers s.inLen
  offered : s.offer.input.covers s.offer.len
  planned : ∀ e ∈ s.host, e.act.complete
  phases : s.status = .busy → PhaseOk s

/-! ## How long a command still runs -/

/-- The steps of the decoder over `p` payload bytes: one for each bit, one for each word and the tail, the
fetch that finds the payload used up, and the close (R182, R250). -/
def payloadSteps (p : Nat) : Nat := 8 * p + ceil8 p + 2

/-- The steps a running command still takes where no fault shortens it, by the counts of R194, R195 and R250
from the present phase on, with `n` symbols and, in a DECOMPRESS, frequency fields of `f` bytes. -/
def State.stepsLeft (s : State) (n f : Nat) : Nat :=
  let len := s.inLen.toNat
  let left := len - s.inPos.toNat
  let payload := payloadSteps (len - headerLen n f)
  let tree := if s.op = .compress then 2 * n + len + 11 else payload + 2
  if s.phase = Phase.fsClear then 2 * len + 3 * n + 16
  else if s.phase = Phase.fsCount then left + len + 3 * n + 15
  else if s.phase = Phase.fsSent then len + 3 * n + 14
  else if s.phase = Phase.fsCollect then len + 3 * n + 13
  else if s.phase = Phase.hcGethdr then 2 * n + payload + 5
  else if s.phase = Phase.hcGetpair then (n - s.hcI.toNat) + n + payload + 4
  else if s.phase = Phase.tbSort then n + tree + 1
  else if s.phase = Phase.tbInit then n + tree
  else if s.phase = Phase.tbMerge then s.items - 1 + tree
  else if s.phase = Phase.tbRoot then tree
  else if s.phase = Phase.caClear then 2 * n + len + 10
  else if s.phase = Phase.caWalk then (n - s.caI.toNat) + n + len + 9
  else if s.phase = Phase.hcWidth then n + len + 8
  else if s.phase = Phase.hcPuthdr then n + len + 7
  else if s.phase = Phase.hcPutpair then (n - s.hcI.toNat) + len + 6
  else if s.phase = Phase.bseInit then len + 5
  else if s.phase = Phase.bseSym then left + 4
  else if s.phase = Phase.bseEos then 3
  else if s.phase = Phase.bseFinal then 2
  else if s.phase = Phase.bsdInit then payload + 1
  else if s.phase = Phase.bsdFetch then payloadSteps s.prem.toNat
  else if s.phase = Phase.bsdBit then s.nbits.toNat + payloadSteps s.prem.toNat
  else 1

end Sys2Proof.Machine
end

