-- ==== Sys2Proof/Certificates/Slice0/Obligations.lean ====
section
/-! DEFINITION. What is claimed of HUFCORE, one proposition per claim, with the few notions the claims need.
A claim whose docstring says so rests on an entry of the assumption log. -/

namespace Sys2Proof.Claim

open Sys2Proof.Machine

/-! ## Notions -/

/-- The bits of a word that carry stream bits not yet written: the used bits of `ACC`, first bit first
(R64, R166). -/
def pendingBits (s : State) : List Bool := (codeBits 64 s.acc.toNat).take (64 - s.free.toNat)

/-- The bits of `DWORD` not yet walked, first bit first (R31, R64). -/
def unwalkedBits (s : State) : List Bool := (codeBits 64 s.dword.toNat).take s.nbits.toNat

/-- The node `k` edges above `i` (R34: `parent`); none where the path is shorter. -/
def ancestor (v : Vector NodeEntry 509) : Nat → Idx → Option Idx
  | 0, i => some i
  | k + 1, i =>
    match v[i.toNat]? with
    | some e => if e.parent = Config.none then none else ancestor v k e.parent
    | none => none

/-- The node reached from `i` by following branches, 0 to `left` and 1 to `right` (R89). -/
def descend (v : Vector NodeEntry 509) : Idx → List Bool → Option Idx
  | i, [] => some i
  | i, b :: bs =>
    match v[i.toNat]? with
    | some e => if e.kind = .internal then descend v (if b then e.right else e.left) bs else none
    | none => none

/-- `i` is the root of the path that leads up to it, `len` edges above leaf `l`. -/
def RootAbove (v : Vector NodeEntry 509) (l : Idx) (len : Nat) (r : Idx) : Prop :=
  ancestor v len l = some r ∧ ∃ e, v[r.toNat]? = some e ∧ e.parent = Config.none

/-- Each node on the `len` edges above leaf `l` is one, and only one, of the two children of the internal
node above it (R35 (c)). -/
def PathLinked (v : Vector NodeEntry 509) (l : Idx) (len : Nat) : Prop :=
  ∀ k < len, ∀ (m p : Idx) (q : NodeEntry),
    ancestor v k l = some m → ancestor v (k + 1) l = some p → v[p.toNat]? = some q →
    q.kind = .internal ∧ q.left ≠ q.right ∧ (q.left = m ∨ q.right = m)

/-- The host does not act in the next step. -/
def HostWaits (s : State) : Prop := ∀ e rest, s.host = e :: rest → e.due s = false

/-- A read of `n` bytes at `a` meets the preconditions of `MemRead` (R68). -/
def Readable (s : State) (a n : Nat) : Prop := s.flags.inOpen = true ∧ a + n ≤ s.inLen.toNat

/-- The bytes of both spaces read as before, at every offset. -/
def SameBytes (s t : State) : Prop :=
  ∀ a, t.inp.byteAt a = s.inp.byteAt a ∧ t.out.byteAt a = s.out.byteAt a

/-- Every register but the draws of the oracle is as before. -/
def SameCore (s t : State) : Prop := t = { s with draws := t.draws, drawn := t.drawn }

/-! ## Who writes what -/

/-- The reserved command bytes. -/
def isIllegal : Instr → Bool
  | .illegal03 | .illegal04 _ | .illegal08 _ | .illegal10 _ | .illegal20 _ | .illegal40 _
  | .illegal80 _ => true
  | _ => false

/-- The two commands that start a run. -/
def starts : Instr → Bool
  | .compress | .decompress => true
  | _ => false

def writesRoot : Instr → Bool
  | .tbRoot | .reset => true
  | _ => false

def writesTake : Instr → Bool
  | .tbInit | .tbTake | .tbMerge | .reset => true
  | _ => false

def writesSel : Instr → Bool
  | .tbTake | .tbMerge | .reset => true
  | _ => false

def writesNt : Instr → Bool
  | .tbInit | .tbMerge | .reset => true
  | _ => false

def writesCaI : Instr → Bool
  | .caClear | .caWalk | .reset => true
  | _ => false

def writesHcI : Instr → Bool
  | .hcPuthdr | .hcPutpair | .hcGethdr | .hcGetpair | .hdrWidth _ | .pair _ _ _ | .reset => true
  | _ => false

def writesAcc : Instr → Bool
  | .bseInit | .bsePut _ _ | .bseSym | .bseEos | .reset => true
  | _ => false

def writesDword : Instr → Bool
  | .bsdFetch | .bsdBit | .word _ | .tail _ _ | .reset => true
  | _ => false

def writesNbits : Instr → Bool
  | .bsdInit | .bsdFetch | .bsdBit | .word _ | .tail _ _ | .reset => true
  | _ => false

def writesPrem : Instr → Bool
  | .bsdInit | .bsdFetch | .word _ | .tail _ _ | .reset => true
  | _ => false

def writesCur : Instr → Bool
  | .bsdInit | .bsdBit | .bsdLeaf | .code _ _ | .reset => true
  | _ => false

def writesCnt : Instr → Bool
  | .fsClear | .fsCount | .fsSent | .reset => true
  | _ => false

def writesNode : Instr → Bool
  | .fsCollect | .hcGetpair | .pair _ _ _ | .tbSort | .tbMerge | .caWalk | .reset => true
  | _ => false

def writesLut : Instr → Bool
  | .caClear | .caWalk | .reset => true
  | _ => false

def writesN : Instr → Bool
  | .fsCollect | .hcGethdr | .hdrCount _ | .compress | .decompress | .reset => true
  | _ => false

def writesF : Instr → Bool
  | .hcWidth | .hcGethdr | .hdrWidth _ | .compress | .decompress | .reset => true
  | _ => false

def writesInPos : Instr → Bool
  | .fsClear | .fsCount | .bseInit | .bseSym | .hcGethdr | .hcGetpair | .bsdFetch | .hdrCount _
  | .hdrWidth _ | .pair _ _ _ | .word _ | .tail _ _ | .compress | .decompress | .reset => true
  | _ => false

/-- The operations with a `MemWrite` in their rule (R37, R71). -/
def stores : Instr → Bool
  | .hcPuthdr | .hcPutpair | .bsePut _ _ | .bseSym | .bseEos | .bseFinal | .bsdLeaf | .bsdBit
  | .code _ _ => true
  | _ => false

/-- How many bytes the code of a table entry sends out now: a word, or none (R163). -/
def putWidth (s : State) (e : LutEntry) : Nat := if s.free.toNat < e.len.toNat then 8 else 0

/-- How many bytes the leaf at `i` appends (R176). -/
def leafWidth (s : State) (i : Idx) : Nat :=
  match s.nodeAt i with
  | some e => if e.kind = .leaf ∧ e.sym ≠ 0 then 1 else 0
  | none => 0

/-- The bytes an operation appends in a state, where no access fails (R71); at most so many for a code
record, one a bit. -/
def storeWidth (s : State) : Instr → Nat
  | .hcPuthdr => 2
  | .hcPutpair => if s.hcI.toNat = s.n.toNat then 0 else 1 + s.f.toNat
  | .bsePut _ l => if s.free.toNat < l.toNat then 8 else 0
  | .bseSym =>
    if s.inPos = s.inLen then 0
    else
      match s.inp.byteAt s.inPos.toNat with
      | some b =>
        match s.lutFor b with
        | some e => putWidth s e
        | none => 0
      | none => 0
  | .bseEos => putWidth s s.lut[0]
  | .bseFinal => ceil8 (64 - s.free.toNat)
  | .bsdLeaf =>
    match s.nodeAt s.cur with
    | some e => if e.sym ≠ 0 then 1 else 0
    | none => 0
  | .bsdBit =>
    match s.nodeAt s.cur with
    | some e => leafWidth s (if s.dword.getLsbD 63 then e.right else e.left)
    | none => 0
  | .code _ len => len.toNat
  | _ => 0

/-- The causes an operation may raise: R210, column "raised by"; for a record, of which that table has no row,
what the model lets it raise (DESIGN CHOICE, log 7). -/
def mayRaise : Instr → List Cause
  | .fsCount => [.ioError, .symbolOutOfRange]
  | .fsCollect => [.emptyAlphabet, .alphabetTooLarge]
  | .caWalk => [.codeOverflow]
  | .hcPuthdr | .hcPutpair | .hcGetpair => [.ioError]
  | .hcGethdr => [.ioError, .malformedHeader]
  | .bsePut _ _ | .bseEos | .bseFinal => [.ioError]
  | .bseSym => [.ioError, .lookupMiss]
  | .bsdInit => [.unexpectedEndOfStream]
  | .bsdFetch => [.unexpectedEndOfStream, .ioError]
  | .bsdLeaf | .bsdBit | .code _ _ => [.ioError]
  | .hdrCount _ | .hdrWidth _ => [.malformedHeader]
  | .illegal03 | .illegal04 _ | .illegal08 _ | .illegal10 _ | .illegal20 _ | .illegal40 _
  | .illegal80 _ => [.illegalCommand]
  | _ => []

/-- The phases that may follow a phase without a fault (R200). -/
def successors (p : PhaseCode) : List PhaseCode :=
  if p = Phase.fsClear then [Phase.fsCount]
  else if p = Phase.fsCount then [Phase.fsCount, Phase.fsSent]
  else if p = Phase.fsSent then [Phase.fsCollect]
  else if p = Phase.fsCollect then [Phase.tbSort]
  else if p = Phase.tbSort then [Phase.tbInit]
  else if p = Phase.tbInit then [Phase.tbMerge, Phase.tbRoot]
  else if p = Phase.tbMerge then [Phase.tbMerge, Phase.tbRoot]
  else if p = Phase.tbRoot then [Phase.caClear, Phase.bsdInit]
  else if p = Phase.caClear then [Phase.caWalk]
  else if p = Phase.caWalk then [Phase.caWalk, Phase.hcWidth]
  else if p = Phase.hcWidth then [Phase.hcPuthdr]
  else if p = Phase.hcPuthdr then [Phase.hcPutpair]
  else if p = Phase.hcPutpair then [Phase.hcPutpair, Phase.bseInit]
  else if p = Phase.bseInit then [Phase.bseSym]
  else if p = Phase.bseSym then [Phase.bseSym, Phase.bseFinal, Phase.bseEos]
  else if p = Phase.bseEos then [Phase.bseFinal]
  else if p = Phase.bseFinal then [Phase.close]
  else if p = Phase.hcGethdr then [Phase.hcGetpair]
  else if p = Phase.hcGetpair then [Phase.hcGetpair, Phase.tbSort]
  else if p = Phase.bsdInit then [Phase.bsdFetch, Phase.close]
  else if p = Phase.bsdFetch then [Phase.bsdBit]
  else if p = Phase.bsdBit then [Phase.close, Phase.bsdFetch, Phase.bsdBit]
  else if p = Phase.close then [Phase.idle]
  else []

/-- R22's table. -/
def statusTable : List (Status × Nat) := [(.idle, 0), (.busy, 1), (.done, 2), (.failed, 3)]

/-- The codes of R210's table. -/
def causeTable : List (Cause × Nat) :=
  [(.none, 0), (.ioError, 1), (.emptyAlphabet, 2), (.alphabetTooLarge, 3), (.codeOverflow, 4),
    (.malformedHeader, 5), (.unexpectedEndOfStream, 6), (.symbolOutOfRange, 7), (.lookupMiss, 8),
    (.illegalCommand, 9)]

/-- R83's table, as code and operation. -/
def phaseTable : List (PhaseCode × Instr) :=
  [(0, .pIdle), (1, .fsClear), (2, .fsCount), (3, .fsSent), (4, .fsCollect), (8, .tbSort),
    (9, .tbInit), (10, .tbMerge), (11, .tbRoot), (16, .caClear), (17, .caWalk), (24, .hcWidth),
    (25, .hcPuthdr), (26, .hcPutpair), (27, .hcGethdr), (28, .hcGetpair), (32, .bseInit),
    (33, .bseSym), (34, .bseEos), (35, .bseFinal), (40, .bsdInit), (41, .bsdFetch), (42, .bsdBit),
    (48, .cmdClose)]

end Sys2Proof.Claim

open Sys2Proof Sys2Proof.Machine Sys2Proof.Claim

/-! ## Encodings -/

/-- Every operation with a bit pattern is read back from it, with every operand, under both byte orders
(R80 to R89). -/
def Obligations.EveryEncodingDecodesBack : Prop :=
  ∀ (cfg : Config) (i : Instr) (r : Raw),
    WellFormed i = true → encode cfg i = some r → decode cfg r = .ok i

/-- A bit pattern that decodes has one meaning: it is the encoding of what it decodes to, and that is
well formed (R80 to R92). -/
def Obligations.EveryDecodingEncodesBack : Prop :=
  ∀ (cfg : Config) (i : Instr) (r : Raw),
    decode cfg r = .ok i → WellFormed i = true ∧ encode cfg i = some r

/-- R83: the phase codes and the operation each selects; every other value of the field is unused. -/
def Obligations.PhaseCodesSelectTheirOperations : Prop :=
  (∀ x ∈ phaseTable, decodePhase x.1 = some x.2) ∧
    ∀ p : PhaseCode, p ∉ phaseTable.map Prod.fst →
      ∀ cfg, decode cfg (.phase p) = .error (.unusedPhase p)

/-- R82: the three commands, and every value from 0x03 on reserved: it decodes to an illegal command that
keeps the byte. That the seven illegal rows are operations that keep the byte's free bits is the model's form
(log 14). -/
def Obligations.CommandBytesDecode : Prop :=
  decodeCmd 0x00 = .nop ∧ decodeCmd 0x01 = .compress ∧ decodeCmd 0x02 = .decompress ∧
    ∀ c : Byte, 3 ≤ c.toNat →
      isIllegal (decodeCmd c) = true ∧ cmdByte (decodeCmd c) = some c

/-! ## The step -/

/-- A step runs the decoded operation (R199): while the host waits, the operation `PHASE` selects; when a
`CMD` write is due, the command of its byte, with its input held out; when `RESET` is due, the reset. That a
due act of the host goes before the sequencer's operation, and where its streams are held out, is log 1 and
3. -/
def Obligations.StepRunsTheDecodedOperation : Prop :=
  (∀ (s : State) (i : Instr), HostWaits s → s.status = .busy → decodePhase s.phase = some i →
      step s = exec i { s with host := tickHost s.host }) ∧
    (∀ (s : State) (e : HostEvent) (rest : List HostEvent) (c : Byte) (m : Memory) (len : Word),
      s.host = e :: rest → e.due s = true → e.act = .cmd c m len →
      step s = exec (decodeCmd c) { s with host := rest, offer := { input := m, len := len } }) ∧
    ∀ (s : State) (e : HostEvent) (rest : List HostEvent),
      s.host = e :: rest → e.due s = true → e.act = .reset →
      step s = exec .reset { s with host := rest }

/-- R199, R232: "When `STATUS != BUSY` the sequencer takes no step": with the host waiting, nothing of the
core changes. That the model's own step then answers the same state is the model's choice (log 1). What the
host then reads (R19, R22, R24, R25, R30, R210): the codes of `STATUS` and `CAUSE`, the bits of `FLAGS`, the
other result registers, and the bytes of `OUT` in order. While a command runs it reads `STATUS` only (D36;
log 17). -/
def Obligations.IdleCoreKeepsWhatTheHostReads : Prop :=
  (∀ s : State, HostWaits s → s.status ≠ .busy →
    step s = .next { s with host := tickHost s.host }) ∧
  (∀ (s : State), ∀ x ∈ statusTable, s.status = x.1 →
    s.hostRead .status = some (BitVec.ofNat 64 x.2)) ∧
  (∀ (s : State), s.status = .busy →
    (∀ r, r ≠ .status → s.hostRead r = none) ∧ s.hostOut = none) ∧
  ∀ (s : State), s.status ≠ .busy →
    (∀ x ∈ causeTable, s.cause = x.1 → s.hostRead .cause = some (BitVec.ofNat 64 x.2)) ∧
    s.hostRead .info = some s.info ∧
    (∃ w : Word, s.hostRead .flags = some w ∧ w.toNat < 8 ∧
      w.getLsbD 0 = s.flags.emptyInput ∧ w.getLsbD 1 = s.flags.inOpen ∧
      w.getLsbD 2 = s.flags.outOpen) ∧
    s.hostRead .n = some (s.n.setWidth 64) ∧ s.hostRead .f = some (s.f.setWidth 64) ∧
    s.hostRead .outLen = some s.outLen ∧
    (s.out.wf = true → s.out.endOff = s.out.length →
      ∃ bs, s.hostOut = some bs ∧ ∀ j, bs[j]? = s.out.byteAt j)

/-! ## Commands, close, reset, fault entry -/

/-- R196 and the idle phase of R83: no effect on any register, flag or stream. -/
def Obligations.NopAndIdleChangeNothing : Prop :=
  ∀ s : State, exec .nop s = .next s ∧ exec .pIdle s = .next s

/-- R191: command start, every register it sets, and nothing else. How the empty OUT is held is log 6. -/
def Obligations.CommandStartSetsTheRegisters : Prop :=
  ∀ s : State, s.status ≠ .busy →
    exec .compress s =
      .next { s with
        status := .busy, cause := .none, info := 0
        flags := { emptyInput := decide (s.offer.len = 0), inOpen := true, outOpen := true }
        op := .compress, inLen := s.offer.len, inPos := 0, outLen := 0, n := 0, f := 0
        phase := 1, inp := s.offer.input, out := [] } ∧
    exec .decompress s =
      .next { s with
        status := .busy, cause := .none, info := 0
        flags := { emptyInput := false, inOpen := true, outOpen := true }
        op := .decompress, inLen := s.offer.len, inPos := 0, outLen := 0, n := 0, f := 0
        phase := 27, inp := s.offer.input, out := [] }

/-- R190: "A write while `STATUS = BUSY` has no effect of any kind", whatever the byte. -/
def Obligations.WriteWhileBusyIsIgnored : Prop :=
  ∀ (s : State) (c : Byte), s.status = .busy → exec (decodeCmd c) s = .next s

/-- R197: every reserved command byte, accepted, fails with `IllegalCommand` and the byte in `INFO`. -/
def Obligations.IllegalCommandFails : Prop :=
  ∀ (s : State) (i : Instr) (c : Byte), cmdByte i = some c → 3 ≤ c.toNat → s.status ≠ .busy →
    exec i s =
      .next { s with
        status := .failed, cause := .illegalCommand, info := c.setWidth 64
        flags := { s.flags with inOpen := false, outOpen := false }
        phase := 0, op := .none }

/-- R198: the success end of both commands. -/
def Obligations.CloseEndsTheCommand : Prop :=
  ∀ s : State,
    exec .cmdClose s =
      .next { s with
        flags := { s.flags with inOpen := false, outOpen := false }, status := .done, phase := 0 }

/-- R235 in any state, R236 with a command running, and R39 for the state after reset: the listed registers,
`OUT` unchanged. What is left in the unspecified registers is the model's choice (log 5) and is not stated.
That the byte orders stand in the state and outlast RESET is log 4; how OUT is held is log 6. -/
def Obligations.ResetSetsTheListedRegisters : Prop :=
  (State.reset.status = .idle ∧ State.reset.cause = .none ∧ State.reset.info = 0 ∧
    State.reset.flags.bits = 0 ∧ State.reset.op = .none ∧ State.reset.phase = 0 ∧
    State.reset.inLen = 0 ∧ State.reset.inPos = 0 ∧ State.reset.outLen = 0 ∧
    State.reset.n = 0 ∧ State.reset.f = 0) ∧
  ∀ s : State, ∃ t : State, exec .reset s = .next t ∧
    t.status = .idle ∧ t.cause = .none ∧ t.info = 0 ∧ t.flags.bits = 0 ∧ t.op = .none ∧
    t.phase = 0 ∧ t.inLen = 0 ∧ t.inPos = 0 ∧ t.outLen = 0 ∧ t.n = 0 ∧ t.f = 0 ∧
    (∀ a, t.out.byteAt a = s.out.byteAt a) ∧ t.cfg = s.cfg

/-- R220: fault entry writes `CAUSE`, `INFO`, closes the streams, stops the sequencer, and keeps the rest. -/
def Obligations.FaultEntryKeepsTheRest : Prop :=
  ∀ (s : State) (c : Cause) (info : Word),
    s.raise c info =
      { s with
        cause := c, info := info, status := .failed, phase := 0
        flags := { s.flags with inOpen := false, outOpen := false } }

/-! ## FrequencyScanner -/

/-- R110, R112: every counter starts from zero; the sentinel is counted once more, unconditionally. -/
def Obligations.CountersStartAtZeroAndTheSentinelIsAdded : Prop :=
  ∀ s : State,
    (∃ t : State, exec .fsClear s = .next t ∧ (∀ i (h : i < 128), t.cnt[i] = 0) ∧
      t = { s with cnt := t.cnt, inPos := 0, phase := 2 }) ∧
    exec .fsSent s = .next { s with cnt := s.cnt.set 0 (s.cnt[0] + 1), phase := 4 }

/-- R111, every path: end of input, a counted byte, a byte above 127, a failed read. The draws are log 2;
that a failing access raises IoError also where the byte is missing is log 12. -/
def Obligations.ScanCountsEachByte : Prop :=
  ∀ s : State,
    (s.inPos = s.inLen → exec .fsCount s = .next { s with phase := 3 }) ∧
    (s.inPos ≠ s.inLen → Readable s s.inPos.toNat 1 →
      (∀ b, s.nextDraw = .passes → s.inp.byteAt s.inPos.toNat = some b →
        (∀ h : b.toNat < 128,
          exec .fsCount s =
            .next { s.afterDraw with
              cnt := s.cnt.set b.toNat (s.cnt[b.toNat] + 1), inPos := s.inPos + 1, phase := 2 }) ∧
        (127 < b.toNat →
          exec .fsCount s = .next (s.afterDraw.raise .symbolOutOfRange s.inPos))) ∧
      (∀ p, s.nextDraw = .fails p → exec .fsCount s = .next (s.afterDraw.raise .ioError 0)))

/-- R113: the leaves are the symbols with a count that is not zero, ascending; with none of them the
command fails; the entries behind them, and the fields the rule does not write, stay. -/
def Obligations.CollectListsTheCountedSymbols : Prop :=
  ∀ s : State, ∃ t : State, exec .fsCollect s = .next t ∧
    let syms := (List.range 128).filter fun i => s.cnt[i]? ≠ some 0
    (∀ (j : Nat) (sym : Nat), syms[j]? = some sym →
      ∃ e e', s.node[j]? = some e ∧ t.node[j]? = some e' ∧
        some e'.freq = s.cnt[sym]? ∧
        e' = { e with kind := .leaf, sym := BitVec.ofNat 8 sym, freq := e'.freq, parent := 0x1FF }) ∧
    (∀ j, syms.length ≤ j → t.node[j]? = s.node[j]?) ∧
    (syms = [] → t = s.raise .emptyAlphabet 0) ∧
    (syms ≠ [] →
      t = { s with node := t.node, n := BitVec.ofNat 8 syms.length, phase := 8 })

/-! ## TreeBuilder -/

/-- R121, R122: the leaves become the stable sort by descending `freq` (unsigned), then ascending `sym`
(signed); nothing else moves. That an entry's other fields move with these is log 10. -/
def Obligations.SortIsTheStableDescendingSort : Prop :=
  ∀ s : State, ∃ t : State, exec .tbSort s = .next t ∧ t = { s with node := t.node, phase := 9 } ∧
    t.leaves.Perm s.leaves ∧
    t.leaves.Pairwise (fun x y =>
      ¬ (x.freq < y.freq ∨ (x.freq = y.freq ∧ y.sym.toInt < x.sym.toInt))) ∧
    (∀ (freq : Word) (sym : Byte),
      t.leaves.filter (fun e => e.freq == freq && e.sym == sym) =
        s.leaves.filter (fun e => e.freq == freq && e.sym == sym)) ∧
    ∀ i, s.n.toNat ≤ i → t.node[i]? = s.node[i]?

/-- R123. -/
def Obligations.MergeStartsWithAllLeaves : Prop :=
  ∀ s : State, ∃ t : State, exec .tbInit s = .next t ∧
    t.lrem.toNat = s.n.toNat ∧ t.qh.toNat = s.n.toNat ∧ t.nt.toNat = s.n.toNat ∧
    (2 ≤ s.n.toNat → t.phase = 10) ∧ (s.n.toNat < 2 → t.phase = 11) ∧
    t = { s with lrem := t.lrem, qh := t.qh, nt := t.nt, phase := t.phase }

/-- R124: the lighter of the last untaken leaf and the oldest pending subtree, the leaf on a tie, from every
state that meets the rule's precondition; as an operation of its own (log 13). -/
def Obligations.TakeIsTheLighterItem : Prop :=
  ∀ s : State,
    (s.lrem ≠ 0 → ¬ s.qh < s.nt →
      exec .tbTake s = .next { s with sel := s.lrem - 1, lrem := s.lrem - 1 }) ∧
    (s.lrem = 0 → s.qh < s.nt → exec .tbTake s = .next { s with sel := s.qh, qh := s.qh + 1 }) ∧
    (∀ x y, s.lrem ≠ 0 → s.qh < s.nt → s.nodeAt (s.lrem - 1) = some x → s.nodeAt s.qh = some y →
      (x.freq.toNat ≤ y.freq.toNat →
        exec .tbTake s = .next { s with sel := s.lrem - 1, lrem := s.lrem - 1 }) ∧
      (y.freq.toNat < x.freq.toNat →
        exec .tbTake s = .next { s with sel := s.qh, qh := s.qh + 1 }))

/-- R125 from every merge in progress with two items or more: the two items `TB.TAKE` yields become the left
and the right child of a new node of their summed weight, and one item fewer remains. Fields the rule does
not write stay (log 10); TB.TAKE as an operation of its own is log 13. -/
def Obligations.MergeJoinsTheTwoTakenItems : Prop :=
  ∀ s : State, MergeOk s → 2 ≤ s.items →
    ∃ (s1 s2 : State) (x y e : NodeEntry) (t : State),
      exec .tbTake s = .next s1 ∧ exec .tbTake s1 = .next s2 ∧ s1.sel ≠ s2.sel ∧
      s.nodeAt s1.sel = some x ∧ s.nodeAt s2.sel = some y ∧ s.nodeAt s.nt = some e ∧
      exec .tbMerge s = .next t ∧
      t.nodeAt s.nt = some { e with
        kind := .internal, freq := x.freq + y.freq, left := s1.sel, right := s2.sel,
        parent := 0x1FF } ∧
      t.nodeAt s1.sel = some { x with parent := s.nt } ∧
      t.nodeAt s2.sel = some { y with parent := s.nt } ∧
      (∀ i, i ≠ s.nt → i ≠ s1.sel → i ≠ s2.sel → t.nodeAt i = s.nodeAt i) ∧
      t.items + 1 = s.items ∧
      t = { s2 with node := t.node, nt := s.nt + 1, phase := if 2 ≤ t.items then 10 else 11 }

/-- R127. R127 and R203 give no NT - 1 for NT = 0: that ROOT is then 511 where N is not 1 is the model's
choice (log 11, DESIGN CHOICE). -/
def Obligations.RootIsTheLastNode : Prop :=
  ∀ s : State,
    exec .tbRoot s =
      .next { s with
        root := if s.n.toNat = 1 then 0 else s.nt - 1
        phase := if s.op = .compress then 16 else 40 }

/-! ## CodeAssigner -/

/-- R136. That an entry's code and len stay where only valid is written is log 10 (DEDUCED). -/
def Obligations.CodeTableIsCleared : Prop :=
  ∀ s : State, ∃ t : State, exec .caClear s = .next t ∧
    (∀ i (h : i < 128), t.lut[i] = { s.lut[i] with valid := false }) ∧
    t = { s with lut := t.lut, caI := 0, phase := 17 }

/-- R137: at the end of the leaves the header follows; for a leaf `len` edges below its root, `len` at most
64, bit `k` of its code is the branch into the node found `k`-th on the way up, and the code goes to the leaf
and to the table. The fields of an entry that the rule does not write stay (log 10). -/
def Obligations.WalkGivesTheBranchesToTheRoot : Prop :=
  (∀ s : State, s.caI.toNat = s.n.toNat → exec .caWalk s = .next { s with phase := 24 }) ∧
  ∀ (s : State) (e : NodeEntry) (len : Nat) (r : Idx),
    s.caI.toNat ≠ s.n.toNat → s.nodeAt s.caI = some e → RootAbove s.node s.caI len r → len ≤ 64 →
    ∀ h : e.sym.toNat < 128,
    ∃ (c : Word) (t : State), exec .caWalk s = .next t ∧
      (∀ k, c.getLsbD k = true ↔
        k < len ∧ ∃ m p q, ancestor s.node k s.caI = some m ∧ ancestor s.node (k + 1) s.caI = some p ∧
          s.nodeAt p = some q ∧ q.right = m) ∧
      t.nodeAt s.caI = some { e with code := c, len := BitVec.ofNat 7 len } ∧
      (∀ i, i ≠ s.caI → t.nodeAt i = s.nodeAt i) ∧
      t.lut = s.lut.set e.sym.toNat { valid := true, code := c, len := BitVec.ofNat 7 len } ∧
      t = { s with node := t.node, lut := t.lut, caI := s.caI + 1, phase := 17 }

/-- R140: a leaf deeper than 64 edges is refused with its symbol in `INFO`, and nothing is written. -/
def Obligations.LeafTooDeepOverflows : Prop :=
  ∀ (s : State) (e : NodeEntry) (j : Idx),
    s.caI.toNat ≠ s.n.toNat → s.nodeAt s.caI = some e → ancestor s.node 65 s.caI = some j →
    (s.nodeAt j).isSome →
    exec .caWalk s = .next (s.raise .codeOverflow (e.sym.setWidth 64))

/-- R138: where each node on the path is a child of the next, the bits of the code a walk assigns, most
significant first, lead from the root to the leaf; and in the finished tree (`TreeOk`, which `RunOk` keeps)
that is so of every leaf, with `ROOT` at the end of its path. -/
def Obligations.CodeIsTheRootToLeafPath : Prop :=
  (∀ (s t : State) (e : NodeEntry) (len : Nat) (r : Idx),
    PathLinked s.node s.caI len → s.caI.toNat ≠ s.n.toNat → s.nodeAt s.caI = some e →
    e.sym.toNat < 128 → RootAbove s.node s.caI len r → len ≤ 64 → exec .caWalk s = .next t →
    ∃ c, t.lut[e.sym.toNat]? = some c ∧ c.valid = true ∧ c.len.toNat = len ∧
      c.code.toNat < 2 ^ len ∧
      descend s.node r (codeBits len c.code.toNat) = some s.caI) ∧
  ∀ s : State, TreeOk s → s.caI.toNat < s.n.toNat →
    ∃ len, RootAbove s.node s.caI len s.root ∧ PathLinked s.node s.caI len

/-! ## HeaderCodec -/

/-- R146: the smallest of 1, 2, 4, 8 bytes that holds the first leaf's frequency. -/
def Obligations.WidthIsTheSmallestThatHolds : Prop :=
  ∀ s : State, ∃ t : State, exec .hcWidth s = .next t ∧ t = { s with f := t.f, phase := 25 } ∧
    t.f.toNat ∈ [1, 2, 4, 8] ∧ s.node[0].freq.toNat < 2 ^ (8 * t.f.toNat) ∧
    ∀ k ∈ [1, 2, 4, 8], s.node[0].freq.toNat < 2 ^ (8 * k) → t.f.toNat ≤ k

/-- R147: the bytes `N` and `F`, in two accesses. That a write does not ask for OUT_OPEN is log 18, the draws
log 2. -/
def Obligations.HeaderBytesGoOut : Prop :=
  ∀ s : State,
    (s.nextDraw = .passes → s.afterDraw.nextDraw = .passes →
      exec .hcPuthdr s =
        .next { s.afterDraw.afterDraw with
          out := (s.out.append s.n).append (s.f.setWidth 8), outLen := s.outLen + 1 + 1
          hcI := 0, phase := 26 }) ∧
    (∀ p, s.nextDraw = .fails p → exec .hcPuthdr s = .next (s.afterDraw.raise .ioError 1)) ∧
    (∀ p, s.nextDraw = .passes → s.afterDraw.nextDraw = .fails p →
      exec .hcPuthdr s =
        .next (State.raise { s.afterDraw.afterDraw with
          out := s.out.append s.n, outLen := s.outLen + 1 } .ioError 1))

/-- R148: the symbol byte, then the `F` bytes of the frequency in `FREQ_ORDER`, in two accesses. That a write
does not ask for OUT_OPEN is log 18, the draws log 2. -/
def Obligations.PairGoesOut : Prop :=
  (∀ s : State, s.hcI.toNat = s.n.toNat → exec .hcPutpair s = .next { s with phase := 32 }) ∧
  ∀ (s : State) (e : NodeEntry), s.hcI.toNat ≠ s.n.toNat → s.nodeAt s.hcI = some e →
    s.f.toNat ∈ [1, 2, 4, 8] →
    let bs := ser (e.freq.toNat % 2 ^ (8 * s.f.toNat)) s.f.toNat s.cfg.freqOrder
    (s.nextDraw = .passes → s.afterDraw.nextDraw = .passes →
      exec .hcPutpair s =
        .next { s.afterDraw.afterDraw with
          out := (s.out.append e.sym).appendAll bs
          outLen := s.outLen + 1 + s.f.setWidth 64, hcI := s.hcI + 1, phase := 26 }) ∧
    (∀ p, s.nextDraw = .fails p → exec .hcPutpair s = .next (s.afterDraw.raise .ioError 1)) ∧
    (∀ p, s.nextDraw = .passes → s.afterDraw.nextDraw = .fails p →
      ∃ k < s.f.toNat, k ≤ p ∧
        exec .hcPutpair s =
          .next (State.raise { s.afterDraw.afterDraw with
            out := (s.out.append e.sym).appendAll (bs.take k)
            outLen := s.outLen + 1 + BitVec.ofNat 64 k } .ioError 1))

/-- R150, R222: the tests in the order written; the registers of a header that passes. That a failing access
raises IoError also where the byte is missing is log 12, the draws log 2. -/
def Obligations.HeaderIsCheckedInOrder : Prop :=
  ∀ s : State,
    (s.inLen.toNat < 2 → exec .hcGethdr s = .next (s.raise .malformedHeader 0)) ∧
    (2 ≤ s.inLen.toNat → s.flags.inOpen = true →
      (∀ p, s.nextDraw = .fails p → exec .hcGethdr s = .next (s.afterDraw.raise .ioError 0)) ∧
      ∀ n f : Byte, s.nextDraw = .passes → s.inp.byteAt 0 = some n →
        (∀ p, s.afterDraw.nextDraw = .fails p →
          exec .hcGethdr s = .next (s.afterDraw.afterDraw.raise .ioError 0)) ∧
        (s.afterDraw.nextDraw = .passes → s.inp.byteAt 1 = some f →
          let t := { s.afterDraw.afterDraw with inPos := 2 }
          (n = 0 → exec .hcGethdr s = .next (t.raise .malformedHeader 1)) ∧
          (n ≠ 0 → f.toNat ∉ [1, 2, 4, 8] →
            exec .hcGethdr s = .next (t.raise .malformedHeader 2)) ∧
          (n ≠ 0 → f.toNat ∈ [1, 2, 4, 8] → s.inLen.toNat < 2 + n.toNat * (1 + f.toNat) →
            exec .hcGethdr s = .next (t.raise .malformedHeader 3)) ∧
          (n ≠ 0 → f.toNat ∈ [1, 2, 4, 8] → 2 + n.toNat * (1 + f.toNat) ≤ s.inLen.toNat →
            exec .hcGethdr s =
              .next { t with n := n, f := f.setWidth 4, hcI := 0, phase := 28 })))

/-- R151: one pair read, in two accesses; the end of the pairs; the two read faults. The fields of the entry
that the rule does not write stay (log 10); that a failing access raises IoError also where a byte is missing
is log 12, the draws log 2. -/
def Obligations.PairIsRead : Prop :=
  (∀ s : State, s.hcI.toNat = s.n.toNat → exec .hcGetpair s = .next { s with phase := 8 }) ∧
  ∀ (s : State), s.hcI.toNat ≠ s.n.toNat → s.f.toNat ∈ [1, 2, 4, 8] →
    Readable s s.inPos.toNat (1 + s.f.toNat) →
    (∀ p, s.nextDraw = .fails p → exec .hcGetpair s = .next (s.afterDraw.raise .ioError 0)) ∧
    ∀ sym, s.nextDraw = .passes → s.inp.byteAt s.inPos.toNat = some sym →
      (∀ p, s.afterDraw.nextDraw = .fails p →
        exec .hcGetpair s = .next (s.afterDraw.afterDraw.raise .ioError 0)) ∧
      ∀ bs e, s.afterDraw.nextDraw = .passes →
        s.inp.bytesAt (s.inPos.toNat + 1) s.f.toNat = some bs → s.nodeAt s.hcI = some e →
        ∃ t : State, exec .hcGetpair s = .next t ∧
          t.nodeAt s.hcI = some { e with
            kind := .leaf, sym := sym, freq := BitVec.ofNat 64 (deser bs s.cfg.freqOrder),
            parent := 0x1FF } ∧
          (∀ i, i ≠ s.hcI → t.nodeAt i = s.nodeAt i) ∧
          t = { s.afterDraw.afterDraw with
            node := t.node, inPos := s.inPos + 1 + s.f.setWidth 64, hcI := s.hcI + 1, phase := 28 }

/-- R87: the pair that `HC.PUTPAIR` appends is read back as the same leaf by `HC.GETPAIR`, under both byte
orders, when the frequency fits in the width. That a write does not ask for OUT_OPEN is log 18, the draws log
2. -/
def Obligations.WrittenPairReadsBack : Prop :=
  ∀ (s t u : State) (e : NodeEntry),
    s.hcI.toNat ≠ s.n.toNat → s.nodeAt s.hcI = some e → s.f.toNat ∈ [1, 2, 4, 8] →
    e.freq.toNat < 2 ^ (8 * s.f.toNat) → s.nextDraw = .passes → s.afterDraw.nextDraw = .passes →
    s.out.wf = true → exec .hcPutpair s = .next t →
    u.cfg = s.cfg → u.f = s.f → u.hcI.toNat ≠ u.n.toNat → (u.nodeAt u.hcI).isSome →
    Readable u u.inPos.toNat (1 + u.f.toNat) → u.nextDraw = .passes →
    u.afterDraw.nextDraw = .passes →
    (∀ j < 1 + s.f.toNat, u.inp.byteAt (u.inPos.toNat + j) = t.out.byteAt (s.out.endOff + j)) →
    ∃ (w : State) (d : NodeEntry), exec .hcGetpair u = .next w ∧ w.nodeAt u.hcI = some d ∧ d.kind = .leaf ∧
      d.sym = e.sym ∧ d.freq = e.freq ∧ d.parent = 0x1FF

/-! ## BitStreamEncoder -/

/-- R160. -/
def Obligations.EncoderStartsEmpty : Prop :=
  ∀ s : State,
    exec .bseInit s = .next { s with acc := 0, free := 64, inPos := 0, phase := 33 }

/-- R161, R168: end of input; a byte whose code is put, a literal 0x00 ending the stream; a failed word
write; a byte without a code; a failed read. That a failing read raises IoError also where the byte is
missing is log 12, BSE.PUT as an operation of its own log 13, the moment of the word's write log 16, that a
write does not ask for OUT_OPEN log 18, the draws log 2. -/
def Obligations.SymbolIsLookedUpAndPut : Prop :=
  (∀ s : State, s.inPos = s.inLen → exec .bseSym s = .next { s with phase := 34 }) ∧
  ∀ s : State, s.inPos ≠ s.inLen → Readable s s.inPos.toNat 1 →
    (∀ p, s.nextDraw = .fails p → exec .bseSym s = .next (s.afterDraw.raise .ioError 0)) ∧
    ∀ b, s.nextDraw = .passes → s.inp.byteAt s.inPos.toNat = some b →
      (127 < b.toNat → exec .bseSym s = .next (s.afterDraw.raise .lookupMiss s.inPos)) ∧
      ∀ h : b.toNat < 128,
        let e := s.lut[b.toNat]
        let u := { s.afterDraw with inPos := s.inPos + 1 }
        (e.valid = false → exec .bseSym s = .next (s.afterDraw.raise .lookupMiss s.inPos)) ∧
        (e.valid = true → s.free.toNat ≤ 64 → codeFits e.code e.len = true →
          ∃ t : State, exec (.bsePut e.code e.len) u = .next t ∧
            (e.len.toNat ≤ s.free.toNat ∨ s.afterDraw.nextDraw = .passes →
              exec .bseSym s = .next { t with phase := if b = 0 then 35 else 33 }) ∧
            (∀ p, s.free.toNat < e.len.toNat → s.afterDraw.nextDraw = .fails p →
              exec .bseSym s = .next t))

/-- R162: the sentinel's code is put and the flush follows; a failed word write ends the command. BSE.PUT as
an operation of its own is log 13, the moment of the word's write log 16, that a write does not ask for
OUT_OPEN log 18, the draws log 2. -/
def Obligations.SentinelCodeEndsTheStream : Prop :=
  ∀ s : State, s.free.toNat ≤ 64 → codeFits s.lut[0].code s.lut[0].len = true →
    ∃ t : State, exec (.bsePut s.lut[0].code s.lut[0].len) s = .next t ∧
      (s.lut[0].len.toNat ≤ s.free.toNat ∨ s.nextDraw = .passes →
        exec .bseEos s = .next { t with phase := 35 }) ∧
      (∀ p, s.free.toNat < s.lut[0].len.toNat → s.nextDraw = .fails p → exec .bseEos s = .next t)

/-- R163, every path: the code fits; it is split and the word goes out in `WORD_ORDER`; the word's write
fails, with the accumulator filled (R220) and a proper prefix of its 8 bytes appended. BSE.PUT as an
operation of its own is log 13, the moment of the word's write log 16, that a write does not ask for OUT_OPEN
log 18, the draws log 2. -/
def Obligations.PutShiftsOrSplits : Prop :=
  ∀ (s : State) (v : Word) (l : Len), s.free.toNat ≤ 64 → l.toNat ≤ 64 → v.toNat < 2 ^ l.toNat →
    (l.toNat ≤ s.free.toNat →
      exec (.bsePut v l) s =
        .next { s with acc := s.acc ||| (v <<< (s.free.toNat - l.toNat)), free := s.free - l }) ∧
    (s.free.toNat < l.toNat →
      let r := l.toNat - s.free.toNat
      let bs := ser (s.acc ||| (v >>> r)).toNat 8 s.cfg.wordOrder
      (s.nextDraw = .passes →
        ∃ t : State, exec (.bsePut v l) s = .next t ∧
          t.acc.toNat = (v.toNat % 2 ^ r) * 2 ^ (64 - r) ∧ t.free.toNat = 64 - r ∧
          t = { s.afterDraw with
            acc := t.acc, free := t.free, out := s.out.appendAll bs, outLen := s.outLen + 8 }) ∧
      (∀ p, s.nextDraw = .fails p →
        ∃ k < 8, k ≤ p ∧
          exec (.bsePut v l) s =
            .next (State.raise { s.afterDraw with
              acc := s.acc ||| (v >>> r)
              out := s.out.appendAll (bs.take k), outLen := s.outLen + BitVec.ofNat 64 k }
              .ioError 1)))

/-- R15, R166: from an accumulator whose free bits are zero, what went out and what is pending after
`BSE.PUT` are together the bits pending before followed by the code's bits, no bit lost or misplaced, and the
free bits are zero again. BSE.PUT as an operation of its own is log 13, the moment of the word's write log
16, that a write does not ask for OUT_OPEN log 18, the draws log 2. -/
def Obligations.PutAppendsTheCodeBits : Prop :=
  ∀ (s t : State) (v : Word) (l : Len), FreeBitsZero s → l.toNat ≤ 64 → v.toNat < 2 ^ l.toNat →
    s.nextDraw = .passes → exec (.bsePut v l) s = .next t →
    FreeBitsZero t ∧
      ((t.out = s.out ∧ pendingBits t = pendingBits s ++ codeBits l.toNat v.toNat) ∨
        ∃ w : Word, t.out = s.out.appendAll (ser w.toNat 8 s.cfg.wordOrder) ∧
          codeBits 64 w.toNat ++ pendingBits t = pendingBits s ++ codeBits l.toNat v.toNat)

/-- R164, every path: nothing to flush; the least number of whole bytes that holds the used bits; the write
fails and leaves a proper prefix of them. The moment of the word's write is log 16, that a write does not ask
for OUT_OPEN log 18, the draws log 2. -/
def Obligations.FinalFlushWritesWholeBytes : Prop :=
  ∀ s : State, s.free.toNat ≤ 64 →
    let k := (64 - s.free.toNat + 7) / 8
    let bs := ser (s.acc.toNat / 2 ^ (8 * (8 - k))) k s.cfg.wordOrder
    (k = 0 → exec .bseFinal s = .next { s with phase := 48 }) ∧
    (0 < k → s.nextDraw = .passes →
      exec .bseFinal s =
        .next { s.afterDraw with
          out := s.out.appendAll bs, outLen := s.outLen + BitVec.ofNat 64 k, phase := 48 }) ∧
    (∀ p, 0 < k → s.nextDraw = .fails p →
      ∃ j < k, j ≤ p ∧
        exec .bseFinal s =
          .next (State.raise { s.afterDraw with
            out := s.out.appendAll (bs.take j), outLen := s.outLen + BitVec.ofNat 64 j }
            .ioError 1))

/-! ## BitStreamDecoder -/

/-- R175, R181: the payload length, and the one-leaf tree decided at once. With an input shorter than its
header the rule states no length, and nothing is said of `PREM`: that the operation completes there, with all
the rest as else, is the model's choice (DESIGN CHOICE, assumption log 20), not the rule's. -/
def Obligations.DecoderStartsAtTheRoot : Prop :=
  ∀ (s : State) (e : NodeEntry), s.nodeAt s.root = some e →
    let header := 2 + s.n.toNat * (1 + s.f.toNat)
    ∃ t : State, exec .bsdInit s = .next t ∧
      (header ≤ s.inLen.toNat → t.prem.toNat = s.inLen.toNat - header ∧ t.unstated = s.unstated) ∧
      let u := { s with prem := t.prem, unstated := t.unstated, nbits := 0, cur := s.root }
      (e.kind = .internal → t = { u with phase := 41 }) ∧
      (e.kind = .leaf → e.sym = 0 → t = { u with phase := 48 }) ∧
      (e.kind = .leaf → e.sym ≠ 0 → t = u.raise .unexpectedEndOfStream 0)

/-- R177, every path: no payload left, before any read; a word or the tail, left-aligned; a failed read. That
a failing access raises IoError also where a byte is missing is log 12, the draws log 2. -/
def Obligations.FetchLeftAligns : Prop :=
  ∀ s : State,
    (s.prem = 0 → exec .bsdFetch s = .next (s.raise .unexpectedEndOfStream 0)) ∧
    (s.prem ≠ 0 → Readable s s.inPos.toNat (min 8 s.prem.toNat) →
      let k := min 8 s.prem.toNat
      (∀ bs, s.nextDraw = .passes → s.inp.bytesAt s.inPos.toNat k = some bs →
        ∃ t : State, exec .bsdFetch s = .next t ∧
          t.dword.toNat = deser bs s.cfg.wordOrder * 2 ^ (8 * (8 - k)) ∧
          t.nbits.toNat = 8 * k ∧ t.inPos.toNat = s.inPos.toNat + k ∧
          t.prem.toNat = s.prem.toNat - k ∧
          t = { s.afterDraw with
            dword := t.dword, nbits := t.nbits, inPos := t.inPos, prem := t.prem, phase := 42 }) ∧
      (∀ p, s.nextDraw = .fails p → exec .bsdFetch s = .next (s.afterDraw.raise .ioError 0)))

/-- R63: the bytes `BSE.FINAL` writes, fetched as the last record of a payload, give back the accumulator
when its free bits are zero, under both byte orders. The moment of the word's write is log 16, that a write
does not ask for OUT_OPEN log 18, the draws log 2. -/
def Obligations.FlushedBytesFetchBack : Prop :=
  ∀ (s t u : State), FreeBitsZero s → s.free.toNat < 64 → s.nextDraw = .passes →
    s.out.wf = true → exec .bseFinal s = .next t →
    let k := (64 - s.free.toNat + 7) / 8
    u.cfg = s.cfg → u.prem.toNat = k → Readable u u.inPos.toNat k → u.nextDraw = .passes →
    (∀ j < k, u.inp.byteAt (u.inPos.toNat + j) = t.out.byteAt (s.out.endOff + j)) →
    ∃ w : State, exec .bsdFetch u = .next w ∧ w.dword = s.acc ∧
      unwalkedBits w = pendingBits s ++ List.replicate (8 * k - (64 - s.free.toNat)) false

/-- R176: a leaf of the sentinel stops decoding, any other is appended as the byte it is and the walk goes
back to the root; the append can fail. R176's operand is the leaf NODE[CUR] and R34 gives sym to leaves only:
that BSD.LEAF acts on an internal entry by its sym field all the same, and that it is an operation of its
own, is the model's choice (log 13, DESIGN CHOICE). That a write does not ask for OUT_OPEN is log 18, the
draws log 2. -/
def Obligations.LeafEmitsOrStops : Prop :=
  ∀ (s : State) (e : NodeEntry), s.nodeAt s.cur = some e →
    (e.sym = 0 → exec .bsdLeaf s = .next { s with phase := 48 }) ∧
    (e.sym ≠ 0 → s.nextDraw = .passes →
      exec .bsdLeaf s =
        .next { s.afterDraw with
          out := s.out.append e.sym, outLen := s.outLen + 1, cur := s.root }) ∧
    (∀ p, e.sym ≠ 0 → s.nextDraw = .fails p →
      exec .bsdLeaf s = .next (s.afterDraw.raise .ioError 1))

/-- R178: the first bit of `DWORD` chooses the child and is used up; an inner node, a leaf that is emitted,
the sentinel, a failed append; with the last bit the next word is fetched. That a write does not ask for
OUT_OPEN is log 18, the draws log 2. -/
def Obligations.BitWalksOneEdge : Prop :=
  ∀ (s : State) (e d : NodeEntry),
    s.nbits ≠ 0 → s.nodeAt s.cur = some e → e.kind = .internal →
    let c := if s.dword.getLsbD 63 then e.right else e.left
    let u := { s with dword := s.dword <<< 1, nbits := s.nbits - 1, cur := c }
    let p := if s.nbits = 1 then 41 else 42
    s.nodeAt c = some d →
    (d.kind = .internal → exec .bsdBit s = .next { u with phase := p }) ∧
    (d.kind = .leaf → d.sym = 0 → exec .bsdBit s = .next { u with phase := 48 }) ∧
    (d.kind = .leaf → d.sym ≠ 0 → s.nextDraw = .passes →
      exec .bsdBit s =
        .next { u.afterDraw with
          out := s.out.append d.sym, outLen := s.outLen + 1, cur := s.root, phase := p }) ∧
    (∀ q, d.kind = .leaf → d.sym ≠ 0 → s.nextDraw = .fails q →
      exec .bsdBit s = .next (u.afterDraw.raise .ioError 1))

/-- R64: `BSD.BIT` takes the first of the bits not yet walked and leaves the others, in order. -/
def Obligations.BitsAreWalkedFirstToLast : Prop :=
  ∀ s t : State, 1 ≤ s.nbits.toNat → s.nbits.toNat ≤ 64 → exec .bsdBit s = .next t →
    unwalkedBits s = s.dword.getLsbD 63 :: unwalkedBits t

/-! ## Container records (the meanings of the rows of format `RECORD`, log 7) -/

/-- R84, R85, R86, R88 as the reading rules R150, R151, R177 consume them, one record at a time: legal and
illegal counts and widths, a header too long for the input, a pair, a word, a tail. The form, and that a
record is consumed also where its reader would not come to it (a width with `N = 0` among them), is the
model's choice (log 7). With less payload left than the record takes, nothing is said of `PREM` (log 20).
That the code, len, left and right of a PAIR's entry stay is log 10 (DEDUCED); that IN_POS wraps at 2^64
where the cursor runs over is the model's choice too (log 11, DESIGN CHOICE). -/
def Obligations.RecordsActAsTheirReaders : Prop :=
  (∀ (s : State) (n : Byte),
    (n = 0 → exec (.hdrCount n) s =
      .next (State.raise { s with inPos := s.inPos + 1 } .malformedHeader 1)) ∧
    (n ≠ 0 → exec (.hdrCount n) s = .next { s with inPos := s.inPos + 1, n := n })) ∧
  (∀ (s : State) (f : Byte),
    (f.toNat ∉ [1, 2, 4, 8] → exec (.hdrWidth f) s =
      .next (State.raise { s with inPos := s.inPos + 1 } .malformedHeader 2)) ∧
    (f.toNat ∈ [1, 2, 4, 8] → s.inLen.toNat < 2 + s.n.toNat * (1 + f.toNat) →
      exec (.hdrWidth f) s =
        .next (State.raise { s with inPos := s.inPos + 1 } .malformedHeader 3)) ∧
    (f.toNat ∈ [1, 2, 4, 8] → 2 + s.n.toNat * (1 + f.toNat) ≤ s.inLen.toNat →
      exec (.hdrWidth f) s =
        .next { s with inPos := s.inPos + 1, f := f.setWidth 4, hcI := 0, phase := 28 })) ∧
  (∀ (s : State) (sym : Byte) (f : FieldWidth) (freq : Word) (e : NodeEntry),
    s.nodeAt s.hcI = some e →
    ∃ t : State, exec (.pair sym f freq) s = .next t ∧
      t.nodeAt s.hcI =
        some { e with kind := .leaf, sym := sym, freq := freq, parent := 0x1FF } ∧
      (∀ i, i ≠ s.hcI → t.nodeAt i = s.nodeAt i) ∧
      t = { s with
        node := t.node, inPos := s.inPos + 1 + f.setWidth 64, hcI := s.hcI + 1, phase := 28 }) ∧
  (∀ (s : State) (w : Word),
    ∃ t : State, exec (.word w) s = .next t ∧
      (8 ≤ s.prem.toNat → t.prem.toNat = s.prem.toNat - 8 ∧ t.unstated = s.unstated) ∧
      t = { s with
        dword := w, nbits := 64, inPos := s.inPos + 8, prem := t.prem, unstated := t.unstated,
        phase := 42 }) ∧
  (∀ (s : State) (k : BitVec 4) (v : Word),
    1 ≤ k.toNat → k.toNat ≤ 7 → v.toNat < 2 ^ (8 * k.toNat) →
    ∃ t : State, exec (.tail k v) s = .next t ∧
      t.dword.toNat = v.toNat * 2 ^ (8 * (8 - k.toNat)) ∧ t.nbits.toNat = 8 * k.toNat ∧
      (k.toNat ≤ s.prem.toNat →
        t.prem.toNat = s.prem.toNat - k.toNat ∧ t.unstated = s.unstated) ∧
      t = { s with
        dword := t.dword, nbits := t.nbits, inPos := s.inPos + k.setWidth 64, prem := t.prem,
        unstated := t.unstated, phase := 42 })

/-- R89, R90: the bits of a code, first to last, lead from an inner node to a leaf, and the whole code then
acts as that leaf does (R176); an empty code does nothing. The form is the model's (log 7). BSD.LEAF as an
operation of its own is log 13, that a write does not ask for OUT_OPEN log 18, the draws log 2. -/
def Obligations.CodeRecordActsAsItsLeaf : Prop :=
  (∀ (s : State) (c : Word), exec (.code c 0) s = .next s) ∧
  ∀ (s : State) (c : Word) (len : Len) (l : Idx) (d : NodeEntry),
    1 ≤ len.toNat → descend s.node s.cur (codeBits len.toNat c.toNat) = some l →
    s.nodeAt l = some d → d.kind = .leaf → (d.sym = 0 ∨ s.nextDraw = .passes) →
    ∃ t : State, exec .bsdLeaf { s with cur := l } = .next t ∧ exec (.code c len) s = .next t

/-! ## Stream accesses -/

/-- R68, R211: a read whose preconditions hold asks the oracle once; when the access fails, nothing was read
and only fault entry and the draw have changed the core; when it passes, the bytes are those at the offsets,
in stream order, and reading has no side effect but the draw, the first listed or one past the list (log 2).
That a failing access raises IoError also where a byte is missing is log 12. -/
def Obligations.ReadIsAllOrNothing : Prop :=
  ∀ (s : State) (a n : Nat), 1 ≤ n → n ≤ 8 → Readable s a n →
    SameCore s s.afterDraw ∧ s.afterDraw.draws = s.draws.tail ∧
      (s.draws ≠ [] → s.afterDraw.drawn = s.drawn) ∧
      (s.draws = [] → s.afterDraw.drawn = s.drawn + 1) ∧
      (∀ p, s.nextDraw = .fails p →
        s.memRead a n = .halt (.next (s.afterDraw.raise .ioError 0))) ∧
      ∀ bs : List Byte, s.nextDraw = .passes → bs.length = n →
        (∀ j (h : j < bs.length), s.inp.byteAt (a + j) = some bs[j]) →
        s.memRead a n = .ok bs s.afterDraw

/-- R69: a failed write of `n` bytes has appended `k` of them, `k < n`, and counted them, and ends in fault
entry with `IoError`, `INFO = 1`; one that passes has appended them all. That a write does not ask for
OUT_OPEN is log 18, the draws log 2. -/
def Obligations.FailedWriteLeavesAPrefix : Prop :=
  ∀ (s : State) (bs : List Byte), 1 ≤ bs.length → bs.length ≤ 8 →
    (s.nextDraw = .passes →
      s.memWrite bs = .ok () { s.afterDraw with
        out := s.out.appendAll bs, outLen := s.outLen + BitVec.ofNat 64 bs.length }) ∧
    (∀ p, s.nextDraw = .fails p →
      ∃ k < bs.length, (p < bs.length → k = p) ∧
        s.memWrite bs = .halt (.next (State.raise { s.afterDraw with
          out := s.out.appendAll (bs.take k), outLen := s.outLen + BitVec.ofNat 64 k } .ioError 1)))

/-- The stops of the model (log 9), each where a rule's precondition fails and the spec gives no effect (R68,
R69, R124, R125, R163, R178, R83, U21): of every stream access, and of the operations. That a missing byte
stops the model only where the access passes is log 12, the item count of TB.MERGE where QH is above NT log
11, TB.TAKE and BSE.PUT as operations of their own log 13. -/
def Obligations.BrokenPreconditionsStop : Prop :=
  (∀ (s : State) (a n : Nat), n = 0 ∨ 8 < n → s.memRead a n = .halt (.fault .accessWidth)) ∧
  (∀ (s : State) (bs : List Byte), bs.length = 0 ∨ 8 < bs.length →
    s.memWrite bs = .halt (.fault .accessWidth)) ∧
  (∀ (s : State) (a n : Nat), 1 ≤ n → n ≤ 8 →
    (s.flags.inOpen = false → s.memRead a n = .halt (.fault .streamClosed)) ∧
    (s.flags.inOpen = true → s.inLen.toNat < a + n →
      s.memRead a n = .halt (.fault .readPastEnd)) ∧
    (Readable s a n → s.nextDraw = .passes → (∃ j < n, s.inp.byteAt (a + j) = none) →
      s.memRead a n = .halt (.refused .inputMissing))) ∧
  (∀ s : State, s.inPos ≠ s.inLen → s.flags.inOpen = false →
    exec .fsCount s = .fault .streamClosed ∧ exec .bseSym s = .fault .streamClosed) ∧
  (∀ s : State, s.inLen < s.inPos → s.flags.inOpen = true →
    exec .fsCount s = .fault .readPastEnd ∧ exec .bseSym s = .fault .readPastEnd) ∧
  (∀ s : State, s.inPos < s.inLen → s.flags.inOpen = true → s.nextDraw = .passes →
    s.inp.byteAt s.inPos.toNat = none →
    exec .fsCount s = .refused .inputMissing ∧ exec .bseSym s = .refused .inputMissing) ∧
  (∀ s : State, s.items < 2 → exec .tbMerge s = .fault .nothingToTake) ∧
  (∀ s : State, s.lrem = 0 → ¬ s.qh < s.nt → exec .tbTake s = .fault .nothingToTake) ∧
  (∀ (s : State) (v : Word) (l : Len),
    64 < s.free.toNat ∨ 64 < l.toNat ∨ 2 ^ l.toNat ≤ v.toNat →
    exec (.bsePut v l) s = .fault .bitCount) ∧
  (∀ s : State, 64 < s.free.toNat → exec .bseFinal s = .fault .bitCount) ∧
  (∀ s : State, s.nbits = 0 → exec .bsdBit s = .fault .noBitLeft) ∧
  (∀ (s : State) (e : NodeEntry), s.nbits ≠ 0 → s.nodeAt s.cur = some e → e.kind = .leaf →
    exec .bsdBit s = .fault .walkFromLeaf) ∧
  (∀ s : State, HostWaits s → s.status = .busy → s.phase ∉ phaseTable.map Prod.fst →
    step s = .fault .unusedPhase)

/-! ## Whole-machine rules: frames -/

/-- R31, column "written by" (with the records as their readers, log 7, and `RESET`): no other operation
changes a working register. TB.TAKE, BSE.PUT and BSD.LEAF as operations of their own are log 13. -/
def Obligations.OnlyListedWritersOfWorkingRegisters : Prop :=
  ∀ (i : Instr) (s t : State), exec i s = .next t →
    (writesRoot i = false → t.root = s.root) ∧
    (writesTake i = false → t.lrem = s.lrem ∧ t.qh = s.qh) ∧
    (writesSel i = false → t.sel = s.sel) ∧
    (writesNt i = false → t.nt = s.nt) ∧
    (writesCaI i = false → t.caI = s.caI) ∧
    (writesHcI i = false → t.hcI = s.hcI) ∧
    (writesAcc i = false → t.acc = s.acc ∧ t.free = s.free) ∧
    (writesDword i = false → t.dword = s.dword) ∧
    (writesNbits i = false → t.nbits = s.nbits) ∧
    (writesPrem i = false → t.prem = s.prem) ∧
    (writesCur i = false → t.cur = s.cur)

/-- R32, R34, R36, R28, R29, R30: no other operation changes an array, `N`, `F`, `IN_LEN`, `IN_POS`,
`OUT_LEN` or `OP`. The records are taken as their readers, and WORD, TAIL and CODE as operations of their own
(log 7), the sub-operations likewise (log 13). -/
def Obligations.OnlyListedWritersOfArraysAndCounts : Prop :=
  ∀ (i : Instr) (s t : State), exec i s = .next t →
    (writesCnt i = false → t.cnt = s.cnt) ∧
    (writesNode i = false → t.node = s.node) ∧
    (writesLut i = false → t.lut = s.lut) ∧
    (writesN i = false → t.n = s.n) ∧
    (writesF i = false → t.f = s.f) ∧
    (writesInPos i = false → t.inPos = s.inPos) ∧
    (starts i = false → i ≠ .reset → t.inLen = s.inLen ∧ t.flags.emptyInput = s.flags.emptyInput) ∧
    (stores i = false → starts i = false → i ≠ .reset → t.outLen = s.outLen) ∧
    (starts i = false → i ≠ .reset → isIllegal i = false → t.op = s.op)

/-- R23, R24, R210: an operation leaves `CAUSE` and `INFO` alone, or it clears them (a command start,
`RESET`), or it ends in `FAILED` with one of the causes the table lists for it. R210's table has no row for
the records: that HDR_COUNT, HDR_WIDTH and CODE raise their readers' causes, and PAIR, WORD and TAIL none, is
the model's choice (log 7, DESIGN CHOICE). -/
def Obligations.OnlyListedCausesAreRaised : Prop :=
  ∀ (i : Instr) (s t : State), exec i s = .next t →
    (t.cause = s.cause ∧ t.info = s.info) ∨
    ((starts i = true ∨ i = .reset) ∧ t.cause = .none ∧ t.info = 0) ∨
    (t.status = .failed ∧ t.phase = 0 ∧ t.flags.inOpen = false ∧ t.flags.outOpen = false ∧
      t.cause ∈ mayRaise i)

/-- R200: every transfer of control of the sequencer is one of the table's, or fault entry. That the host
waits is said of the model's plan of its acts (log 1). -/
def Obligations.PhaseTransfersAreListed : Prop :=
  ∀ s t : State, HostWaits s → s.status = .busy → s.phase ≠ Phase.idle → step s = .next t →
    t.phase ∈ successors s.phase ∨ (t.phase = Phase.idle ∧ t.status = .failed)

/-- The frame of memory for the operations without a `MemWrite` (R37, R71), command start apart, which is
handed fresh streams (R191): every byte of both spaces reads as before. RESET is among these operations: that
it keeps every byte of IN is the model's choice (log 6, DESIGN CHOICE); R235 says it of OUT. That the records
read no byte and store none is log 7, TB.TAKE as an operation of its own log 13. -/
def Obligations.NonStoringOperationsKeepEveryByte : Prop :=
  ∀ (i : Instr) (s t : State), stores i = false → starts i = false → exec i s = .next t →
    SameBytes s t

/-- The frame of memory for the operations with a `MemWrite` (R37, R60, R69): the bytes stored start at the
end of `OUT`, and there are at most as many as the operation's width; every other byte of `OUT`, and every
byte of `IN`, reads as before. The form of the spaces is log 6; CODE is among these operations as a record
(log 7), BSE.PUT and BSD.LEAF as operations of their own (log 13). -/
def Obligations.StoringOperationsAppendAtTheEnd : Prop :=
  ∀ (i : Instr) (s t : State), stores i = true → s.out.wf = true → exec i s = .next t →
    (∀ a, t.inp.byteAt a = s.inp.byteAt a) ∧
    (∀ a, a < s.out.endOff ∨ s.out.endOff + storeWidth s i ≤ a →
      t.out.byteAt a = s.out.byteAt a)

/-- R62, R63 (the orders cannot be switched) and R60 (`IN` is fixed for the whole command): no operation
changes the parameters; none but a command start that is accepted changes the input. That `RESET` keeps the
input is log 6; that no operation changes the host's plan and the streams it holds out, the model's own
fields, is log 1 and 3. The byte orders stand in the state and outlast RESET by log 4; that the host changes
no input while a command runs is log 15. -/
def Obligations.ParametersAndInputAreFixed : Prop :=
  ∀ (i : Instr) (s t : State), exec i s = .next t →
    t.cfg = s.cfg ∧ (starts i = false ∨ s.status = .busy → t.inp = s.inp) ∧
    t.host = s.host ∧ t.offer = s.offer

/-! ## Whole-machine rules: invariants -/

/-- The state after reset meets the three invariants. That `RunOk`'s code table clause holds there rests on
the model's values for the unspecified registers (log 5). That nothing is planned or held out there is log 3,
that both spaces are empty log 6. -/
def Obligations.ResetMeetsTheInvariants : Prop :=
  ControlOk State.reset ∧ StreamsOk State.reset ∧ RunOk State.reset

/-- R22, R23, R25, R26, R27, R28: the control registers agree in every step, whatever the host does. The host
acts by the plan of log 1, and a step of a resting core changes nothing (log 1). -/
def Obligations.ControlInvariantIsKept : Prop :=
  ∀ s t : State, ControlOk s → step s = .next t → ControlOk t

/-- R29, R60, R204: the spaces keep their canonical form, `OUT` has no hole, and `OUT_LEN` counts it. The
host acts by the plan of log 1; the streams it holds out stand in the state (log 3); that IN outlasts RESET,
and the form of the spaces, is log 6. -/
def Obligations.StreamInvariantIsKept : Prop :=
  ∀ s t : State, StreamsOk s → step s = .next t → StreamsOk t

/-- R225: from every state that meets the run invariant the step answers a next state, and that state meets
it again: no rule indexes out of range, walks from a leaf, reads past the input, whatever the bytes. A due
RESET is among the host's acts: that every LUT code is legal after it rests on the model's value 1 for code
and len (log 5, DESIGN CHOICE). The host acts by the plan of log 1, which with the streams held out outlasts
RESET (log 3), and keeps the duty of log 15, a step of a resting core changes nothing (log 1), the draws are
log 2. -/
def Obligations.NoStepStopsAndTheRunInvariantIsKept : Prop :=
  ∀ s : State, RunOk s → ∃ t, step s = .next t ∧ RunOk t

/-- R250, R199: every run ends: while the host waits, a running command reaches a state with `STATUS = DONE`
or `STATUS = FAILED`, within R250's count for the `N`, and the `F`, that the state at its end holds: from the
first phase, `2L + 3N + 16` steps of a COMPRESS, `2N + 8P + ceil8(P) + 7` of a DECOMPRESS with a payload of
`P` bytes. That the host waits is said of the model's plan of its acts (log 1); the draws are log 2. -/
def Obligations.EveryRunEnds : Prop :=
  ∀ s : State, RunOk s → s.host = [] → s.status = .busy →
    ∃ (k : Nat) (t : State), Sys2Proof.core.run k s = Host.Outcome.next t ∧
      (t.status = .done ∨ t.status = .failed) ∧ k ≤ s.stepsLeft t.n.toNat t.f.toNat
end

