-- ==== Sys2Proof/Laws/Memory.lean ====
section
/-! SUPPORT. The stream spaces: reading after appending, the canonical form, and what no operation on a
space changes. -/

namespace Sys2Proof.Machine

/-! ### The canonical form -/

theorem Memory.wfFrom_mono {lo lo' : Nat} {m : Memory} (h : lo' ≤ lo) (hm : m.wfFrom lo = true) :
    m.wfFrom lo' = true := by
  cases m with
  | nil => rfl
  | cons c rest =>
    simp only [Memory.wfFrom, Bool.and_eq_true, decide_eq_true_eq] at hm ⊢
    exact ⟨by omega, hm.2⟩

theorem Memory.le_endFrom {lo : Nat} {m : Memory} (hm : m.wfFrom lo = true) : lo ≤ m.endFrom lo := by
  induction m generalizing lo with
  | nil => exact Nat.le_refl _
  | cons c rest ih =>
    simp only [Memory.wfFrom, Bool.and_eq_true, decide_eq_true_eq] at hm
    have := ih hm.2
    simp only [Memory.endFrom]
    omega

/-- No byte stands below the lower bound. -/
theorem Memory.byteAt_below {lo a : Nat} {m : Memory} (hm : m.wfFrom lo = true) (ha : a < lo) :
    m.byteAt a = none := by
  induction m generalizing lo with
  | nil => rfl
  | cons c rest ih =>
    obtain ⟨k, b⟩ := c
    simp only [Memory.wfFrom, Bool.and_eq_true, decide_eq_true_eq] at hm
    have hk : k ≠ a := by omega
    simp only [Memory.byteAt, hk, if_false]
    exact ih hm.2 (by omega)

/-- No byte stands at or past the end. -/
theorem Memory.byteAt_past {lo a : Nat} {m : Memory} (hm : m.wfFrom lo = true)
    (ha : m.endFrom lo ≤ a) : m.byteAt a = none := by
  induction m generalizing lo with
  | nil => rfl
  | cons c rest ih =>
    obtain ⟨k, b⟩ := c
    simp only [Memory.wfFrom, Bool.and_eq_true, decide_eq_true_eq] at hm
    simp only [Memory.endFrom] at ha
    have := Memory.le_endFrom hm.2
    have hk : k ≠ a := by omega
    simp only [Memory.byteAt, hk, if_false]
    exact ih hm.2 ha

/-! ### One byte appended -/

theorem Memory.wfFrom_append {lo : Nat} {m : Memory} (b : Byte) (hm : m.wfFrom lo = true) :
    Memory.wfFrom lo (m ++ [(m.endFrom lo, b)]) = true := by
  induction m generalizing lo with
  | nil => simp [Memory.wfFrom, Memory.endFrom]
  | cons c rest ih =>
    simp only [Memory.wfFrom, Bool.and_eq_true, decide_eq_true_eq, List.cons_append,
      Memory.endFrom] at hm ⊢
    exact ⟨hm.1, ih hm.2⟩

theorem Memory.endFrom_append {lo : Nat} {m : Memory} (b : Byte) :
    Memory.endFrom lo (m ++ [(m.endFrom lo, b)]) = m.endFrom lo + 1 := by
  induction m generalizing lo with
  | nil => simp [Memory.endFrom]
  | cons c rest ih => simp only [List.cons_append, Memory.endFrom]; exact ih

theorem Memory.byteAt_snoc (m : Memory) (k a : Nat) (b : Byte) :
    Memory.byteAt (m ++ [(k, b)]) a = (m.byteAt a).or (if k = a then some b else none) := by
  induction m with
  | nil => simp [Memory.byteAt]
  | cons c rest ih =>
    simp only [List.cons_append, Memory.byteAt]
    split
    · rfl
    · exact ih

/-- Appending keeps the canonical form. -/
theorem Memory.wf_append {m : Memory} (b : Byte) (hm : m.wf = true) : (m.append b).wf = true :=
  Memory.wfFrom_append b hm

@[simp] theorem Memory.endOff_append (m : Memory) (b : Byte) : (m.append b).endOff = m.endOff + 1 :=
  Memory.endFrom_append b

@[simp] theorem Memory.length_append (m : Memory) (b : Byte) : (m.append b).length = m.length + 1 := by
  simp [Memory.append]

theorem Memory.byteAt_past_end {m : Memory} (hm : m.wf = true) {a : Nat} (ha : m.endOff ≤ a) :
    m.byteAt a = none := Memory.byteAt_past hm ha

/-- Reading after one byte is appended. -/
theorem Memory.byteAt_append {m : Memory} (hm : m.wf = true) (b : Byte) (a : Nat) :
    (m.append b).byteAt a = if a = m.endOff then some b else m.byteAt a := by
  unfold Memory.append
  rw [Memory.byteAt_snoc]
  by_cases h : a = m.endOff
  · subst h
    simp [Memory.byteAt_past_end hm]
  · have h' : ¬ m.endOff = a := fun e => h e.symm
    simp [h, h']

/-! ### Several bytes appended -/

@[simp] theorem Memory.appendAll_nil (m : Memory) : m.appendAll [] = m := rfl

theorem Memory.appendAll_cons (m : Memory) (b : Byte) (bs : List Byte) :
    m.appendAll (b :: bs) = (m.append b).appendAll bs := rfl

theorem Memory.appendAll_append (m : Memory) (bs cs : List Byte) :
    m.appendAll (bs ++ cs) = (m.appendAll bs).appendAll cs := by
  induction bs generalizing m with
  | nil => rfl
  | cons b bs ih => exact ih _

@[simp] theorem Memory.appendAll_one (m : Memory) (b : Byte) : m.appendAll [b] = m.append b := rfl

/-- Appending keeps the canonical form. -/
theorem Memory.wf_appendAll {m : Memory} (bs : List Byte) (hm : m.wf = true) :
    (m.appendAll bs).wf = true := by
  induction bs generalizing m with
  | nil => exact hm
  | cons b bs ih => exact ih (Memory.wf_append b hm)

@[simp] theorem Memory.endOff_appendAll (m : Memory) (bs : List Byte) :
    (m.appendAll bs).endOff = m.endOff + bs.length := by
  induction bs generalizing m with
  | nil => rfl
  | cons b bs ih => rw [Memory.appendAll_cons, ih, Memory.endOff_append, List.length_cons]; omega

@[simp] theorem Memory.length_appendAll (m : Memory) (bs : List Byte) :
    (m.appendAll bs).length = m.length + bs.length := by
  induction bs generalizing m with
  | nil => rfl
  | cons b bs ih => rw [Memory.appendAll_cons, ih, Memory.length_append, List.length_cons]; omega

/-- The bytes below the old end, and those past the new one, read as before. -/
theorem Memory.byteAt_appendAll_frame {m : Memory} (hm : m.wf = true) (bs : List Byte) {a : Nat}
    (ha : a < m.endOff ∨ m.endOff + bs.length ≤ a) : (m.appendAll bs).byteAt a = m.byteAt a := by
  induction bs generalizing m with
  | nil => rfl
  | cons b bs ih =>
    rw [Memory.appendAll_cons, ih (Memory.wf_append b hm), Memory.byteAt_append hm]
    · rw [if_neg]
      simp only [List.length_cons] at ha
      omega
    · simp only [List.length_cons, Memory.endOff_append] at ha ⊢
      omega

/-- The bytes appended read back, in order, from the old end on. -/
theorem Memory.byteAt_appendAll {m : Memory} (hm : m.wf = true) (bs : List Byte) (j : Nat) :
    (m.appendAll bs).byteAt (m.endOff + j) = if h : j < bs.length then some bs[j] else none := by
  induction bs generalizing m j with
  | nil => simp [Memory.byteAt_past_end hm (Nat.le_add_right _ _)]
  | cons b bs ih =>
    rw [Memory.appendAll_cons]
    cases j with
    | zero =>
      rw [Memory.byteAt_appendAll_frame (Memory.wf_append b hm) bs (by simp),
        Memory.byteAt_append hm]
      simp
    | succ j =>
      have := ih (Memory.wf_append b hm) j
      rw [Memory.endOff_append] at this
      rw [show m.endOff + (j + 1) = m.endOff + 1 + j by omega, this]
      simp

/-- A space of given bytes is in canonical form. -/
theorem Memory.wf_ofBytes (bs : List Byte) : (Memory.ofBytes bs).wf = true :=
  Memory.wf_appendAll bs rfl

theorem Memory.byteAt_ofBytes (bs : List Byte) (j : Nat) :
    (Memory.ofBytes bs).byteAt j = if h : j < bs.length then some bs[j] else none := by
  have h := Memory.byteAt_appendAll (m := []) rfl bs j
  rwa [show Memory.endOff [] + j = j from Nat.zero_add j] at h

/-! ### Several bytes read -/

theorem Memory.length_of_bytesAt {m : Memory} {a n : Nat} {bs : List Byte}
    (h : m.bytesAt a n = some bs) : bs.length = n := by
  induction n generalizing a bs with
  | zero => simp_all [Memory.bytesAt]
  | succ n ih =>
    simp only [Memory.bytesAt] at h
    split at h
    · rename_i b bs' hb hbs
      cases h
      simp [ih hbs]
    · simp at h

/-- What `bytesAt` answers, byte by byte. -/
theorem Memory.bytesAt_eq_some_iff {m : Memory} {a n : Nat} {bs : List Byte} :
    m.bytesAt a n = some bs ↔
      bs.length = n ∧ ∀ j (h : j < bs.length), m.byteAt (a + j) = some bs[j] := by
  induction n generalizing a bs with
  | zero =>
    simp only [Memory.bytesAt, Option.some.injEq, List.length_eq_zero_iff]
    constructor
    · rintro rfl; simp
    · rintro ⟨rfl, -⟩; rfl
  | succ n ih =>
    constructor
    · intro h
      refine ⟨Memory.length_of_bytesAt h, ?_⟩
      simp only [Memory.bytesAt] at h
      split at h
      · rename_i b bs' hb hbs
        cases h
        intro j hj
        cases j with
        | zero => simpa using hb
        | succ j =>
          have := (ih.mp hbs).2 j (by simpa using hj)
          rw [show a + (j + 1) = a + 1 + j by omega]
          simpa using this
      · simp at h
    · rintro ⟨hl, h⟩
      cases bs with
      | nil => simp at hl
      | cons b bs =>
        have hb := h 0 (by simp)
        have hbs : m.bytesAt (a + 1) n = some bs := by
          rw [ih]
          refine ⟨by simpa using hl, fun j hj => ?_⟩
          have := h (j + 1) (by simpa using hj)
          rw [show a + 1 + j = a + (j + 1) by omega]
          simpa using this
        have hb' : m.byteAt a = some b := by simpa using hb
        simp only [Memory.bytesAt, hb', hbs]

/-- Bytes can be read where every offset holds one. -/
theorem Memory.bytesAt_isSome {m : Memory} {a n : Nat} (h : ∀ j < n, (m.byteAt (a + j)).isSome) :
    ∃ bs, m.bytesAt a n = some bs := by
  induction n generalizing a with
  | zero => exact ⟨[], rfl⟩
  | succ n ih =>
    obtain ⟨b, hb⟩ := Option.isSome_iff_exists.mp (h 0 (by omega))
    obtain ⟨bs, hbs⟩ := ih (a := a + 1) fun j hj => by
      have := h (j + 1) (by omega)
      rwa [show a + (j + 1) = a + 1 + j by omega] at this
    rw [Nat.add_zero] at hb
    exact ⟨b :: bs, by simp only [Memory.bytesAt, hb, hbs]⟩

theorem Memory.bytesAt_one (m : Memory) (a : Nat) : m.bytesAt a 1 = (m.byteAt a).map fun b => [b] := by
  simp only [Memory.bytesAt]
  cases m.byteAt a <;> rfl

theorem Memory.bytesAt_one_eq_some {m : Memory} {a : Nat} {bs : List Byte} :
    m.bytesAt a 1 = some bs ↔ ∃ b, m.byteAt a = some b ∧ bs = [b] := by
  rw [Memory.bytesAt_one, Option.map_eq_some_iff]
  simp only [eq_comm]

/-! ### Reset -/

theorem State.reset_inp_wf : State.reset.inp.wf = true := rfl

theorem State.reset_out_wf : State.reset.out.wf = true := rfl

end Sys2Proof.Machine
end

