-- ==== Sys2Proof/Laws/State.lean ====
section
/-! SUPPORT. What each named update of the state does to each field: one lemma per field per update, true by
unfolding, so that no later proof unfolds a record update. -/

namespace Sys2Proof.Machine

/-! ### `State.setPhase` -/

@[simp] theorem State.setPhase_cfg (s : State) (p : PhaseCode) : (s.setPhase p).cfg = s.cfg := rfl
@[simp] theorem State.setPhase_status (s : State) (p : PhaseCode) : (s.setPhase p).status = s.status := rfl
@[simp] theorem State.setPhase_cause (s : State) (p : PhaseCode) : (s.setPhase p).cause = s.cause := rfl
@[simp] theorem State.setPhase_info (s : State) (p : PhaseCode) : (s.setPhase p).info = s.info := rfl
@[simp] theorem State.setPhase_flags (s : State) (p : PhaseCode) : (s.setPhase p).flags = s.flags := rfl
@[simp] theorem State.setPhase_op (s : State) (p : PhaseCode) : (s.setPhase p).op = s.op := rfl
@[simp] theorem State.setPhase_phase (s : State) (p : PhaseCode) : (s.setPhase p).phase = p := rfl
@[simp] theorem State.setPhase_inLen (s : State) (p : PhaseCode) : (s.setPhase p).inLen = s.inLen := rfl
@[simp] theorem State.setPhase_inPos (s : State) (p : PhaseCode) : (s.setPhase p).inPos = s.inPos := rfl
@[simp] theorem State.setPhase_outLen (s : State) (p : PhaseCode) : (s.setPhase p).outLen = s.outLen := rfl
@[simp] theorem State.setPhase_n (s : State) (p : PhaseCode) : (s.setPhase p).n = s.n := rfl
@[simp] theorem State.setPhase_f (s : State) (p : PhaseCode) : (s.setPhase p).f = s.f := rfl
@[simp] theorem State.setPhase_root (s : State) (p : PhaseCode) : (s.setPhase p).root = s.root := rfl
@[simp] theorem State.setPhase_lrem (s : State) (p : PhaseCode) : (s.setPhase p).lrem = s.lrem := rfl
@[simp] theorem State.setPhase_qh (s : State) (p : PhaseCode) : (s.setPhase p).qh = s.qh := rfl
@[simp] theorem State.setPhase_nt (s : State) (p : PhaseCode) : (s.setPhase p).nt = s.nt := rfl
@[simp] theorem State.setPhase_sel (s : State) (p : PhaseCode) : (s.setPhase p).sel = s.sel := rfl
@[simp] theorem State.setPhase_caI (s : State) (p : PhaseCode) : (s.setPhase p).caI = s.caI := rfl
@[simp] theorem State.setPhase_hcI (s : State) (p : PhaseCode) : (s.setPhase p).hcI = s.hcI := rfl
@[simp] theorem State.setPhase_acc (s : State) (p : PhaseCode) : (s.setPhase p).acc = s.acc := rfl
@[simp] theorem State.setPhase_free (s : State) (p : PhaseCode) : (s.setPhase p).free = s.free := rfl
@[simp] theorem State.setPhase_dword (s : State) (p : PhaseCode) : (s.setPhase p).dword = s.dword := rfl
@[simp] theorem State.setPhase_nbits (s : State) (p : PhaseCode) : (s.setPhase p).nbits = s.nbits := rfl
@[simp] theorem State.setPhase_cur (s : State) (p : PhaseCode) : (s.setPhase p).cur = s.cur := rfl
@[simp] theorem State.setPhase_prem (s : State) (p : PhaseCode) : (s.setPhase p).prem = s.prem := rfl
@[simp] theorem State.setPhase_cnt (s : State) (p : PhaseCode) : (s.setPhase p).cnt = s.cnt := rfl
@[simp] theorem State.setPhase_node (s : State) (p : PhaseCode) : (s.setPhase p).node = s.node := rfl
@[simp] theorem State.setPhase_lut (s : State) (p : PhaseCode) : (s.setPhase p).lut = s.lut := rfl
@[simp] theorem State.setPhase_inp (s : State) (p : PhaseCode) : (s.setPhase p).inp = s.inp := rfl
@[simp] theorem State.setPhase_out (s : State) (p : PhaseCode) : (s.setPhase p).out = s.out := rfl
@[simp] theorem State.setPhase_host (s : State) (p : PhaseCode) : (s.setPhase p).host = s.host := rfl
@[simp] theorem State.setPhase_offer (s : State) (p : PhaseCode) : (s.setPhase p).offer = s.offer := rfl
@[simp] theorem State.setPhase_draws (s : State) (p : PhaseCode) : (s.setPhase p).draws = s.draws := rfl
@[simp] theorem State.setPhase_drawn (s : State) (p : PhaseCode) : (s.setPhase p).drawn = s.drawn := rfl
@[simp] theorem State.setPhase_unstated (s : State) (p : PhaseCode) : (s.setPhase p).unstated = s.unstated := rfl

/-! ### `State.raise` -/

@[simp] theorem State.raise_cfg (s : State) (c : Cause) (i : Word) : (s.raise c i).cfg = s.cfg := rfl
@[simp] theorem State.raise_status (s : State) (c : Cause) (i : Word) : (s.raise c i).status = .failed := rfl
@[simp] theorem State.raise_cause (s : State) (c : Cause) (i : Word) : (s.raise c i).cause = c := rfl
@[simp] theorem State.raise_info (s : State) (c : Cause) (i : Word) : (s.raise c i).info = i := rfl
@[simp] theorem State.raise_flags (s : State) (c : Cause) (i : Word) : (s.raise c i).flags = s.flags.closed := rfl
@[simp] theorem State.raise_op (s : State) (c : Cause) (i : Word) : (s.raise c i).op = s.op := rfl
@[simp] theorem State.raise_phase (s : State) (c : Cause) (i : Word) : (s.raise c i).phase = Phase.idle := rfl
@[simp] theorem State.raise_inLen (s : State) (c : Cause) (i : Word) : (s.raise c i).inLen = s.inLen := rfl
@[simp] theorem State.raise_inPos (s : State) (c : Cause) (i : Word) : (s.raise c i).inPos = s.inPos := rfl
@[simp] theorem State.raise_outLen (s : State) (c : Cause) (i : Word) : (s.raise c i).outLen = s.outLen := rfl
@[simp] theorem State.raise_n (s : State) (c : Cause) (i : Word) : (s.raise c i).n = s.n := rfl
@[simp] theorem State.raise_f (s : State) (c : Cause) (i : Word) : (s.raise c i).f = s.f := rfl
@[simp] theorem State.raise_root (s : State) (c : Cause) (i : Word) : (s.raise c i).root = s.root := rfl
@[simp] theorem State.raise_lrem (s : State) (c : Cause) (i : Word) : (s.raise c i).lrem = s.lrem := rfl
@[simp] theorem State.raise_qh (s : State) (c : Cause) (i : Word) : (s.raise c i).qh = s.qh := rfl
@[simp] theorem State.raise_nt (s : State) (c : Cause) (i : Word) : (s.raise c i).nt = s.nt := rfl
@[simp] theorem State.raise_sel (s : State) (c : Cause) (i : Word) : (s.raise c i).sel = s.sel := rfl
@[simp] theorem State.raise_caI (s : State) (c : Cause) (i : Word) : (s.raise c i).caI = s.caI := rfl
@[simp] theorem State.raise_hcI (s : State) (c : Cause) (i : Word) : (s.raise c i).hcI = s.hcI := rfl
@[simp] theorem State.raise_acc (s : State) (c : Cause) (i : Word) : (s.raise c i).acc = s.acc := rfl
@[simp] theorem State.raise_free (s : State) (c : Cause) (i : Word) : (s.raise c i).free = s.free := rfl
@[simp] theorem State.raise_dword (s : State) (c : Cause) (i : Word) : (s.raise c i).dword = s.dword := rfl
@[simp] theorem State.raise_nbits (s : State) (c : Cause) (i : Word) : (s.raise c i).nbits = s.nbits := rfl
@[simp] theorem State.raise_cur (s : State) (c : Cause) (i : Word) : (s.raise c i).cur = s.cur := rfl
@[simp] theorem State.raise_prem (s : State) (c : Cause) (i : Word) : (s.raise c i).prem = s.prem := rfl
@[simp] theorem State.raise_cnt (s : State) (c : Cause) (i : Word) : (s.raise c i).cnt = s.cnt := rfl
@[simp] theorem State.raise_node (s : State) (c : Cause) (i : Word) : (s.raise c i).node = s.node := rfl
@[simp] theorem State.raise_lut (s : State) (c : Cause) (i : Word) : (s.raise c i).lut = s.lut := rfl
@[simp] theorem State.raise_inp (s : State) (c : Cause) (i : Word) : (s.raise c i).inp = s.inp := rfl
@[simp] theorem State.raise_out (s : State) (c : Cause) (i : Word) : (s.raise c i).out = s.out := rfl
@[simp] theorem State.raise_host (s : State) (c : Cause) (i : Word) : (s.raise c i).host = s.host := rfl
@[simp] theorem State.raise_offer (s : State) (c : Cause) (i : Word) : (s.raise c i).offer = s.offer := rfl
@[simp] theorem State.raise_draws (s : State) (c : Cause) (i : Word) : (s.raise c i).draws = s.draws := rfl
@[simp] theorem State.raise_drawn (s : State) (c : Cause) (i : Word) : (s.raise c i).drawn = s.drawn := rfl
@[simp] theorem State.raise_unstated (s : State) (c : Cause) (i : Word) : (s.raise c i).unstated = s.unstated := rfl

/-! ### `State.appendOut` -/

@[simp] theorem State.appendOut_cfg (s : State) (bs : List Byte) : (s.appendOut bs).cfg = s.cfg := rfl
@[simp] theorem State.appendOut_status (s : State) (bs : List Byte) : (s.appendOut bs).status = s.status := rfl
@[simp] theorem State.appendOut_cause (s : State) (bs : List Byte) : (s.appendOut bs).cause = s.cause := rfl
@[simp] theorem State.appendOut_info (s : State) (bs : List Byte) : (s.appendOut bs).info = s.info := rfl
@[simp] theorem State.appendOut_flags (s : State) (bs : List Byte) : (s.appendOut bs).flags = s.flags := rfl
@[simp] theorem State.appendOut_op (s : State) (bs : List Byte) : (s.appendOut bs).op = s.op := rfl
@[simp] theorem State.appendOut_phase (s : State) (bs : List Byte) : (s.appendOut bs).phase = s.phase := rfl
@[simp] theorem State.appendOut_inLen (s : State) (bs : List Byte) : (s.appendOut bs).inLen = s.inLen := rfl
@[simp] theorem State.appendOut_inPos (s : State) (bs : List Byte) : (s.appendOut bs).inPos = s.inPos := rfl
@[simp] theorem State.appendOut_outLen (s : State) (bs : List Byte) : (s.appendOut bs).outLen = s.outLen + BitVec.ofNat 64 bs.length := rfl
@[simp] theorem State.appendOut_n (s : State) (bs : List Byte) : (s.appendOut bs).n = s.n := rfl
@[simp] theorem State.appendOut_f (s : State) (bs : List Byte) : (s.appendOut bs).f = s.f := rfl
@[simp] theorem State.appendOut_root (s : State) (bs : List Byte) : (s.appendOut bs).root = s.root := rfl
@[simp] theorem State.appendOut_lrem (s : State) (bs : List Byte) : (s.appendOut bs).lrem = s.lrem := rfl
@[simp] theorem State.appendOut_qh (s : State) (bs : List Byte) : (s.appendOut bs).qh = s.qh := rfl
@[simp] theorem State.appendOut_nt (s : State) (bs : List Byte) : (s.appendOut bs).nt = s.nt := rfl
@[simp] theorem State.appendOut_sel (s : State) (bs : List Byte) : (s.appendOut bs).sel = s.sel := rfl
@[simp] theorem State.appendOut_caI (s : State) (bs : List Byte) : (s.appendOut bs).caI = s.caI := rfl
@[simp] theorem State.appendOut_hcI (s : State) (bs : List Byte) : (s.appendOut bs).hcI = s.hcI := rfl
@[simp] theorem State.appendOut_acc (s : State) (bs : List Byte) : (s.appendOut bs).acc = s.acc := rfl
@[simp] theorem State.appendOut_free (s : State) (bs : List Byte) : (s.appendOut bs).free = s.free := rfl
@[simp] theorem State.appendOut_dword (s : State) (bs : List Byte) : (s.appendOut bs).dword = s.dword := rfl
@[simp] theorem State.appendOut_nbits (s : State) (bs : List Byte) : (s.appendOut bs).nbits = s.nbits := rfl
@[simp] theorem State.appendOut_cur (s : State) (bs : List Byte) : (s.appendOut bs).cur = s.cur := rfl
@[simp] theorem State.appendOut_prem (s : State) (bs : List Byte) : (s.appendOut bs).prem = s.prem := rfl
@[simp] theorem State.appendOut_cnt (s : State) (bs : List Byte) : (s.appendOut bs).cnt = s.cnt := rfl
@[simp] theorem State.appendOut_node (s : State) (bs : List Byte) : (s.appendOut bs).node = s.node := rfl
@[simp] theorem State.appendOut_lut (s : State) (bs : List Byte) : (s.appendOut bs).lut = s.lut := rfl
@[simp] theorem State.appendOut_inp (s : State) (bs : List Byte) : (s.appendOut bs).inp = s.inp := rfl
@[simp] theorem State.appendOut_out (s : State) (bs : List Byte) : (s.appendOut bs).out = s.out.appendAll bs := rfl
@[simp] theorem State.appendOut_host (s : State) (bs : List Byte) : (s.appendOut bs).host = s.host := rfl
@[simp] theorem State.appendOut_offer (s : State) (bs : List Byte) : (s.appendOut bs).offer = s.offer := rfl
@[simp] theorem State.appendOut_draws (s : State) (bs : List Byte) : (s.appendOut bs).draws = s.draws := rfl
@[simp] theorem State.appendOut_drawn (s : State) (bs : List Byte) : (s.appendOut bs).drawn = s.drawn := rfl
@[simp] theorem State.appendOut_unstated (s : State) (bs : List Byte) : (s.appendOut bs).unstated = s.unstated := rfl

/-! ### `State.setNode` -/

@[simp] theorem State.setNode_cfg (s : State) (i : Idx) (g : NodeEntry → NodeEntry) : (s.setNode i g).cfg = s.cfg := rfl
@[simp] theorem State.setNode_status (s : State) (i : Idx) (g : NodeEntry → NodeEntry) : (s.setNode i g).status = s.status := rfl
@[simp] theorem State.setNode_cause (s : State) (i : Idx) (g : NodeEntry → NodeEntry) : (s.setNode i g).cause = s.cause := rfl
@[simp] theorem State.setNode_info (s : State) (i : Idx) (g : NodeEntry → NodeEntry) : (s.setNode i g).info = s.info := rfl
@[simp] theorem State.setNode_flags (s : State) (i : Idx) (g : NodeEntry → NodeEntry) : (s.setNode i g).flags = s.flags := rfl
@[simp] theorem State.setNode_op (s : State) (i : Idx) (g : NodeEntry → NodeEntry) : (s.setNode i g).op = s.op := rfl
@[simp] theorem State.setNode_phase (s : State) (i : Idx) (g : NodeEntry → NodeEntry) : (s.setNode i g).phase = s.phase := rfl
@[simp] theorem State.setNode_inLen (s : State) (i : Idx) (g : NodeEntry → NodeEntry) : (s.setNode i g).inLen = s.inLen := rfl
@[simp] theorem State.setNode_inPos (s : State) (i : Idx) (g : NodeEntry → NodeEntry) : (s.setNode i g).inPos = s.inPos := rfl
@[simp] theorem State.setNode_outLen (s : State) (i : Idx) (g : NodeEntry → NodeEntry) : (s.setNode i g).outLen = s.outLen := rfl
@[simp] theorem State.setNode_n (s : State) (i : Idx) (g : NodeEntry → NodeEntry) : (s.setNode i g).n = s.n := rfl
@[simp] theorem State.setNode_f (s : State) (i : Idx) (g : NodeEntry → NodeEntry) : (s.setNode i g).f = s.f := rfl
@[simp] theorem State.setNode_root (s : State) (i : Idx) (g : NodeEntry → NodeEntry) : (s.setNode i g).root = s.root := rfl
@[simp] theorem State.setNode_lrem (s : State) (i : Idx) (g : NodeEntry → NodeEntry) : (s.setNode i g).lrem = s.lrem := rfl
@[simp] theorem State.setNode_qh (s : State) (i : Idx) (g : NodeEntry → NodeEntry) : (s.setNode i g).qh = s.qh := rfl
@[simp] theorem State.setNode_nt (s : State) (i : Idx) (g : NodeEntry → NodeEntry) : (s.setNode i g).nt = s.nt := rfl
@[simp] theorem State.setNode_sel (s : State) (i : Idx) (g : NodeEntry → NodeEntry) : (s.setNode i g).sel = s.sel := rfl
@[simp] theorem State.setNode_caI (s : State) (i : Idx) (g : NodeEntry → NodeEntry) : (s.setNode i g).caI = s.caI := rfl
@[simp] theorem State.setNode_hcI (s : State) (i : Idx) (g : NodeEntry → NodeEntry) : (s.setNode i g).hcI = s.hcI := rfl
@[simp] theorem State.setNode_acc (s : State) (i : Idx) (g : NodeEntry → NodeEntry) : (s.setNode i g).acc = s.acc := rfl
@[simp] theorem State.setNode_free (s : State) (i : Idx) (g : NodeEntry → NodeEntry) : (s.setNode i g).free = s.free := rfl
@[simp] theorem State.setNode_dword (s : State) (i : Idx) (g : NodeEntry → NodeEntry) : (s.setNode i g).dword = s.dword := rfl
@[simp] theorem State.setNode_nbits (s : State) (i : Idx) (g : NodeEntry → NodeEntry) : (s.setNode i g).nbits = s.nbits := rfl
@[simp] theorem State.setNode_cur (s : State) (i : Idx) (g : NodeEntry → NodeEntry) : (s.setNode i g).cur = s.cur := rfl
@[simp] theorem State.setNode_prem (s : State) (i : Idx) (g : NodeEntry → NodeEntry) : (s.setNode i g).prem = s.prem := rfl
@[simp] theorem State.setNode_cnt (s : State) (i : Idx) (g : NodeEntry → NodeEntry) : (s.setNode i g).cnt = s.cnt := rfl
@[simp] theorem State.setNode_node (s : State) (i : Idx) (g : NodeEntry → NodeEntry) : (s.setNode i g).node = updNode s.node i.toNat g := rfl
@[simp] theorem State.setNode_lut (s : State) (i : Idx) (g : NodeEntry → NodeEntry) : (s.setNode i g).lut = s.lut := rfl
@[simp] theorem State.setNode_inp (s : State) (i : Idx) (g : NodeEntry → NodeEntry) : (s.setNode i g).inp = s.inp := rfl
@[simp] theorem State.setNode_out (s : State) (i : Idx) (g : NodeEntry → NodeEntry) : (s.setNode i g).out = s.out := rfl
@[simp] theorem State.setNode_host (s : State) (i : Idx) (g : NodeEntry → NodeEntry) : (s.setNode i g).host = s.host := rfl
@[simp] theorem State.setNode_offer (s : State) (i : Idx) (g : NodeEntry → NodeEntry) : (s.setNode i g).offer = s.offer := rfl
@[simp] theorem State.setNode_draws (s : State) (i : Idx) (g : NodeEntry → NodeEntry) : (s.setNode i g).draws = s.draws := rfl
@[simp] theorem State.setNode_drawn (s : State) (i : Idx) (g : NodeEntry → NodeEntry) : (s.setNode i g).drawn = s.drawn := rfl
@[simp] theorem State.setNode_unstated (s : State) (i : Idx) (g : NodeEntry → NodeEntry) : (s.setNode i g).unstated = s.unstated := rfl

/-! ### `State.countSym` -/

@[simp] theorem State.countSym_cfg (s : State) (b : Byte) : (s.countSym b).cfg = s.cfg := rfl
@[simp] theorem State.countSym_status (s : State) (b : Byte) : (s.countSym b).status = s.status := rfl
@[simp] theorem State.countSym_cause (s : State) (b : Byte) : (s.countSym b).cause = s.cause := rfl
@[simp] theorem State.countSym_info (s : State) (b : Byte) : (s.countSym b).info = s.info := rfl
@[simp] theorem State.countSym_flags (s : State) (b : Byte) : (s.countSym b).flags = s.flags := rfl
@[simp] theorem State.countSym_op (s : State) (b : Byte) : (s.countSym b).op = s.op := rfl
@[simp] theorem State.countSym_phase (s : State) (b : Byte) : (s.countSym b).phase = s.phase := rfl
@[simp] theorem State.countSym_inLen (s : State) (b : Byte) : (s.countSym b).inLen = s.inLen := rfl
@[simp] theorem State.countSym_inPos (s : State) (b : Byte) : (s.countSym b).inPos = s.inPos := rfl
@[simp] theorem State.countSym_outLen (s : State) (b : Byte) : (s.countSym b).outLen = s.outLen := rfl
@[simp] theorem State.countSym_n (s : State) (b : Byte) : (s.countSym b).n = s.n := rfl
@[simp] theorem State.countSym_f (s : State) (b : Byte) : (s.countSym b).f = s.f := rfl
@[simp] theorem State.countSym_root (s : State) (b : Byte) : (s.countSym b).root = s.root := rfl
@[simp] theorem State.countSym_lrem (s : State) (b : Byte) : (s.countSym b).lrem = s.lrem := rfl
@[simp] theorem State.countSym_qh (s : State) (b : Byte) : (s.countSym b).qh = s.qh := rfl
@[simp] theorem State.countSym_nt (s : State) (b : Byte) : (s.countSym b).nt = s.nt := rfl
@[simp] theorem State.countSym_sel (s : State) (b : Byte) : (s.countSym b).sel = s.sel := rfl
@[simp] theorem State.countSym_caI (s : State) (b : Byte) : (s.countSym b).caI = s.caI := rfl
@[simp] theorem State.countSym_hcI (s : State) (b : Byte) : (s.countSym b).hcI = s.hcI := rfl
@[simp] theorem State.countSym_acc (s : State) (b : Byte) : (s.countSym b).acc = s.acc := rfl
@[simp] theorem State.countSym_free (s : State) (b : Byte) : (s.countSym b).free = s.free := rfl
@[simp] theorem State.countSym_dword (s : State) (b : Byte) : (s.countSym b).dword = s.dword := rfl
@[simp] theorem State.countSym_nbits (s : State) (b : Byte) : (s.countSym b).nbits = s.nbits := rfl
@[simp] theorem State.countSym_cur (s : State) (b : Byte) : (s.countSym b).cur = s.cur := rfl
@[simp] theorem State.countSym_prem (s : State) (b : Byte) : (s.countSym b).prem = s.prem := rfl
@[simp] theorem State.countSym_cnt (s : State) (b : Byte) : (s.countSym b).cnt = s.cnt.setIfInBounds b.toNat ((s.cnt[b.toNat]?).getD 0 + 1) := rfl
@[simp] theorem State.countSym_node (s : State) (b : Byte) : (s.countSym b).node = s.node := rfl
@[simp] theorem State.countSym_lut (s : State) (b : Byte) : (s.countSym b).lut = s.lut := rfl
@[simp] theorem State.countSym_inp (s : State) (b : Byte) : (s.countSym b).inp = s.inp := rfl
@[simp] theorem State.countSym_out (s : State) (b : Byte) : (s.countSym b).out = s.out := rfl
@[simp] theorem State.countSym_host (s : State) (b : Byte) : (s.countSym b).host = s.host := rfl
@[simp] theorem State.countSym_offer (s : State) (b : Byte) : (s.countSym b).offer = s.offer := rfl
@[simp] theorem State.countSym_draws (s : State) (b : Byte) : (s.countSym b).draws = s.draws := rfl
@[simp] theorem State.countSym_drawn (s : State) (b : Byte) : (s.countSym b).drawn = s.drawn := rfl
@[simp] theorem State.countSym_unstated (s : State) (b : Byte) : (s.countSym b).unstated = s.unstated := rfl

/-! ### `State.takeLeaf` -/

@[simp] theorem State.takeLeaf_cfg (s : State) : (s.takeLeaf).cfg = s.cfg := rfl
@[simp] theorem State.takeLeaf_status (s : State) : (s.takeLeaf).status = s.status := rfl
@[simp] theorem State.takeLeaf_cause (s : State) : (s.takeLeaf).cause = s.cause := rfl
@[simp] theorem State.takeLeaf_info (s : State) : (s.takeLeaf).info = s.info := rfl
@[simp] theorem State.takeLeaf_flags (s : State) : (s.takeLeaf).flags = s.flags := rfl
@[simp] theorem State.takeLeaf_op (s : State) : (s.takeLeaf).op = s.op := rfl
@[simp] theorem State.takeLeaf_phase (s : State) : (s.takeLeaf).phase = s.phase := rfl
@[simp] theorem State.takeLeaf_inLen (s : State) : (s.takeLeaf).inLen = s.inLen := rfl
@[simp] theorem State.takeLeaf_inPos (s : State) : (s.takeLeaf).inPos = s.inPos := rfl
@[simp] theorem State.takeLeaf_outLen (s : State) : (s.takeLeaf).outLen = s.outLen := rfl
@[simp] theorem State.takeLeaf_n (s : State) : (s.takeLeaf).n = s.n := rfl
@[simp] theorem State.takeLeaf_f (s : State) : (s.takeLeaf).f = s.f := rfl
@[simp] theorem State.takeLeaf_root (s : State) : (s.takeLeaf).root = s.root := rfl
@[simp] theorem State.takeLeaf_lrem (s : State) : (s.takeLeaf).lrem = s.lrem - 1 := rfl
@[simp] theorem State.takeLeaf_qh (s : State) : (s.takeLeaf).qh = s.qh := rfl
@[simp] theorem State.takeLeaf_nt (s : State) : (s.takeLeaf).nt = s.nt := rfl
@[simp] theorem State.takeLeaf_sel (s : State) : (s.takeLeaf).sel = s.lrem - 1 := rfl
@[simp] theorem State.takeLeaf_caI (s : State) : (s.takeLeaf).caI = s.caI := rfl
@[simp] theorem State.takeLeaf_hcI (s : State) : (s.takeLeaf).hcI = s.hcI := rfl
@[simp] theorem State.takeLeaf_acc (s : State) : (s.takeLeaf).acc = s.acc := rfl
@[simp] theorem State.takeLeaf_free (s : State) : (s.takeLeaf).free = s.free := rfl
@[simp] theorem State.takeLeaf_dword (s : State) : (s.takeLeaf).dword = s.dword := rfl
@[simp] theorem State.takeLeaf_nbits (s : State) : (s.takeLeaf).nbits = s.nbits := rfl
@[simp] theorem State.takeLeaf_cur (s : State) : (s.takeLeaf).cur = s.cur := rfl
@[simp] theorem State.takeLeaf_prem (s : State) : (s.takeLeaf).prem = s.prem := rfl
@[simp] theorem State.takeLeaf_cnt (s : State) : (s.takeLeaf).cnt = s.cnt := rfl
@[simp] theorem State.takeLeaf_node (s : State) : (s.takeLeaf).node = s.node := rfl
@[simp] theorem State.takeLeaf_lut (s : State) : (s.takeLeaf).lut = s.lut := rfl
@[simp] theorem State.takeLeaf_inp (s : State) : (s.takeLeaf).inp = s.inp := rfl
@[simp] theorem State.takeLeaf_out (s : State) : (s.takeLeaf).out = s.out := rfl
@[simp] theorem State.takeLeaf_host (s : State) : (s.takeLeaf).host = s.host := rfl
@[simp] theorem State.takeLeaf_offer (s : State) : (s.takeLeaf).offer = s.offer := rfl
@[simp] theorem State.takeLeaf_draws (s : State) : (s.takeLeaf).draws = s.draws := rfl
@[simp] theorem State.takeLeaf_drawn (s : State) : (s.takeLeaf).drawn = s.drawn := rfl
@[simp] theorem State.takeLeaf_unstated (s : State) : (s.takeLeaf).unstated = s.unstated := rfl

/-! ### `State.takePending` -/

@[simp] theorem State.takePending_cfg (s : State) : (s.takePending).cfg = s.cfg := rfl
@[simp] theorem State.takePending_status (s : State) : (s.takePending).status = s.status := rfl
@[simp] theorem State.takePending_cause (s : State) : (s.takePending).cause = s.cause := rfl
@[simp] theorem State.takePending_info (s : State) : (s.takePending).info = s.info := rfl
@[simp] theorem State.takePending_flags (s : State) : (s.takePending).flags = s.flags := rfl
@[simp] theorem State.takePending_op (s : State) : (s.takePending).op = s.op := rfl
@[simp] theorem State.takePending_phase (s : State) : (s.takePending).phase = s.phase := rfl
@[simp] theorem State.takePending_inLen (s : State) : (s.takePending).inLen = s.inLen := rfl
@[simp] theorem State.takePending_inPos (s : State) : (s.takePending).inPos = s.inPos := rfl
@[simp] theorem State.takePending_outLen (s : State) : (s.takePending).outLen = s.outLen := rfl
@[simp] theorem State.takePending_n (s : State) : (s.takePending).n = s.n := rfl
@[simp] theorem State.takePending_f (s : State) : (s.takePending).f = s.f := rfl
@[simp] theorem State.takePending_root (s : State) : (s.takePending).root = s.root := rfl
@[simp] theorem State.takePending_lrem (s : State) : (s.takePending).lrem = s.lrem := rfl
@[simp] theorem State.takePending_qh (s : State) : (s.takePending).qh = s.qh + 1 := rfl
@[simp] theorem State.takePending_nt (s : State) : (s.takePending).nt = s.nt := rfl
@[simp] theorem State.takePending_sel (s : State) : (s.takePending).sel = s.qh := rfl
@[simp] theorem State.takePending_caI (s : State) : (s.takePending).caI = s.caI := rfl
@[simp] theorem State.takePending_hcI (s : State) : (s.takePending).hcI = s.hcI := rfl
@[simp] theorem State.takePending_acc (s : State) : (s.takePending).acc = s.acc := rfl
@[simp] theorem State.takePending_free (s : State) : (s.takePending).free = s.free := rfl
@[simp] theorem State.takePending_dword (s : State) : (s.takePending).dword = s.dword := rfl
@[simp] theorem State.takePending_nbits (s : State) : (s.takePending).nbits = s.nbits := rfl
@[simp] theorem State.takePending_cur (s : State) : (s.takePending).cur = s.cur := rfl
@[simp] theorem State.takePending_prem (s : State) : (s.takePending).prem = s.prem := rfl
@[simp] theorem State.takePending_cnt (s : State) : (s.takePending).cnt = s.cnt := rfl
@[simp] theorem State.takePending_node (s : State) : (s.takePending).node = s.node := rfl
@[simp] theorem State.takePending_lut (s : State) : (s.takePending).lut = s.lut := rfl
@[simp] theorem State.takePending_inp (s : State) : (s.takePending).inp = s.inp := rfl
@[simp] theorem State.takePending_out (s : State) : (s.takePending).out = s.out := rfl
@[simp] theorem State.takePending_host (s : State) : (s.takePending).host = s.host := rfl
@[simp] theorem State.takePending_offer (s : State) : (s.takePending).offer = s.offer := rfl
@[simp] theorem State.takePending_draws (s : State) : (s.takePending).draws = s.draws := rfl
@[simp] theorem State.takePending_drawn (s : State) : (s.takePending).drawn = s.drawn := rfl
@[simp] theorem State.takePending_unstated (s : State) : (s.takePending).unstated = s.unstated := rfl

/-! ### `State.dropBit` -/

@[simp] theorem State.dropBit_cfg (s : State) : (s.dropBit).cfg = s.cfg := rfl
@[simp] theorem State.dropBit_status (s : State) : (s.dropBit).status = s.status := rfl
@[simp] theorem State.dropBit_cause (s : State) : (s.dropBit).cause = s.cause := rfl
@[simp] theorem State.dropBit_info (s : State) : (s.dropBit).info = s.info := rfl
@[simp] theorem State.dropBit_flags (s : State) : (s.dropBit).flags = s.flags := rfl
@[simp] theorem State.dropBit_op (s : State) : (s.dropBit).op = s.op := rfl
@[simp] theorem State.dropBit_phase (s : State) : (s.dropBit).phase = s.phase := rfl
@[simp] theorem State.dropBit_inLen (s : State) : (s.dropBit).inLen = s.inLen := rfl
@[simp] theorem State.dropBit_inPos (s : State) : (s.dropBit).inPos = s.inPos := rfl
@[simp] theorem State.dropBit_outLen (s : State) : (s.dropBit).outLen = s.outLen := rfl
@[simp] theorem State.dropBit_n (s : State) : (s.dropBit).n = s.n := rfl
@[simp] theorem State.dropBit_f (s : State) : (s.dropBit).f = s.f := rfl
@[simp] theorem State.dropBit_root (s : State) : (s.dropBit).root = s.root := rfl
@[simp] theorem State.dropBit_lrem (s : State) : (s.dropBit).lrem = s.lrem := rfl
@[simp] theorem State.dropBit_qh (s : State) : (s.dropBit).qh = s.qh := rfl
@[simp] theorem State.dropBit_nt (s : State) : (s.dropBit).nt = s.nt := rfl
@[simp] theorem State.dropBit_sel (s : State) : (s.dropBit).sel = s.sel := rfl
@[simp] theorem State.dropBit_caI (s : State) : (s.dropBit).caI = s.caI := rfl
@[simp] theorem State.dropBit_hcI (s : State) : (s.dropBit).hcI = s.hcI := rfl
@[simp] theorem State.dropBit_acc (s : State) : (s.dropBit).acc = s.acc := rfl
@[simp] theorem State.dropBit_free (s : State) : (s.dropBit).free = s.free := rfl
@[simp] theorem State.dropBit_dword (s : State) : (s.dropBit).dword = s.dword <<< 1 := rfl
@[simp] theorem State.dropBit_nbits (s : State) : (s.dropBit).nbits = s.nbits - 1 := rfl
@[simp] theorem State.dropBit_cur (s : State) : (s.dropBit).cur = s.cur := rfl
@[simp] theorem State.dropBit_prem (s : State) : (s.dropBit).prem = s.prem := rfl
@[simp] theorem State.dropBit_cnt (s : State) : (s.dropBit).cnt = s.cnt := rfl
@[simp] theorem State.dropBit_node (s : State) : (s.dropBit).node = s.node := rfl
@[simp] theorem State.dropBit_lut (s : State) : (s.dropBit).lut = s.lut := rfl
@[simp] theorem State.dropBit_inp (s : State) : (s.dropBit).inp = s.inp := rfl
@[simp] theorem State.dropBit_out (s : State) : (s.dropBit).out = s.out := rfl
@[simp] theorem State.dropBit_host (s : State) : (s.dropBit).host = s.host := rfl
@[simp] theorem State.dropBit_offer (s : State) : (s.dropBit).offer = s.offer := rfl
@[simp] theorem State.dropBit_draws (s : State) : (s.dropBit).draws = s.draws := rfl
@[simp] theorem State.dropBit_drawn (s : State) : (s.dropBit).drawn = s.drawn := rfl
@[simp] theorem State.dropBit_unstated (s : State) : (s.dropBit).unstated = s.unstated := rfl

/-! ### `State.setPrem` -/

@[simp] theorem State.setPrem_cfg (s : State) (a : Word) (k : Nat) : (s.setPrem a k).cfg = s.cfg := rfl
@[simp] theorem State.setPrem_status (s : State) (a : Word) (k : Nat) : (s.setPrem a k).status = s.status := rfl
@[simp] theorem State.setPrem_cause (s : State) (a : Word) (k : Nat) : (s.setPrem a k).cause = s.cause := rfl
@[simp] theorem State.setPrem_info (s : State) (a : Word) (k : Nat) : (s.setPrem a k).info = s.info := rfl
@[simp] theorem State.setPrem_flags (s : State) (a : Word) (k : Nat) : (s.setPrem a k).flags = s.flags := rfl
@[simp] theorem State.setPrem_op (s : State) (a : Word) (k : Nat) : (s.setPrem a k).op = s.op := rfl
@[simp] theorem State.setPrem_phase (s : State) (a : Word) (k : Nat) : (s.setPrem a k).phase = s.phase := rfl
@[simp] theorem State.setPrem_inLen (s : State) (a : Word) (k : Nat) : (s.setPrem a k).inLen = s.inLen := rfl
@[simp] theorem State.setPrem_inPos (s : State) (a : Word) (k : Nat) : (s.setPrem a k).inPos = s.inPos := rfl
@[simp] theorem State.setPrem_outLen (s : State) (a : Word) (k : Nat) : (s.setPrem a k).outLen = s.outLen := rfl
@[simp] theorem State.setPrem_n (s : State) (a : Word) (k : Nat) : (s.setPrem a k).n = s.n := rfl
@[simp] theorem State.setPrem_f (s : State) (a : Word) (k : Nat) : (s.setPrem a k).f = s.f := rfl
@[simp] theorem State.setPrem_root (s : State) (a : Word) (k : Nat) : (s.setPrem a k).root = s.root := rfl
@[simp] theorem State.setPrem_lrem (s : State) (a : Word) (k : Nat) : (s.setPrem a k).lrem = s.lrem := rfl
@[simp] theorem State.setPrem_qh (s : State) (a : Word) (k : Nat) : (s.setPrem a k).qh = s.qh := rfl
@[simp] theorem State.setPrem_nt (s : State) (a : Word) (k : Nat) : (s.setPrem a k).nt = s.nt := rfl
@[simp] theorem State.setPrem_sel (s : State) (a : Word) (k : Nat) : (s.setPrem a k).sel = s.sel := rfl
@[simp] theorem State.setPrem_caI (s : State) (a : Word) (k : Nat) : (s.setPrem a k).caI = s.caI := rfl
@[simp] theorem State.setPrem_hcI (s : State) (a : Word) (k : Nat) : (s.setPrem a k).hcI = s.hcI := rfl
@[simp] theorem State.setPrem_acc (s : State) (a : Word) (k : Nat) : (s.setPrem a k).acc = s.acc := rfl
@[simp] theorem State.setPrem_free (s : State) (a : Word) (k : Nat) : (s.setPrem a k).free = s.free := rfl
@[simp] theorem State.setPrem_dword (s : State) (a : Word) (k : Nat) : (s.setPrem a k).dword = s.dword := rfl
@[simp] theorem State.setPrem_nbits (s : State) (a : Word) (k : Nat) : (s.setPrem a k).nbits = s.nbits := rfl
@[simp] theorem State.setPrem_cur (s : State) (a : Word) (k : Nat) : (s.setPrem a k).cur = s.cur := rfl
@[simp] theorem State.setPrem_cnt (s : State) (a : Word) (k : Nat) : (s.setPrem a k).cnt = s.cnt := rfl
@[simp] theorem State.setPrem_node (s : State) (a : Word) (k : Nat) : (s.setPrem a k).node = s.node := rfl
@[simp] theorem State.setPrem_lut (s : State) (a : Word) (k : Nat) : (s.setPrem a k).lut = s.lut := rfl
@[simp] theorem State.setPrem_inp (s : State) (a : Word) (k : Nat) : (s.setPrem a k).inp = s.inp := rfl
@[simp] theorem State.setPrem_out (s : State) (a : Word) (k : Nat) : (s.setPrem a k).out = s.out := rfl
@[simp] theorem State.setPrem_host (s : State) (a : Word) (k : Nat) : (s.setPrem a k).host = s.host := rfl
@[simp] theorem State.setPrem_offer (s : State) (a : Word) (k : Nat) : (s.setPrem a k).offer = s.offer := rfl
@[simp] theorem State.setPrem_draws (s : State) (a : Word) (k : Nat) : (s.setPrem a k).draws = s.draws := rfl
@[simp] theorem State.setPrem_drawn (s : State) (a : Word) (k : Nat) : (s.setPrem a k).drawn = s.drawn := rfl

/-- A difference that the rules state. -/
theorem State.setPrem_of_le {s : State} {a : Word} {k : Nat} (h : k ≤ a.toNat) :
    s.setPrem a k = { s with prem := a - BitVec.ofNat 64 k } := by
  simp only [State.setPrem, if_pos h]

theorem State.setPrem_prem_toNat {s : State} {a : Word} {k : Nat} (h : k ≤ a.toNat) :
    (s.setPrem a k).prem.toNat = a.toNat - k := by
  have hk : (BitVec.ofNat 64 k).toNat = k := by
    rw [BitVec.toNat_ofNat, Nat.mod_eq_of_lt (Nat.lt_of_le_of_lt h a.isLt)]
  rw [State.setPrem_of_le h, BitVec.toNat_sub_of_le (by rwa [BitVec.le_def, hk]), hk]

theorem State.setPrem_unstated {s : State} {a : Word} {k : Nat} (h : k ≤ a.toNat) :
    (s.setPrem a k).unstated = s.unstated := by rw [State.setPrem_of_le h]

/-! ### `State.startDecoder` -/

@[simp] theorem State.startDecoder_cfg (s : State) : (s.startDecoder).cfg = s.cfg := rfl
@[simp] theorem State.startDecoder_status (s : State) : (s.startDecoder).status = s.status := rfl
@[simp] theorem State.startDecoder_cause (s : State) : (s.startDecoder).cause = s.cause := rfl
@[simp] theorem State.startDecoder_info (s : State) : (s.startDecoder).info = s.info := rfl
@[simp] theorem State.startDecoder_flags (s : State) : (s.startDecoder).flags = s.flags := rfl
@[simp] theorem State.startDecoder_op (s : State) : (s.startDecoder).op = s.op := rfl
@[simp] theorem State.startDecoder_phase (s : State) : (s.startDecoder).phase = s.phase := rfl
@[simp] theorem State.startDecoder_inLen (s : State) : (s.startDecoder).inLen = s.inLen := rfl
@[simp] theorem State.startDecoder_inPos (s : State) : (s.startDecoder).inPos = s.inPos := rfl
@[simp] theorem State.startDecoder_outLen (s : State) : (s.startDecoder).outLen = s.outLen := rfl
@[simp] theorem State.startDecoder_n (s : State) : (s.startDecoder).n = s.n := rfl
@[simp] theorem State.startDecoder_f (s : State) : (s.startDecoder).f = s.f := rfl
@[simp] theorem State.startDecoder_root (s : State) : (s.startDecoder).root = s.root := rfl
@[simp] theorem State.startDecoder_lrem (s : State) : (s.startDecoder).lrem = s.lrem := rfl
@[simp] theorem State.startDecoder_qh (s : State) : (s.startDecoder).qh = s.qh := rfl
@[simp] theorem State.startDecoder_nt (s : State) : (s.startDecoder).nt = s.nt := rfl
@[simp] theorem State.startDecoder_sel (s : State) : (s.startDecoder).sel = s.sel := rfl
@[simp] theorem State.startDecoder_caI (s : State) : (s.startDecoder).caI = s.caI := rfl
@[simp] theorem State.startDecoder_hcI (s : State) : (s.startDecoder).hcI = s.hcI := rfl
@[simp] theorem State.startDecoder_acc (s : State) : (s.startDecoder).acc = s.acc := rfl
@[simp] theorem State.startDecoder_free (s : State) : (s.startDecoder).free = s.free := rfl
@[simp] theorem State.startDecoder_dword (s : State) : (s.startDecoder).dword = s.dword := rfl
@[simp] theorem State.startDecoder_nbits (s : State) : (s.startDecoder).nbits = 0 := rfl
@[simp] theorem State.startDecoder_cur (s : State) : (s.startDecoder).cur = s.root := rfl
@[simp] theorem State.startDecoder_prem (s : State) : (s.startDecoder).prem = (s.setPrem s.inLen (headerLen s.n.toNat s.f.toNat)).prem := rfl
@[simp] theorem State.startDecoder_cnt (s : State) : (s.startDecoder).cnt = s.cnt := rfl
@[simp] theorem State.startDecoder_node (s : State) : (s.startDecoder).node = s.node := rfl
@[simp] theorem State.startDecoder_lut (s : State) : (s.startDecoder).lut = s.lut := rfl
@[simp] theorem State.startDecoder_inp (s : State) : (s.startDecoder).inp = s.inp := rfl
@[simp] theorem State.startDecoder_out (s : State) : (s.startDecoder).out = s.out := rfl
@[simp] theorem State.startDecoder_host (s : State) : (s.startDecoder).host = s.host := rfl
@[simp] theorem State.startDecoder_offer (s : State) : (s.startDecoder).offer = s.offer := rfl
@[simp] theorem State.startDecoder_draws (s : State) : (s.startDecoder).draws = s.draws := rfl
@[simp] theorem State.startDecoder_drawn (s : State) : (s.startDecoder).drawn = s.drawn := rfl
@[simp] theorem State.startDecoder_unstated (s : State) : s.startDecoder.unstated = (s.setPrem s.inLen (headerLen s.n.toNat s.f.toNat)).unstated := rfl

/-! ### `State.loadWord` -/

@[simp] theorem State.loadWord_cfg (s : State) (v k : Nat) : (s.loadWord v k).cfg = s.cfg := rfl
@[simp] theorem State.loadWord_status (s : State) (v k : Nat) : (s.loadWord v k).status = s.status := rfl
@[simp] theorem State.loadWord_cause (s : State) (v k : Nat) : (s.loadWord v k).cause = s.cause := rfl
@[simp] theorem State.loadWord_info (s : State) (v k : Nat) : (s.loadWord v k).info = s.info := rfl
@[simp] theorem State.loadWord_flags (s : State) (v k : Nat) : (s.loadWord v k).flags = s.flags := rfl
@[simp] theorem State.loadWord_op (s : State) (v k : Nat) : (s.loadWord v k).op = s.op := rfl
@[simp] theorem State.loadWord_phase (s : State) (v k : Nat) : (s.loadWord v k).phase = Phase.bsdBit := rfl
@[simp] theorem State.loadWord_inLen (s : State) (v k : Nat) : (s.loadWord v k).inLen = s.inLen := rfl
@[simp] theorem State.loadWord_inPos (s : State) (v k : Nat) : (s.loadWord v k).inPos = s.inPos + BitVec.ofNat 64 k := rfl
@[simp] theorem State.loadWord_outLen (s : State) (v k : Nat) : (s.loadWord v k).outLen = s.outLen := rfl
@[simp] theorem State.loadWord_n (s : State) (v k : Nat) : (s.loadWord v k).n = s.n := rfl
@[simp] theorem State.loadWord_f (s : State) (v k : Nat) : (s.loadWord v k).f = s.f := rfl
@[simp] theorem State.loadWord_root (s : State) (v k : Nat) : (s.loadWord v k).root = s.root := rfl
@[simp] theorem State.loadWord_lrem (s : State) (v k : Nat) : (s.loadWord v k).lrem = s.lrem := rfl
@[simp] theorem State.loadWord_qh (s : State) (v k : Nat) : (s.loadWord v k).qh = s.qh := rfl
@[simp] theorem State.loadWord_nt (s : State) (v k : Nat) : (s.loadWord v k).nt = s.nt := rfl
@[simp] theorem State.loadWord_sel (s : State) (v k : Nat) : (s.loadWord v k).sel = s.sel := rfl
@[simp] theorem State.loadWord_caI (s : State) (v k : Nat) : (s.loadWord v k).caI = s.caI := rfl
@[simp] theorem State.loadWord_hcI (s : State) (v k : Nat) : (s.loadWord v k).hcI = s.hcI := rfl
@[simp] theorem State.loadWord_acc (s : State) (v k : Nat) : (s.loadWord v k).acc = s.acc := rfl
@[simp] theorem State.loadWord_free (s : State) (v k : Nat) : (s.loadWord v k).free = s.free := rfl
@[simp] theorem State.loadWord_dword (s : State) (v k : Nat) : (s.loadWord v k).dword = leftAlign v k := rfl
@[simp] theorem State.loadWord_nbits (s : State) (v k : Nat) : (s.loadWord v k).nbits = BitVec.ofNat 7 (8 * k) := rfl
@[simp] theorem State.loadWord_cur (s : State) (v k : Nat) : (s.loadWord v k).cur = s.cur := rfl
@[simp] theorem State.loadWord_prem (s : State) (v k : Nat) : (s.loadWord v k).prem = (s.setPrem s.prem k).prem := rfl
@[simp] theorem State.loadWord_cnt (s : State) (v k : Nat) : (s.loadWord v k).cnt = s.cnt := rfl
@[simp] theorem State.loadWord_node (s : State) (v k : Nat) : (s.loadWord v k).node = s.node := rfl
@[simp] theorem State.loadWord_lut (s : State) (v k : Nat) : (s.loadWord v k).lut = s.lut := rfl
@[simp] theorem State.loadWord_inp (s : State) (v k : Nat) : (s.loadWord v k).inp = s.inp := rfl
@[simp] theorem State.loadWord_out (s : State) (v k : Nat) : (s.loadWord v k).out = s.out := rfl
@[simp] theorem State.loadWord_host (s : State) (v k : Nat) : (s.loadWord v k).host = s.host := rfl
@[simp] theorem State.loadWord_offer (s : State) (v k : Nat) : (s.loadWord v k).offer = s.offer := rfl
@[simp] theorem State.loadWord_draws (s : State) (v k : Nat) : (s.loadWord v k).draws = s.draws := rfl
@[simp] theorem State.loadWord_drawn (s : State) (v k : Nat) : (s.loadWord v k).drawn = s.drawn := rfl
@[simp] theorem State.loadWord_unstated (s : State) (v k : Nat) : (s.loadWord v k).unstated = (s.setPrem s.prem k).unstated := rfl

/-! ### `State.storePair` -/

@[simp] theorem State.storePair_cfg (s : State) (sym : Byte) (freq : Word) (w : FieldWidth) : (s.storePair sym freq w).cfg = s.cfg := rfl
@[simp] theorem State.storePair_status (s : State) (sym : Byte) (freq : Word) (w : FieldWidth) : (s.storePair sym freq w).status = s.status := rfl
@[simp] theorem State.storePair_cause (s : State) (sym : Byte) (freq : Word) (w : FieldWidth) : (s.storePair sym freq w).cause = s.cause := rfl
@[simp] theorem State.storePair_info (s : State) (sym : Byte) (freq : Word) (w : FieldWidth) : (s.storePair sym freq w).info = s.info := rfl
@[simp] theorem State.storePair_flags (s : State) (sym : Byte) (freq : Word) (w : FieldWidth) : (s.storePair sym freq w).flags = s.flags := rfl
@[simp] theorem State.storePair_op (s : State) (sym : Byte) (freq : Word) (w : FieldWidth) : (s.storePair sym freq w).op = s.op := rfl
@[simp] theorem State.storePair_phase (s : State) (sym : Byte) (freq : Word) (w : FieldWidth) : (s.storePair sym freq w).phase = Phase.hcGetpair := rfl
@[simp] theorem State.storePair_inLen (s : State) (sym : Byte) (freq : Word) (w : FieldWidth) : (s.storePair sym freq w).inLen = s.inLen := rfl
@[simp] theorem State.storePair_inPos (s : State) (sym : Byte) (freq : Word) (w : FieldWidth) : (s.storePair sym freq w).inPos = s.inPos + 1 + w.setWidth 64 := rfl
@[simp] theorem State.storePair_outLen (s : State) (sym : Byte) (freq : Word) (w : FieldWidth) : (s.storePair sym freq w).outLen = s.outLen := rfl
@[simp] theorem State.storePair_n (s : State) (sym : Byte) (freq : Word) (w : FieldWidth) : (s.storePair sym freq w).n = s.n := rfl
@[simp] theorem State.storePair_f (s : State) (sym : Byte) (freq : Word) (w : FieldWidth) : (s.storePair sym freq w).f = s.f := rfl
@[simp] theorem State.storePair_root (s : State) (sym : Byte) (freq : Word) (w : FieldWidth) : (s.storePair sym freq w).root = s.root := rfl
@[simp] theorem State.storePair_lrem (s : State) (sym : Byte) (freq : Word) (w : FieldWidth) : (s.storePair sym freq w).lrem = s.lrem := rfl
@[simp] theorem State.storePair_qh (s : State) (sym : Byte) (freq : Word) (w : FieldWidth) : (s.storePair sym freq w).qh = s.qh := rfl
@[simp] theorem State.storePair_nt (s : State) (sym : Byte) (freq : Word) (w : FieldWidth) : (s.storePair sym freq w).nt = s.nt := rfl
@[simp] theorem State.storePair_sel (s : State) (sym : Byte) (freq : Word) (w : FieldWidth) : (s.storePair sym freq w).sel = s.sel := rfl
@[simp] theorem State.storePair_caI (s : State) (sym : Byte) (freq : Word) (w : FieldWidth) : (s.storePair sym freq w).caI = s.caI := rfl
@[simp] theorem State.storePair_hcI (s : State) (sym : Byte) (freq : Word) (w : FieldWidth) : (s.storePair sym freq w).hcI = s.hcI + 1 := rfl
@[simp] theorem State.storePair_acc (s : State) (sym : Byte) (freq : Word) (w : FieldWidth) : (s.storePair sym freq w).acc = s.acc := rfl
@[simp] theorem State.storePair_free (s : State) (sym : Byte) (freq : Word) (w : FieldWidth) : (s.storePair sym freq w).free = s.free := rfl
@[simp] theorem State.storePair_dword (s : State) (sym : Byte) (freq : Word) (w : FieldWidth) : (s.storePair sym freq w).dword = s.dword := rfl
@[simp] theorem State.storePair_nbits (s : State) (sym : Byte) (freq : Word) (w : FieldWidth) : (s.storePair sym freq w).nbits = s.nbits := rfl
@[simp] theorem State.storePair_cur (s : State) (sym : Byte) (freq : Word) (w : FieldWidth) : (s.storePair sym freq w).cur = s.cur := rfl
@[simp] theorem State.storePair_prem (s : State) (sym : Byte) (freq : Word) (w : FieldWidth) : (s.storePair sym freq w).prem = s.prem := rfl
@[simp] theorem State.storePair_cnt (s : State) (sym : Byte) (freq : Word) (w : FieldWidth) : (s.storePair sym freq w).cnt = s.cnt := rfl
@[simp] theorem State.storePair_node (s : State) (sym : Byte) (freq : Word) (w : FieldWidth) : (s.storePair sym freq w).node = updNode s.node s.hcI.toNat fun e => e.asLeaf sym freq := rfl
@[simp] theorem State.storePair_lut (s : State) (sym : Byte) (freq : Word) (w : FieldWidth) : (s.storePair sym freq w).lut = s.lut := rfl
@[simp] theorem State.storePair_inp (s : State) (sym : Byte) (freq : Word) (w : FieldWidth) : (s.storePair sym freq w).inp = s.inp := rfl
@[simp] theorem State.storePair_out (s : State) (sym : Byte) (freq : Word) (w : FieldWidth) : (s.storePair sym freq w).out = s.out := rfl
@[simp] theorem State.storePair_host (s : State) (sym : Byte) (freq : Word) (w : FieldWidth) : (s.storePair sym freq w).host = s.host := rfl
@[simp] theorem State.storePair_offer (s : State) (sym : Byte) (freq : Word) (w : FieldWidth) : (s.storePair sym freq w).offer = s.offer := rfl
@[simp] theorem State.storePair_draws (s : State) (sym : Byte) (freq : Word) (w : FieldWidth) : (s.storePair sym freq w).draws = s.draws := rfl
@[simp] theorem State.storePair_drawn (s : State) (sym : Byte) (freq : Word) (w : FieldWidth) : (s.storePair sym freq w).drawn = s.drawn := rfl
@[simp] theorem State.storePair_unstated (s : State) (sym : Byte) (freq : Word) (w : FieldWidth) : (s.storePair sym freq w).unstated = s.unstated := rfl

/-! ### `State.assignCode` -/

@[simp] theorem State.assignCode_cfg (s : State) (sym : Byte) (c : Word) (l : Len) : (s.assignCode sym c l).cfg = s.cfg := rfl
@[simp] theorem State.assignCode_status (s : State) (sym : Byte) (c : Word) (l : Len) : (s.assignCode sym c l).status = s.status := rfl
@[simp] theorem State.assignCode_cause (s : State) (sym : Byte) (c : Word) (l : Len) : (s.assignCode sym c l).cause = s.cause := rfl
@[simp] theorem State.assignCode_info (s : State) (sym : Byte) (c : Word) (l : Len) : (s.assignCode sym c l).info = s.info := rfl
@[simp] theorem State.assignCode_flags (s : State) (sym : Byte) (c : Word) (l : Len) : (s.assignCode sym c l).flags = s.flags := rfl
@[simp] theorem State.assignCode_op (s : State) (sym : Byte) (c : Word) (l : Len) : (s.assignCode sym c l).op = s.op := rfl
@[simp] theorem State.assignCode_phase (s : State) (sym : Byte) (c : Word) (l : Len) : (s.assignCode sym c l).phase = Phase.caWalk := rfl
@[simp] theorem State.assignCode_inLen (s : State) (sym : Byte) (c : Word) (l : Len) : (s.assignCode sym c l).inLen = s.inLen := rfl
@[simp] theorem State.assignCode_inPos (s : State) (sym : Byte) (c : Word) (l : Len) : (s.assignCode sym c l).inPos = s.inPos := rfl
@[simp] theorem State.assignCode_outLen (s : State) (sym : Byte) (c : Word) (l : Len) : (s.assignCode sym c l).outLen = s.outLen := rfl
@[simp] theorem State.assignCode_n (s : State) (sym : Byte) (c : Word) (l : Len) : (s.assignCode sym c l).n = s.n := rfl
@[simp] theorem State.assignCode_f (s : State) (sym : Byte) (c : Word) (l : Len) : (s.assignCode sym c l).f = s.f := rfl
@[simp] theorem State.assignCode_root (s : State) (sym : Byte) (c : Word) (l : Len) : (s.assignCode sym c l).root = s.root := rfl
@[simp] theorem State.assignCode_lrem (s : State) (sym : Byte) (c : Word) (l : Len) : (s.assignCode sym c l).lrem = s.lrem := rfl
@[simp] theorem State.assignCode_qh (s : State) (sym : Byte) (c : Word) (l : Len) : (s.assignCode sym c l).qh = s.qh := rfl
@[simp] theorem State.assignCode_nt (s : State) (sym : Byte) (c : Word) (l : Len) : (s.assignCode sym c l).nt = s.nt := rfl
@[simp] theorem State.assignCode_sel (s : State) (sym : Byte) (c : Word) (l : Len) : (s.assignCode sym c l).sel = s.sel := rfl
@[simp] theorem State.assignCode_caI (s : State) (sym : Byte) (c : Word) (l : Len) : (s.assignCode sym c l).caI = s.caI + 1 := rfl
@[simp] theorem State.assignCode_hcI (s : State) (sym : Byte) (c : Word) (l : Len) : (s.assignCode sym c l).hcI = s.hcI := rfl
@[simp] theorem State.assignCode_acc (s : State) (sym : Byte) (c : Word) (l : Len) : (s.assignCode sym c l).acc = s.acc := rfl
@[simp] theorem State.assignCode_free (s : State) (sym : Byte) (c : Word) (l : Len) : (s.assignCode sym c l).free = s.free := rfl
@[simp] theorem State.assignCode_dword (s : State) (sym : Byte) (c : Word) (l : Len) : (s.assignCode sym c l).dword = s.dword := rfl
@[simp] theorem State.assignCode_nbits (s : State) (sym : Byte) (c : Word) (l : Len) : (s.assignCode sym c l).nbits = s.nbits := rfl
@[simp] theorem State.assignCode_cur (s : State) (sym : Byte) (c : Word) (l : Len) : (s.assignCode sym c l).cur = s.cur := rfl
@[simp] theorem State.assignCode_prem (s : State) (sym : Byte) (c : Word) (l : Len) : (s.assignCode sym c l).prem = s.prem := rfl
@[simp] theorem State.assignCode_cnt (s : State) (sym : Byte) (c : Word) (l : Len) : (s.assignCode sym c l).cnt = s.cnt := rfl
@[simp] theorem State.assignCode_node (s : State) (sym : Byte) (c : Word) (l : Len) : (s.assignCode sym c l).node = updNode s.node s.caI.toNat fun e => { e with code := c, len := l } := rfl
@[simp] theorem State.assignCode_lut (s : State) (sym : Byte) (c : Word) (l : Len) : (s.assignCode sym c l).lut = s.lut.setIfInBounds sym.toNat { valid := true, code := c, len := l } := rfl
@[simp] theorem State.assignCode_inp (s : State) (sym : Byte) (c : Word) (l : Len) : (s.assignCode sym c l).inp = s.inp := rfl
@[simp] theorem State.assignCode_out (s : State) (sym : Byte) (c : Word) (l : Len) : (s.assignCode sym c l).out = s.out := rfl
@[simp] theorem State.assignCode_host (s : State) (sym : Byte) (c : Word) (l : Len) : (s.assignCode sym c l).host = s.host := rfl
@[simp] theorem State.assignCode_offer (s : State) (sym : Byte) (c : Word) (l : Len) : (s.assignCode sym c l).offer = s.offer := rfl
@[simp] theorem State.assignCode_draws (s : State) (sym : Byte) (c : Word) (l : Len) : (s.assignCode sym c l).draws = s.draws := rfl
@[simp] theorem State.assignCode_drawn (s : State) (sym : Byte) (c : Word) (l : Len) : (s.assignCode sym c l).drawn = s.drawn := rfl
@[simp] theorem State.assignCode_unstated (s : State) (sym : Byte) (c : Word) (l : Len) : (s.assignCode sym c l).unstated = s.unstated := rfl

/-! ### `State.startCommand` -/

@[simp] theorem State.startCommand_cfg (s : State) (o : Op) : (s.startCommand o).cfg = s.cfg := rfl
@[simp] theorem State.startCommand_status (s : State) (o : Op) : (s.startCommand o).status = .busy := rfl
@[simp] theorem State.startCommand_cause (s : State) (o : Op) : (s.startCommand o).cause = .none := rfl
@[simp] theorem State.startCommand_info (s : State) (o : Op) : (s.startCommand o).info = 0 := rfl
@[simp] theorem State.startCommand_flags (s : State) (o : Op) : (s.startCommand o).flags = Flags.atStart o s.offer.len := rfl
@[simp] theorem State.startCommand_op (s : State) (o : Op) : (s.startCommand o).op = o := rfl
@[simp] theorem State.startCommand_phase (s : State) (o : Op) : (s.startCommand o).phase = o.firstPhase := rfl
@[simp] theorem State.startCommand_inLen (s : State) (o : Op) : (s.startCommand o).inLen = s.offer.len := rfl
@[simp] theorem State.startCommand_inPos (s : State) (o : Op) : (s.startCommand o).inPos = 0 := rfl
@[simp] theorem State.startCommand_outLen (s : State) (o : Op) : (s.startCommand o).outLen = 0 := rfl
@[simp] theorem State.startCommand_n (s : State) (o : Op) : (s.startCommand o).n = 0 := rfl
@[simp] theorem State.startCommand_f (s : State) (o : Op) : (s.startCommand o).f = 0 := rfl
@[simp] theorem State.startCommand_root (s : State) (o : Op) : (s.startCommand o).root = s.root := rfl
@[simp] theorem State.startCommand_lrem (s : State) (o : Op) : (s.startCommand o).lrem = s.lrem := rfl
@[simp] theorem State.startCommand_qh (s : State) (o : Op) : (s.startCommand o).qh = s.qh := rfl
@[simp] theorem State.startCommand_nt (s : State) (o : Op) : (s.startCommand o).nt = s.nt := rfl
@[simp] theorem State.startCommand_sel (s : State) (o : Op) : (s.startCommand o).sel = s.sel := rfl
@[simp] theorem State.startCommand_caI (s : State) (o : Op) : (s.startCommand o).caI = s.caI := rfl
@[simp] theorem State.startCommand_hcI (s : State) (o : Op) : (s.startCommand o).hcI = s.hcI := rfl
@[simp] theorem State.startCommand_acc (s : State) (o : Op) : (s.startCommand o).acc = s.acc := rfl
@[simp] theorem State.startCommand_free (s : State) (o : Op) : (s.startCommand o).free = s.free := rfl
@[simp] theorem State.startCommand_dword (s : State) (o : Op) : (s.startCommand o).dword = s.dword := rfl
@[simp] theorem State.startCommand_nbits (s : State) (o : Op) : (s.startCommand o).nbits = s.nbits := rfl
@[simp] theorem State.startCommand_cur (s : State) (o : Op) : (s.startCommand o).cur = s.cur := rfl
@[simp] theorem State.startCommand_prem (s : State) (o : Op) : (s.startCommand o).prem = s.prem := rfl
@[simp] theorem State.startCommand_cnt (s : State) (o : Op) : (s.startCommand o).cnt = s.cnt := rfl
@[simp] theorem State.startCommand_node (s : State) (o : Op) : (s.startCommand o).node = s.node := rfl
@[simp] theorem State.startCommand_lut (s : State) (o : Op) : (s.startCommand o).lut = s.lut := rfl
@[simp] theorem State.startCommand_inp (s : State) (o : Op) : (s.startCommand o).inp = s.offer.input := rfl
@[simp] theorem State.startCommand_out (s : State) (o : Op) : (s.startCommand o).out = [] := rfl
@[simp] theorem State.startCommand_host (s : State) (o : Op) : (s.startCommand o).host = s.host := rfl
@[simp] theorem State.startCommand_offer (s : State) (o : Op) : (s.startCommand o).offer = s.offer := rfl
@[simp] theorem State.startCommand_draws (s : State) (o : Op) : (s.startCommand o).draws = s.draws := rfl
@[simp] theorem State.startCommand_drawn (s : State) (o : Op) : (s.startCommand o).drawn = s.drawn := rfl
@[simp] theorem State.startCommand_unstated (s : State) (o : Op) : (s.startCommand o).unstated = s.unstated := rfl

/-! ### `State.resetCore` -/

@[simp] theorem State.resetCore_cfg (s : State) : (s.resetCore).cfg = s.cfg := rfl
@[simp] theorem State.resetCore_status (s : State) : (s.resetCore).status = State.reset.status := rfl
@[simp] theorem State.resetCore_cause (s : State) : (s.resetCore).cause = State.reset.cause := rfl
@[simp] theorem State.resetCore_info (s : State) : (s.resetCore).info = State.reset.info := rfl
@[simp] theorem State.resetCore_flags (s : State) : (s.resetCore).flags = State.reset.flags := rfl
@[simp] theorem State.resetCore_op (s : State) : (s.resetCore).op = State.reset.op := rfl
@[simp] theorem State.resetCore_phase (s : State) : (s.resetCore).phase = State.reset.phase := rfl
@[simp] theorem State.resetCore_inLen (s : State) : (s.resetCore).inLen = State.reset.inLen := rfl
@[simp] theorem State.resetCore_inPos (s : State) : (s.resetCore).inPos = State.reset.inPos := rfl
@[simp] theorem State.resetCore_outLen (s : State) : (s.resetCore).outLen = State.reset.outLen := rfl
@[simp] theorem State.resetCore_n (s : State) : (s.resetCore).n = State.reset.n := rfl
@[simp] theorem State.resetCore_f (s : State) : (s.resetCore).f = State.reset.f := rfl
@[simp] theorem State.resetCore_root (s : State) : (s.resetCore).root = State.reset.root := rfl
@[simp] theorem State.resetCore_lrem (s : State) : (s.resetCore).lrem = State.reset.lrem := rfl
@[simp] theorem State.resetCore_qh (s : State) : (s.resetCore).qh = State.reset.qh := rfl
@[simp] theorem State.resetCore_nt (s : State) : (s.resetCore).nt = State.reset.nt := rfl
@[simp] theorem State.resetCore_sel (s : State) : (s.resetCore).sel = State.reset.sel := rfl
@[simp] theorem State.resetCore_caI (s : State) : (s.resetCore).caI = State.reset.caI := rfl
@[simp] theorem State.resetCore_hcI (s : State) : (s.resetCore).hcI = State.reset.hcI := rfl
@[simp] theorem State.resetCore_acc (s : State) : (s.resetCore).acc = State.reset.acc := rfl
@[simp] theorem State.resetCore_free (s : State) : (s.resetCore).free = State.reset.free := rfl
@[simp] theorem State.resetCore_dword (s : State) : (s.resetCore).dword = State.reset.dword := rfl
@[simp] theorem State.resetCore_nbits (s : State) : (s.resetCore).nbits = State.reset.nbits := rfl
@[simp] theorem State.resetCore_cur (s : State) : (s.resetCore).cur = State.reset.cur := rfl
@[simp] theorem State.resetCore_prem (s : State) : (s.resetCore).prem = State.reset.prem := rfl
@[simp] theorem State.resetCore_cnt (s : State) : (s.resetCore).cnt = State.reset.cnt := rfl
@[simp] theorem State.resetCore_node (s : State) : (s.resetCore).node = State.reset.node := rfl
@[simp] theorem State.resetCore_lut (s : State) : (s.resetCore).lut = State.reset.lut := rfl
@[simp] theorem State.resetCore_inp (s : State) : (s.resetCore).inp = s.inp := rfl
@[simp] theorem State.resetCore_out (s : State) : (s.resetCore).out = s.out := rfl
@[simp] theorem State.resetCore_host (s : State) : (s.resetCore).host = s.host := rfl
@[simp] theorem State.resetCore_offer (s : State) : (s.resetCore).offer = s.offer := rfl
@[simp] theorem State.resetCore_draws (s : State) : (s.resetCore).draws = s.draws := rfl
@[simp] theorem State.resetCore_drawn (s : State) : (s.resetCore).drawn = s.drawn := rfl
@[simp] theorem State.resetCore_unstated (s : State) : (s.resetCore).unstated = s.unstated := rfl

/-! ### `State.afterDraw` -/

@[simp] theorem State.afterDraw_cfg (s : State) : s.afterDraw.cfg = s.cfg := by
  unfold State.afterDraw; split <;> rfl
@[simp] theorem State.afterDraw_status (s : State) : s.afterDraw.status = s.status := by
  unfold State.afterDraw; split <;> rfl
@[simp] theorem State.afterDraw_cause (s : State) : s.afterDraw.cause = s.cause := by
  unfold State.afterDraw; split <;> rfl
@[simp] theorem State.afterDraw_info (s : State) : s.afterDraw.info = s.info := by
  unfold State.afterDraw; split <;> rfl
@[simp] theorem State.afterDraw_flags (s : State) : s.afterDraw.flags = s.flags := by
  unfold State.afterDraw; split <;> rfl
@[simp] theorem State.afterDraw_op (s : State) : s.afterDraw.op = s.op := by
  unfold State.afterDraw; split <;> rfl
@[simp] theorem State.afterDraw_phase (s : State) : s.afterDraw.phase = s.phase := by
  unfold State.afterDraw; split <;> rfl
@[simp] theorem State.afterDraw_inLen (s : State) : s.afterDraw.inLen = s.inLen := by
  unfold State.afterDraw; split <;> rfl
@[simp] theorem State.afterDraw_inPos (s : State) : s.afterDraw.inPos = s.inPos := by
  unfold State.afterDraw; split <;> rfl
@[simp] theorem State.afterDraw_outLen (s : State) : s.afterDraw.outLen = s.outLen := by
  unfold State.afterDraw; split <;> rfl
@[simp] theorem State.afterDraw_n (s : State) : s.afterDraw.n = s.n := by
  unfold State.afterDraw; split <;> rfl
@[simp] theorem State.afterDraw_f (s : State) : s.afterDraw.f = s.f := by
  unfold State.afterDraw; split <;> rfl
@[simp] theorem State.afterDraw_root (s : State) : s.afterDraw.root = s.root := by
  unfold State.afterDraw; split <;> rfl
@[simp] theorem State.afterDraw_lrem (s : State) : s.afterDraw.lrem = s.lrem := by
  unfold State.afterDraw; split <;> rfl
@[simp] theorem State.afterDraw_qh (s : State) : s.afterDraw.qh = s.qh := by
  unfold State.afterDraw; split <;> rfl
@[simp] theorem State.afterDraw_nt (s : State) : s.afterDraw.nt = s.nt := by
  unfold State.afterDraw; split <;> rfl
@[simp] theorem State.afterDraw_sel (s : State) : s.afterDraw.sel = s.sel := by
  unfold State.afterDraw; split <;> rfl
@[simp] theorem State.afterDraw_caI (s : State) : s.afterDraw.caI = s.caI := by
  unfold State.afterDraw; split <;> rfl
@[simp] theorem State.afterDraw_hcI (s : State) : s.afterDraw.hcI = s.hcI := by
  unfold State.afterDraw; split <;> rfl
@[simp] theorem State.afterDraw_acc (s : State) : s.afterDraw.acc = s.acc := by
  unfold State.afterDraw; split <;> rfl
@[simp] theorem State.afterDraw_free (s : State) : s.afterDraw.free = s.free := by
  unfold State.afterDraw; split <;> rfl
@[simp] theorem State.afterDraw_dword (s : State) : s.afterDraw.dword = s.dword := by
  unfold State.afterDraw; split <;> rfl
@[simp] theorem State.afterDraw_nbits (s : State) : s.afterDraw.nbits = s.nbits := by
  unfold State.afterDraw; split <;> rfl
@[simp] theorem State.afterDraw_cur (s : State) : s.afterDraw.cur = s.cur := by
  unfold State.afterDraw; split <;> rfl
@[simp] theorem State.afterDraw_prem (s : State) : s.afterDraw.prem = s.prem := by
  unfold State.afterDraw; split <;> rfl
@[simp] theorem State.afterDraw_cnt (s : State) : s.afterDraw.cnt = s.cnt := by
  unfold State.afterDraw; split <;> rfl
@[simp] theorem State.afterDraw_node (s : State) : s.afterDraw.node = s.node := by
  unfold State.afterDraw; split <;> rfl
@[simp] theorem State.afterDraw_lut (s : State) : s.afterDraw.lut = s.lut := by
  unfold State.afterDraw; split <;> rfl
@[simp] theorem State.afterDraw_inp (s : State) : s.afterDraw.inp = s.inp := by
  unfold State.afterDraw; split <;> rfl
@[simp] theorem State.afterDraw_out (s : State) : s.afterDraw.out = s.out := by
  unfold State.afterDraw; split <;> rfl
@[simp] theorem State.afterDraw_host (s : State) : s.afterDraw.host = s.host := by
  unfold State.afterDraw; split <;> rfl
@[simp] theorem State.afterDraw_offer (s : State) : s.afterDraw.offer = s.offer := by
  unfold State.afterDraw; split <;> rfl
@[simp] theorem State.afterDraw_draws (s : State) : s.afterDraw.draws = s.draws.tail := by
  unfold State.afterDraw; split <;> simp_all
@[simp] theorem State.afterDraw_unstated (s : State) : s.afterDraw.unstated = s.unstated := by
  unfold State.afterDraw; split <;> rfl
theorem State.afterDraw_drawn (s : State) :
    s.afterDraw.drawn = if s.draws = [] then s.drawn + 1 else s.drawn := by
  unfold State.afterDraw; split <;> simp_all

/-- A draw changes the oracle's own fields and nothing else. -/
theorem State.afterDraw_eq (s : State) :
    s.afterDraw = { s with draws := s.afterDraw.draws, drawn := s.afterDraw.drawn } := by
  unfold State.afterDraw; split <;> rfl

end Sys2Proof.Machine
end

