-- ==== Sys2Proof/Laws/Access.lean ====
section
/-! SUPPORT. Chaining, the oracle, `MemRead` and `MemWrite`: once, everything each can do. -/

namespace Sys2Proof.Machine

/-! ### Chaining -/

section
variable {α β : Type}

@[simp] theorem Access.andThen_ok (a : α) (s : State) (k : α → State → Result) :
    (Access.ok a s).andThen k = k a s := rfl

@[simp] theorem Access.andThen_halt (r : Result) (k : α → State → Result) :
    (Access.halt r).andThen k = r := rfl

@[simp] theorem Access.bind_ok (a : α) (s : State) (k : α → State → Access β) :
    (Access.ok a s).bind k = k a s := rfl

@[simp] theorem Access.bind_halt (r : Result) (k : α → State → Access β) :
    (Access.halt r).bind k = .halt r := rfl

@[simp] theorem Access.finish_ok (s : State) : (Access.ok () s).finish = .next s := rfl

@[simp] theorem Access.finish_halt (r : Result) : (Access.halt r).finish = r := rfl

/-- A whole operation answers a next state when its last part does, or a part before it did. -/
theorem Access.andThen_eq_next {x : Access α} {k : α → State → Result} {t : State} :
    x.andThen k = .next t ↔ (∃ a s, x = .ok a s ∧ k a s = .next t) ∨ x = .halt (.next t) := by
  cases x <;> simp

theorem Access.finish_eq_next {x : Access Unit} {t : State} :
    x.finish = .next t ↔ x = .ok () t ∨ x = .halt (.next t) := by
  cases x <;> simp [Access.finish]

theorem Access.bind_eq_ok {x : Access α} {k : α → State → Access β} {b : β} {t : State} :
    x.bind k = .ok b t ↔ ∃ a s, x = .ok a s ∧ k a s = .ok b t := by
  cases x <;> simp

theorem Access.bind_eq_halt {x : Access α} {k : α → State → Access β} {r : Result} :
    x.bind k = .halt r ↔ (∃ a s, x = .ok a s ∧ k a s = .halt r) ∨ x = .halt r := by
  cases x <;> simp

end

/-! ### The oracle -/

/-- The draw depends on the oracle's two fields alone. -/
theorem State.nextDraw_congr {s t : State} (h : t.draws = s.draws) (h' : t.drawn = s.drawn) :
    t.nextDraw = s.nextDraw := by
  simp only [State.nextDraw, h, h']

/-- A draw changes the oracle's two fields alone. -/
theorem State.afterDraw_core (s : State) :
    s.afterDraw = { s with draws := s.afterDraw.draws, drawn := s.afterDraw.drawn } := by
  unfold State.afterDraw
  split <;> rfl

/-- Appending and drawing do not meet. -/
theorem State.afterDraw_appendOut (s : State) (bs : List Byte) :
    (s.appendOut bs).afterDraw = s.afterDraw.appendOut bs := by
  unfold State.afterDraw
  cases hd : s.draws <;> simp [State.appendOut, hd]

theorem State.nextDraw_appendOut (s : State) (bs : List Byte) : (s.appendOut bs).nextDraw = s.nextDraw :=
  State.nextDraw_congr rfl rfl

/-! ### `MemRead` (R68) -/

/-- A read that passes gives the bytes. -/
theorem State.memRead_pass {s : State} {a n : Nat} {bs : List Byte} (h1 : 1 ≤ n) (h8 : n ≤ 8)
    (ho : s.flags.inOpen = true) (hl : a + n ≤ s.inLen.toNat) (hd : s.nextDraw = .passes)
    (hb : s.inp.bytesAt a n = some bs) : s.memRead a n = .ok bs s.afterDraw := by
  unfold State.memRead
  rw [if_neg (by rw [Config.wordBytes_eq]; omega), if_neg (by simp [ho]), if_neg (by omega), hd]
  simp only [hb]

/-- A read that the oracle fails ends in fault entry. -/
theorem State.memRead_fail {s : State} {a n p : Nat} (h1 : 1 ≤ n) (h8 : n ≤ 8)
    (ho : s.flags.inOpen = true) (hl : a + n ≤ s.inLen.toNat) (hd : s.nextDraw = .fails p) :
    s.memRead a n = .halt (.next (s.afterDraw.raise .ioError 0)) := by
  unfold State.memRead
  rw [if_neg (by rw [Config.wordBytes_eq]; omega), if_neg (by simp [ho]), if_neg (by omega), hd]

/-- A read of bytes the host did not hand over is refused. -/
theorem State.memRead_missing {s : State} {a n : Nat} (h1 : 1 ≤ n) (h8 : n ≤ 8)
    (ho : s.flags.inOpen = true) (hl : a + n ≤ s.inLen.toNat) (hd : s.nextDraw = .passes)
    (hb : s.inp.bytesAt a n = none) : s.memRead a n = .halt (.refused .inputMissing) := by
  unfold State.memRead
  rw [if_neg (by rw [Config.wordBytes_eq]; omega), if_neg (by simp [ho]), if_neg (by omega), hd]
  simp only [hb]

theorem State.memRead_closed {s : State} {a n : Nat} (h1 : 1 ≤ n) (h8 : n ≤ 8)
    (ho : s.flags.inOpen = false) : s.memRead a n = .halt (.fault .streamClosed) := by
  unfold State.memRead
  rw [if_neg (by rw [Config.wordBytes_eq]; omega), if_pos ho]

theorem State.memRead_pastEnd {s : State} {a n : Nat} (h1 : 1 ≤ n) (h8 : n ≤ 8)
    (ho : s.flags.inOpen = true) (hl : s.inLen.toNat < a + n) :
    s.memRead a n = .halt (.fault .readPastEnd) := by
  unfold State.memRead
  rw [if_neg (by rw [Config.wordBytes_eq]; omega), if_neg (by simp [ho]), if_pos hl]

/-- A read that yields bytes met its preconditions and changed nothing but the oracle. -/
theorem State.memRead_eq_ok {s t : State} {a n : Nat} {bs : List Byte}
    (h : s.memRead a n = .ok bs t) :
    t = s.afterDraw ∧ s.inp.bytesAt a n = some bs ∧ 1 ≤ n ∧ n ≤ 8 ∧ s.flags.inOpen = true ∧
      a + n ≤ s.inLen.toNat ∧ s.nextDraw = .passes := by
  unfold State.memRead at h
  split at h
  · simp at h
  · split at h
    · simp at h
    · split at h
      · simp at h
      · split at h
        · simp at h
        · rename_i hw h2 h3 _ hd
          split at h
          · rename_i bs' hb
            cases h
            rw [Config.wordBytes_eq] at hw
            exact ⟨rfl, hb, by omega, by omega, by simpa using h2, by omega, hd⟩
          · simp at h

/-- A read that ends the operation with a next state has failed. -/
theorem State.memRead_eq_halt {s t : State} {a n : Nat} (h : s.memRead a n = .halt (.next t)) :
    t = s.afterDraw.raise .ioError 0 := by
  unfold State.memRead at h
  split at h
  · simp at h
  · split at h
    · simp at h
    · split at h
      · simp at h
      · split at h
        · simpa using h.symm
        · split at h <;> simp at h

/-! ### `MemWrite` (R69) -/

/-- A write that passes appends every byte. -/
theorem State.memWrite_pass {s : State} {bs : List Byte} (h1 : 1 ≤ bs.length) (h8 : bs.length ≤ 8)
    (hd : s.nextDraw = .passes) : s.memWrite bs = .ok () (s.afterDraw.appendOut bs) := by
  unfold State.memWrite
  rw [if_neg (by rw [Config.wordBytes_eq]; omega), hd]

/-- A write that the oracle fails appends a proper prefix and ends in fault entry. -/
theorem State.memWrite_fail {s : State} {bs : List Byte} {p : Nat} (h1 : 1 ≤ bs.length)
    (h8 : bs.length ≤ 8) (hd : s.nextDraw = .fails p) :
    s.memWrite bs =
      .halt (.next ((s.afterDraw.appendOut (bs.take (landedBytes p bs.length))).raise .ioError 1)) := by
  unfold State.memWrite
  rw [if_neg (by rw [Config.wordBytes_eq]; omega), hd]

theorem landedBytes_lt {p n : Nat} (h : 1 ≤ n) : landedBytes p n < n := by
  unfold landedBytes
  omega

theorem landedBytes_le (p n : Nat) : landedBytes p n ≤ p := Nat.min_le_left _ _

/-- A write that goes on has appended every byte. -/
theorem State.memWrite_eq_ok {s t : State} {bs : List Byte} {u : Unit}
    (h : s.memWrite bs = .ok u t) : t = s.afterDraw.appendOut bs ∧ s.nextDraw = .passes := by
  unfold State.memWrite at h
  split at h
  · simp at h
  · split at h
    · simp_all
    · simp at h

/-- A write that ends the operation with a next state has failed. -/
theorem State.memWrite_eq_halt {s t : State} {bs : List Byte} (h : s.memWrite bs = .halt (.next t)) :
    ∃ k < bs.length, t = (s.afterDraw.appendOut (bs.take k)).raise .ioError 1 := by
  unfold State.memWrite at h
  split at h
  · simp at h
  · rename_i h1
    rw [Config.wordBytes_eq] at h1
    split at h
    · simp at h
    · rename_i p hd
      refine ⟨landedBytes p bs.length, landedBytes_lt (by omega), ?_⟩
      simpa using h.symm

end Sys2Proof.Machine
end

