-- ==== Sys2Proof/Laws/Node.lean ====
section
/-! SUPPORT. The node store: what a write to an entry, and a run of writes to consecutive entries, leaves in
every entry. -/

namespace Sys2Proof.Machine

theorem updNode_getElem? (v : Vector NodeEntry 509) (i j : Nat) (g : NodeEntry → NodeEntry) :
    (updNode v i g)[j]? = if j = i then v[i]?.map g else v[j]? := by
  unfold updNode
  by_cases hi : i < 509
  · rw [Vector.getElem?_eq_getElem hi]
    by_cases hj : j = i
    · subst hj
      simp [hi]
    · have hj' : ¬ i = j := fun e => hj e.symm
      simp [hj, hj']
  · have hn : v[i]? = none := Vector.getElem?_eq_none (by omega)
    rw [hn]
    by_cases hj : j = i
    · subst hj
      simp [hn]
    · simp [hj]

/-- Every index below `ARENA_SIZE` has an entry. -/
theorem State.nodeAt_isSome (s : State) (i : Idx) : (s.nodeAt i).isSome ↔ i.toNat < 509 := by
  unfold State.nodeAt
  rw [Option.isSome_iff_ne_none, Ne, Vector.getElem?_eq_none_iff]
  omega

theorem State.exists_nodeAt (s : State) {i : Idx} (h : i.toNat < 509) : ∃ e, s.nodeAt i = some e :=
  Option.isSome_iff_exists.mp ((s.nodeAt_isSome i).mpr h)

/-- An entry that exists, after an update. -/
theorem State.nodeAt_setNode (s : State) (i j : Idx) (g : NodeEntry → NodeEntry) :
    (s.setNode i g).nodeAt j = if j = i then (s.nodeAt i).map g else s.nodeAt j := by
  unfold State.nodeAt
  simp only [State.setNode_node, updNode_getElem?, BitVec.toNat_inj]

theorem placeLeaves_getElem?_below (l : List (Byte × Word)) (j i : Nat) (v : Vector NodeEntry 509)
    (h : i < j) : (placeLeaves l j v)[i]? = v[i]? := by
  induction l generalizing j v with
  | nil => rfl
  | cons x rest ih =>
    obtain ⟨sym, freq⟩ := x
    simp only [placeLeaves]
    rw [ih _ _ (by omega), updNode_getElem?, if_neg (by omega)]

/-- Entry `j + k` holds leaf `k` of the list, the entries around them stay. -/
theorem placeLeaves_getElem? (l : List (Byte × Word)) (j i : Nat) (v : Vector NodeEntry 509) :
    (placeLeaves l j v)[i]? =
      if i < j then v[i]?
      else
        match l[i - j]? with
        | some x => v[i]?.map fun e => e.asLeaf x.1 x.2
        | none => v[i]? := by
  induction l generalizing j v with
  | nil => simp [placeLeaves]
  | cons x rest ih =>
    obtain ⟨sym, freq⟩ := x
    simp only [placeLeaves]
    rw [ih]
    by_cases h1 : i < j
    · rw [if_pos (by omega), if_pos h1, updNode_getElem?, if_neg (by omega)]
    · rw [if_neg h1]
      by_cases h2 : i = j
      · subst h2
        rw [if_pos (by omega), updNode_getElem?, if_pos rfl]
        simp
      · rw [if_neg (by omega), show i - j = (i - (j + 1)) + 1 by omega, List.getElem?_cons_succ]
        simp only [updNode_getElem?, if_neg h2]

/-- Entry `j + k` holds entry `k` of the list, the entries around them stay. -/
theorem placeEntries_getElem? (l : List NodeEntry) (j i : Nat) (v : Vector NodeEntry 509) :
    (placeEntries l j v)[i]? =
      if i < j then v[i]?
      else
        match l[i - j]? with
        | some x => if i < 509 then some x else none
        | none => v[i]? := by
  induction l generalizing j v with
  | nil => simp [placeEntries]
  | cons x rest ih =>
    simp only [placeEntries]
    rw [ih]
    by_cases h1 : i < j
    · rw [if_pos (by omega), if_pos h1]
      simp [show ¬ j = i by omega]
    · rw [if_neg h1]
      by_cases h2 : i = j
      · subst h2
        rw [if_pos (by omega)]
        simp [Vector.getElem?_setIfInBounds]
      · rw [if_neg (by omega), show i - j = (i - (j + 1)) + 1 by omega, List.getElem?_cons_succ]
        simp [show ¬ j = i by omega]

/-- The leaves of a state, by index. -/
theorem State.leaves_getElem? (s : State) (i : Nat) :
    s.leaves[i]? = if i < s.n.toNat then s.node[i]? else none := by
  unfold State.leaves
  rw [List.getElem?_take]
  simp

theorem State.leaves_length (s : State) : s.leaves.length = s.n.toNat := by
  have := s.n.isLt
  unfold State.leaves
  simp
  omega

/-- Entries `0 .. N-1` placed back are the leaves; the rest of the store stays. -/
theorem placeEntries_leaves (s : State) (l : List NodeEntry) (hl : l.length = s.n.toNat) :
    (placeEntries l 0 s.node).toList.take s.n.toNat = l ∧
      ∀ i, s.n.toNat ≤ i → (placeEntries l 0 s.node)[i]? = s.node[i]? := by
  have hn := s.n.isLt
  constructor
  · apply List.ext_getElem?
    intro i
    rw [List.getElem?_take]
    by_cases hi : i < s.n.toNat
    · rw [if_pos hi, Vector.getElem?_toList, placeEntries_getElem?]
      have h : l[i]? = some l[i] := List.getElem?_eq_getElem (by omega)
      simp only [Nat.not_lt_zero, if_false, Nat.sub_zero, h]
      rw [if_pos (by omega)]
    · rw [if_neg hi, List.getElem?_eq_none (by omega)]
  · intro i hi
    rw [placeEntries_getElem?]
    have h : l[i]? = none := List.getElem?_eq_none (by omega)
    simp only [Nat.not_lt_zero, if_false, Nat.sub_zero, h]

end Sys2Proof.Machine
end

