-- ==== Sys2Proof/Laws/BitWalk.lean ====
section
/-! SUPPORT. `BSD.LEAF` (R176) and one edge of the walk (R178): once, everything each can do. -/

namespace Sys2Proof.Machine

/-! ### `BSD.LEAF` -/

theorem emitLeaf_sentinel {s : State} {e : NodeEntry} (he : s.nodeAt s.cur = some e)
    (hs : e.sym = 0) : emitLeaf s = .ok true (s.setPhase Phase.close) := by
  unfold emitLeaf
  simp only [he]
  exact if_pos hs

theorem emitLeaf_symbol {s : State} {e : NodeEntry} (he : s.nodeAt s.cur = some e) (hs : e.sym ≠ 0) :
    emitLeaf s = (s.memWrite [e.sym]).bind fun _ t => .ok false { t with cur := t.root } := by
  unfold emitLeaf
  simp only [he]
  exact if_neg hs

theorem emitLeaf_pass {s : State} {e : NodeEntry} (he : s.nodeAt s.cur = some e) (hs : e.sym ≠ 0)
    (hd : s.nextDraw = .passes) :
    emitLeaf s = .ok false { s.afterDraw.appendOut [e.sym] with cur := s.root } := by
  rw [emitLeaf_symbol he hs, State.memWrite_pass (by simp) (by simp) hd]
  simp

theorem emitLeaf_fail {s : State} {e : NodeEntry} {p : Nat} (he : s.nodeAt s.cur = some e)
    (hs : e.sym ≠ 0) (hd : s.nextDraw = .fails p) :
    emitLeaf s = .halt (.next ((s.afterDraw.appendOut []).raise .ioError 1)) := by
  rw [emitLeaf_symbol he hs, State.memWrite_fail (by simp) (by simp) hd]
  simp [landedBytes]

/-- A leaf that let decoding go on or stop. -/
theorem emitLeaf_eq_ok {s t : State} {b : Bool} (h : emitLeaf s = .ok b t) :
    ∃ e, s.nodeAt s.cur = some e ∧
      ((b = true ∧ e.sym = 0 ∧ t = s.setPhase Phase.close) ∨
        (b = false ∧ e.sym ≠ 0 ∧ s.nextDraw = .passes ∧
          t = { s.afterDraw.appendOut [e.sym] with cur := s.root })) := by
  cases he : s.nodeAt s.cur with
  | none => simp [emitLeaf, he] at h
  | some e =>
    refine ⟨e, rfl, ?_⟩
    by_cases hs : e.sym = 0
    · rw [emitLeaf_sentinel he hs] at h
      cases h
      exact .inl ⟨rfl, hs, rfl⟩
    · rw [emitLeaf_symbol he hs] at h
      obtain ⟨_, t', h1, h2⟩ := Access.bind_eq_ok.mp h
      obtain ⟨rfl, hd⟩ := State.memWrite_eq_ok h1
      cases h2
      exact .inr ⟨rfl, hs, hd, by simp⟩

/-- A leaf that ended the operation with a next state failed to append its byte. -/
theorem emitLeaf_eq_halt {s t : State} (h : emitLeaf s = .halt (.next t)) :
    ∃ e, s.nodeAt s.cur = some e ∧ e.sym ≠ 0 ∧ t = (s.afterDraw.appendOut []).raise .ioError 1 := by
  cases he : s.nodeAt s.cur with
  | none => simp [emitLeaf, he] at h
  | some e =>
    refine ⟨e, rfl, ?_⟩
    by_cases hs : e.sym = 0
    · rw [emitLeaf_sentinel he hs] at h
      simp at h
    · rw [emitLeaf_symbol he hs] at h
      rcases Access.bind_eq_halt.mp h with ⟨_, _, _, h2⟩ | h1
      · simp at h2
      · obtain ⟨k, hk, rfl⟩ := State.memWrite_eq_halt h1
        have : k = 0 := by simpa using hk
        subst this
        exact ⟨hs, rfl⟩

/-! ### One edge -/

theorem walkBit_fromLeaf {s : State} {bit : Bool} {e : NodeEntry} (he : s.nodeAt s.cur = some e)
    (hk : e.kind = .leaf) : walkBit bit s = .halt (.fault .walkFromLeaf) := by
  unfold walkBit
  simp [he, hk]

theorem walkBit_inner {s : State} {bit : Bool} {e d : NodeEntry} (he : s.nodeAt s.cur = some e)
    (hk : e.kind = .internal) (hd : s.nodeAt (if bit then e.right else e.left) = some d)
    (hdk : d.kind = .internal) :
    walkBit bit s = .ok false { s with cur := if bit then e.right else e.left } := by
  unfold walkBit
  simp [he, hk, hd, hdk]

theorem walkBit_leaf {s : State} {bit : Bool} {e d : NodeEntry} (he : s.nodeAt s.cur = some e)
    (hk : e.kind = .internal) (hd : s.nodeAt (if bit then e.right else e.left) = some d)
    (hdk : d.kind = .leaf) :
    walkBit bit s = emitLeaf { s with cur := if bit then e.right else e.left } := by
  unfold walkBit
  simp [he, hk, hd, hdk]

/-- An edge that was walked: from an internal node to one of its children, which is an internal node or a
leaf that `BSD.LEAF` took. -/
theorem walkBit_eq {s : State} {bit : Bool} {x : Access Bool} (h : walkBit bit s = x)
    (hx : (∃ b t, x = .ok b t) ∨ ∃ t, x = .halt (.next t)) :
    ∃ e d, s.nodeAt s.cur = some e ∧ e.kind = .internal ∧
      s.nodeAt (if bit then e.right else e.left) = some d ∧
      ((d.kind = .internal ∧ x = .ok false { s with cur := if bit then e.right else e.left }) ∨
        (d.kind = .leaf ∧ x = emitLeaf { s with cur := if bit then e.right else e.left })) := by
  subst h
  cases he : s.nodeAt s.cur with
  | none => simp [walkBit, he] at hx
  | some e =>
    cases hk : e.kind with
    | leaf => simp [walkBit, he, hk] at hx
    | internal =>
      cases hd : s.nodeAt (if bit then e.right else e.left) with
      | none => simp [walkBit, he, hk, hd] at hx
      | some d =>
        cases hdk : d.kind with
        | internal => exact ⟨e, d, rfl, hk, hd, .inl ⟨hdk, walkBit_inner he hk hd hdk⟩⟩
        | leaf => exact ⟨e, d, rfl, hk, hd, .inr ⟨hdk, walkBit_leaf he hk hd hdk⟩⟩

/-! ### Frames -/

/-- What `BSD.LEAF` changes: `PHASE` or `OUT` and the cursor. -/
theorem emitLeaf_frame {s t : State} {b : Bool} (h : emitLeaf s = .ok b t) :
    t = { s with
      phase := t.phase, out := t.out, outLen := t.outLen, cur := t.cur, draws := t.draws
      drawn := t.drawn } := by
  obtain ⟨e, -, h⟩ := emitLeaf_eq_ok h
  rcases h with ⟨-, -, rfl⟩ | ⟨-, -, -, rfl⟩ <;> simp [State.appendOut, State.setPhase]

/-- What an edge changes where it goes on or stops. -/
theorem walkBit_frame {s t : State} {bit b : Bool} (h : walkBit bit s = .ok b t) :
    t = { s with
      phase := t.phase, out := t.out, outLen := t.outLen, cur := t.cur, draws := t.draws
      drawn := t.drawn } := by
  obtain ⟨e, d, -, -, -, h'⟩ := walkBit_eq h (.inl ⟨b, t, rfl⟩)
  rcases h' with ⟨-, h'⟩ | ⟨-, h'⟩
  · cases h'
    rfl
  · have h := emitLeaf_frame h'.symm
    exact h

/-- What an edge leaves where its leaf could not be appended: fault entry from a state that differs in the
cursor alone. -/
theorem walkBit_halt_frame {s t : State} {bit : Bool} (h : walkBit bit s = .halt (.next t)) :
    ∃ u : State, u = { s with cur := u.cur, draws := u.draws, drawn := u.drawn } ∧
      t = u.raise .ioError 1 := by
  obtain ⟨e, d, -, -, -, h'⟩ := walkBit_eq h (.inr ⟨t, rfl⟩)
  rcases h' with ⟨-, h'⟩ | ⟨-, h'⟩
  · simp at h'
  · obtain ⟨x, -, -, rfl⟩ := emitLeaf_eq_halt h'.symm
    refine ⟨_, ?_, rfl⟩
    simp [State.appendOut]

end Sys2Proof.Machine
end

