-- ==== Sys2Proof/Laws/Bytes.lean ====
section
/-! SUPPORT. The byte orders and the bit lists: `ser` and `deser` undo each other, and so do the bits of a
code and the value of a bit list. -/

namespace Sys2Proof

/-! ### Bytes -/

@[simp] theorem serLE_length (k v : Nat) : (serLE k v).length = k := by
  induction k generalizing v <;> simp_all [serLE]

@[simp] theorem ser_length (v k : Nat) (o : ByteOrder) : (ser v k o).length = k := by
  cases o <;> simp [ser]

theorem deserLE_lt (bs : List Byte) : deserLE bs < 2 ^ (8 * bs.length) := by
  induction bs with
  | nil => simp [deserLE]
  | cons b bs ih =>
    have hb := b.isLt
    simp only [deserLE, List.length_cons, Nat.mul_add, Nat.pow_add]
    omega

theorem deserLE_serLE (k v : Nat) (h : v < 2 ^ (8 * k)) : deserLE (serLE k v) = v := by
  induction k generalizing v with
  | zero => simp_all [serLE, deserLE]
  | succ k ih =>
    have h' : v / 256 < 2 ^ (8 * k) := by
      rw [Nat.mul_add, Nat.pow_add] at h
      omega
    simp only [serLE, deserLE, ih _ h', BitVec.toNat_ofNat]
    omega

theorem serLE_deserLE (bs : List Byte) : serLE bs.length (deserLE bs) = bs := by
  induction bs with
  | nil => rfl
  | cons b bs ih =>
    have hb := b.isLt
    have h1 : (b.toNat + 256 * deserLE bs) / 256 = deserLE bs := by omega
    have h2 : BitVec.ofNat 8 (b.toNat + 256 * deserLE bs) = b := by
      apply BitVec.eq_of_toNat_eq
      simp only [BitVec.toNat_ofNat]
      omega
    simp only [List.length_cons, deserLE, serLE, h1, h2, ih]

/-- `deser` undoes `ser` on every value that fits. -/
theorem deser_ser (v k : Nat) (o : ByteOrder) (h : v < 2 ^ (8 * k)) : deser (ser v k o) o = v := by
  cases o <;> simp [deser, ser, deserLE_serLE, h]

/-- `ser` undoes `deser` on every byte list. -/
theorem ser_deser (bs : List Byte) (o : ByteOrder) : ser (deser bs o) bs.length o = bs := by
  cases o with
  | le => exact serLE_deserLE bs
  | be =>
    have h := serLE_deserLE bs.reverse
    rw [List.length_reverse] at h
    simp [deser, ser, h]

theorem deser_lt (bs : List Byte) (o : ByteOrder) : deser bs o < 2 ^ (8 * bs.length) := by
  cases o with
  | le => exact deserLE_lt bs
  | be => simpa [deser] using deserLE_lt bs.reverse

/-- The value of at most 8 bytes fits in a word. -/
theorem deser_lt_word (bs : List Byte) (o : ByteOrder) (h : bs.length ≤ 8) : deser bs o < 2 ^ 64 :=
  Nat.lt_of_lt_of_le (deser_lt bs o) (Nat.pow_le_pow_right (by decide) (by omega))

/-! ### Bits -/

@[simp] theorem codeBits_length (k c : Nat) : (codeBits k c).length = k := by
  induction k generalizing c <;> simp_all [codeBits]

/-- Bit `j` of the list, counted from its front, is bit `k-1-j` of the value. -/
theorem codeBits_getElem (k c j : Nat) (h : j < (codeBits k c).length) :
    (codeBits k c)[j] = c.testBit (k - 1 - j) := by
  induction k generalizing j with
  | zero => simp at h
  | succ k ih =>
    cases j with
    | zero => simp [codeBits]
    | succ j =>
      have hj : j < (codeBits k c).length := by simpa using h
      simp only [codeBits, List.getElem_cons_succ, ih j hj]
      congr 1
      omega

theorem bitsValue_lt (bs : List Bool) : bitsValue bs < 2 ^ bs.length := by
  induction bs with
  | nil => simp [bitsValue]
  | cons b bs ih => cases b <;> simp [bitsValue, Nat.pow_succ] <;> omega

/-- Bit `j` of the value is bit `j` from the back of the list. -/
theorem bitsValue_testBit (bs : List Bool) (j : Nat) (h : j < bs.length) :
    (bitsValue bs).testBit j = bs[bs.length - 1 - j] := by
  induction bs with
  | nil => simp at h
  | cons b bs ih =>
    have hlt := bitsValue_lt bs
    simp only [bitsValue, List.length_cons, Nat.add_sub_cancel]
    rw [Nat.mul_comm, Nat.testBit_two_pow_mul_add _ hlt]
    by_cases hj : j < bs.length
    · rw [if_pos hj, ih hj]
      have : bs.length - j = (bs.length - 1 - j) + 1 := by omega
      simp [this]
    · have : j = bs.length := by simp at h; omega
      subst this
      cases b <;> simp

/-- The value of a list gives the list back. -/
theorem codeBits_bitsValue (bs : List Bool) : codeBits bs.length (bitsValue bs) = bs := by
  apply List.ext_getElem (by simp)
  intro j h1 h2
  rw [codeBits_getElem, bitsValue_testBit _ _ (by omega)]
  congr 1
  omega

/-- The bits of a value that fits give the value back. -/
theorem bitsValue_codeBits (k c : Nat) (h : c < 2 ^ k) : bitsValue (codeBits k c) = c := by
  apply Nat.eq_of_testBit_eq
  intro j
  by_cases hj : j < k
  · rw [bitsValue_testBit _ _ (by simpa using hj), codeBits_getElem]
    congr 1
    simp only [codeBits_length]
    omega
  · have hb := bitsValue_lt (codeBits k c)
    rw [codeBits_length] at hb
    have hle : 2 ^ k ≤ 2 ^ j := Nat.pow_le_pow_right (by decide) (by omega)
    rw [Nat.testBit_lt_two_pow (by omega), Nat.testBit_lt_two_pow (by omega)]

/-- Two lists of bits of one value, end to end. -/
theorem codeBits_add (a b c : Nat) : codeBits (a + b) c = codeBits a (c / 2 ^ b) ++ codeBits b c := by
  induction a with
  | zero => simp [codeBits]
  | succ a ih =>
    rw [Nat.add_right_comm]
    simp only [codeBits, ih, List.cons_append]
    congr 1
    rw [Nat.testBit_div_two_pow]

/-- Only the bits below `k` matter. -/
theorem codeBits_mod (k c : Nat) : codeBits k (c % 2 ^ k) = codeBits k c := by
  apply List.ext_getElem (by simp)
  intro j h1 h2
  have : j < k := by simpa using h1
  rw [codeBits_getElem, codeBits_getElem, Nat.testBit_mod_two_pow]
  simp
  omega

theorem codeBits_zero (k : Nat) : codeBits k 0 = List.replicate k false := by
  induction k <;> simp_all [codeBits, List.replicate_succ]

end Sys2Proof
end

