-- ==== Sys2Proof/Laws/Put.lean ====
section
/-! SUPPORT. `BSE.PUT` (R163): once, everything it can do. -/

namespace Sys2Proof.Machine

@[simp] theorem wordBytes_length (cfg : Config) (w : Word) : (wordBytes cfg w).length = 8 := by
  simp [wordBytes]

@[simp] theorem tailBytes_length (cfg : Config) (w : Word) (k : Nat) :
    (tailBytes cfg w k).length = k := by
  simp [tailBytes]

@[simp] theorem freqBytes_length (cfg : Config) (freq : Word) (f : FieldWidth) :
    (freqBytes cfg freq f).length = f.toNat := by
  simp [freqBytes]

theorem codeFits_iff {c : Word} {len : Len} :
    codeFits c len = true ↔ len.toNat ≤ 64 ∧ c.toNat < 2 ^ len.toNat := by
  unfold codeFits
  rw [Bool.and_eq_true, decide_eq_true_iff, decide_eq_true_iff]
  rfl

/-- The accumulator after a code that fits. -/
def State.putFit (s : State) (v : Word) (l : Len) : State :=
  { s with acc := s.acc ||| (v <<< (s.free.toNat - l.toNat)), free := s.free - l }

/-- The accumulator after a code that is split, `r` bits of it left over. -/
def State.putRest (s : State) (v : Word) (r : Nat) : State :=
  { s with acc := (v &&& lowMask r) <<< (64 - r), free := BitVec.ofNat 7 (64 - r) }

/-- The word a split code completes. -/
def State.fullWord (s : State) (v : Word) (l : Len) : Word :=
  s.acc ||| (v >>> (l.toNat - s.free.toNat))

theorem putCode_fit {s : State} {v : Word} {l : Len} (hf : s.free.toNat ≤ 64)
    (hv : codeFits v l = true) (hl : l.toNat ≤ s.free.toNat) :
    putCode v l s = .ok () (s.putFit v l) := by
  unfold putCode
  rw [if_neg (by simp [hv]; omega), if_pos hl]
  rfl

/-- The accumulator filled by the high part of a split code, before its word goes out. -/
def State.putFull (s : State) (v : Word) (l : Len) : State := { s with acc := s.fullWord v l }

@[simp] theorem State.putFull_nextDraw (s : State) (v : Word) (l : Len) :
    (s.putFull v l).nextDraw = s.nextDraw := rfl

@[simp] theorem State.putFull_out (s : State) (v : Word) (l : Len) : (s.putFull v l).out = s.out := rfl

@[simp] theorem State.putFull_outLen (s : State) (v : Word) (l : Len) :
    (s.putFull v l).outLen = s.outLen := rfl

theorem State.putFull_afterDraw (s : State) (v : Word) (l : Len) :
    (s.putFull v l).afterDraw = { s.afterDraw with acc := s.fullWord v l } := by
  cases s with
  | mk => simp only [State.afterDraw, State.putFull]; split <;> rfl

/-- The rest of a split code replaces the filled accumulator. -/
theorem State.putFull_putRest (s : State) (v w : Word) (l : Len) (r : Nat) (bs : List Byte) :
    ((s.putFull v l).afterDraw.appendOut bs).putRest w r = (s.afterDraw.appendOut bs).putRest w r := by
  rw [State.putFull_afterDraw]
  rfl

/-- A code that does not fit: the word goes out, then the rest of the code seeds the accumulator. -/
theorem putCode_split {s : State} {v : Word} {l : Len} (hf : s.free.toNat ≤ 64)
    (hv : codeFits v l = true) (hl : s.free.toNat < l.toNat) :
    putCode v l s =
      ((s.putFull v l).memWrite (wordBytes s.cfg (s.fullWord v l))).bind fun _ t =>
        .ok () (t.putRest v (l.toNat - s.free.toNat)) := by
  unfold putCode
  rw [if_neg (by simp [hv]; omega), if_neg (by omega)]
  rfl

theorem putCode_bad {s : State} {v : Word} {l : Len} (h : 64 < s.free.toNat ∨ codeFits v l = false) :
    putCode v l s = .halt (.fault .bitCount) := by
  exact if_pos h

theorem putCode_split_pass {s : State} {v : Word} {l : Len} (hf : s.free.toNat ≤ 64)
    (hv : codeFits v l = true) (hl : s.free.toNat < l.toNat) (hd : s.nextDraw = .passes) :
    putCode v l s =
      .ok () ((s.afterDraw.appendOut (wordBytes s.cfg (s.fullWord v l))).putRest v
        (l.toNat - s.free.toNat)) := by
  rw [putCode_split hf hv hl, State.memWrite_pass (by simp) (by simp) (by simpa using hd)]
  simp only [Access.bind]
  rw [State.putFull_putRest]

theorem putCode_split_fail {s : State} {v : Word} {l : Len} {p : Nat} (hf : s.free.toNat ≤ 64)
    (hv : codeFits v l = true) (hl : s.free.toNat < l.toNat) (hd : s.nextDraw = .fails p) :
    putCode v l s =
      .halt (.next (((s.putFull v l).afterDraw.appendOut
        ((wordBytes s.cfg (s.fullWord v l)).take (landedBytes p 8))).raise .ioError 1)) := by
  rw [putCode_split hf hv hl, State.memWrite_fail (by simp) (by simp) (by simpa using hd)]
  simp

/-- A code that was put met its preconditions; it fitted, or a word went out before it. -/
theorem putCode_eq_ok {s t : State} {v : Word} {l : Len} {u : Unit} (h : putCode v l s = .ok u t) :
    s.free.toNat ≤ 64 ∧ codeFits v l = true ∧
      ((l.toNat ≤ s.free.toNat ∧ t = s.putFit v l) ∨
        (s.free.toNat < l.toNat ∧ s.nextDraw = .passes ∧
          t = (s.afterDraw.appendOut (wordBytes s.cfg (s.fullWord v l))).putRest v
            (l.toNat - s.free.toNat))) := by
  by_cases hb : 64 < s.free.toNat ∨ codeFits v l = false
  · rw [putCode_bad hb] at h
    simp at h
  · have hf : s.free.toNat ≤ 64 := by omega
    have hv : codeFits v l = true := by simpa using (not_or.mp hb).2
    refine ⟨hf, hv, ?_⟩
    by_cases hl : l.toNat ≤ s.free.toNat
    · rw [putCode_fit hf hv hl] at h
      cases h
      exact .inl ⟨hl, rfl⟩
    · rw [putCode_split hf hv (by omega)] at h
      obtain ⟨_, t', h1, h2⟩ := Access.bind_eq_ok.mp h
      obtain ⟨rfl, hd⟩ := State.memWrite_eq_ok h1
      cases h2
      exact .inr ⟨by omega, hd, State.putFull_putRest ..⟩

/-- A put that ends the operation with a next state has failed to write its word, with the accumulator
filled. -/
theorem putCode_eq_halt {s t : State} {v : Word} {l : Len} (h : putCode v l s = .halt (.next t)) :
    s.free.toNat < l.toNat ∧ ∃ k < 8,
      t = ((s.putFull v l).afterDraw.appendOut ((wordBytes s.cfg (s.fullWord v l)).take k)).raise
        .ioError 1 := by
  by_cases hb : 64 < s.free.toNat ∨ codeFits v l = false
  · rw [putCode_bad hb] at h
    simp at h
  · have hf : s.free.toNat ≤ 64 := by omega
    have hv : codeFits v l = true := by simpa using (not_or.mp hb).2
    by_cases hl : l.toNat ≤ s.free.toNat
    · rw [putCode_fit hf hv hl] at h
      simp at h
    · rw [putCode_split hf hv (by omega)] at h
      rcases Access.bind_eq_halt.mp h with ⟨_, _, _, h2⟩ | h1
      · simp at h2
      · obtain ⟨k, hk, rfl⟩ := State.memWrite_eq_halt h1
        exact ⟨by omega, k, by simpa using hk, rfl⟩

end Sys2Proof.Machine
end

