-- ==== Sys2Proof/Laws/Scan.lean ====
section
/-! SUPPORT. The leaf list of the scan (R113). -/

namespace Sys2Proof.Machine

theorem leavesFrom_eq (cnt : Vector Word 128) (k sym : Nat) (h : sym + k ≤ 128) :
    leavesFrom cnt k sym =
      ((List.range' sym k).filter fun i => decide (cnt[i]? ≠ some 0)).map fun i =>
        (BitVec.ofNat 8 i, (cnt[i]?).getD 0) := by
  induction k generalizing sym with
  | zero => rfl
  | succ k ih =>
    have hs : cnt[sym]? = some cnt[sym] := Vector.getElem?_eq_getElem (by omega)
    have ih' := ih (sym + 1) (by omega)
    rw [List.range'_succ, List.filter_cons]
    unfold leavesFrom
    simp only [hs, ih']
    by_cases hc : cnt[sym] = 0
    · simp [hc]
    · have hc' : ¬ some cnt[sym] = some (0 : Word) := fun e => hc (Option.some.inj e)
      rw [if_neg hc, if_pos (by simpa using hc'), List.map_cons, hs]
      rfl

/-- The leaves are the symbols whose counter is not zero, in ascending order, each with its counter. -/
theorem scanLeaves_eq (cnt : Vector Word 128) :
    scanLeaves cnt =
      ((List.range 128).filter fun i => decide (cnt[i]? ≠ some 0)).map fun i =>
        (BitVec.ofNat 8 i, (cnt[i]?).getD 0) := by
  unfold scanLeaves
  rw [leavesFrom_eq _ _ _ (by decide), ← List.range_eq_range', Config.symCount_eq]

theorem scanLeaves_length_le (cnt : Vector Word 128) : (scanLeaves cnt).length ≤ 128 := by
  rw [scanLeaves_eq, List.length_map]
  have := List.length_filter_le (fun i => decide (cnt[i]? ≠ some 0)) (List.range 128)
  simpa using this

/-- Every symbol of a leaf is at most 127. -/
theorem scanLeaves_sym_lt {cnt : Vector Word 128} {x : Byte × Word} (h : x ∈ scanLeaves cnt) :
    x.1.toNat < 128 := by
  rw [scanLeaves_eq, List.mem_map] at h
  obtain ⟨i, hi, rfl⟩ := h
  have hi' : i < 128 := by simpa using (List.mem_filter.mp hi).1
  simp
  omega

end Sys2Proof.Machine
end

