-- ==== Sys2Proof/Laws/Take.lean ====
section
/-! SUPPORT. `TB.TAKE` (R124): once, everything it can do. -/

namespace Sys2Proof.Machine

theorem takeItem_leaf_only {s : State} (h : s.lrem ≠ 0) (hq : ¬ s.qh < s.nt) :
    takeItem s = .ok () s.takeLeaf := by
  unfold takeItem
  rw [if_neg h, if_neg hq]

theorem takeItem_pending_only {s : State} (h : s.lrem = 0) (hq : s.qh < s.nt) :
    takeItem s = .ok () s.takePending := by
  unfold takeItem
  rw [if_pos h, if_pos hq]

theorem takeItem_nothing {s : State} (h : s.lrem = 0) (hq : ¬ s.qh < s.nt) :
    takeItem s = .halt (.fault .nothingToTake) := by
  unfold takeItem
  rw [if_pos h, if_neg hq]

theorem leafFirst_iff {x y : Word} : leafFirst x y = true ↔ x ≤ y := decide_eq_true_iff

@[simp] theorem children_eq (a b : Idx) : children a b = (a, b) := rfl

theorem takeItem_compare {s : State} {x y : NodeEntry} (h : s.lrem ≠ 0) (hq : s.qh < s.nt)
    (hx : s.nodeAt (s.lrem - 1) = some x) (hy : s.nodeAt s.qh = some y) :
    takeItem s = .ok () (if x.freq ≤ y.freq then s.takeLeaf else s.takePending) := by
  unfold takeItem
  rw [if_neg h, if_pos hq, hx, hy]
  by_cases hc : x.freq ≤ y.freq <;> simp only [leafFirst_iff, hc, if_true, if_false]

/-- Where there is an item, and the entries compared exist, one is taken. -/
theorem takeItem_total {s : State} (hi : s.lrem ≠ 0 ∨ s.qh < s.nt)
    (hx : s.lrem ≠ 0 → (s.nodeAt (s.lrem - 1)).isSome) (hy : s.qh < s.nt → (s.nodeAt s.qh).isSome) :
    ∃ t, takeItem s = .ok () t := by
  by_cases hl : s.lrem = 0
  · exact ⟨_, takeItem_pending_only hl (hi.resolve_left fun h => h hl)⟩
  · by_cases hq : s.qh < s.nt
    · obtain ⟨x, hx⟩ := Option.isSome_iff_exists.mp (hx hl)
      obtain ⟨y, hy⟩ := Option.isSome_iff_exists.mp (hy hq)
      exact ⟨_, takeItem_compare hl hq hx hy⟩
    · exact ⟨_, takeItem_leaf_only hl hq⟩

/-- An item taken is the last untaken leaf or the oldest pending subtree, and there was one. -/
theorem takeItem_eq_ok {s t : State} {u : Unit} (h : takeItem s = .ok u t) :
    (t = s.takeLeaf ∧ s.lrem ≠ 0) ∨ (t = s.takePending ∧ s.qh < s.nt) := by
  unfold takeItem at h
  split at h
  · split at h
    · rename_i hq
      cases h
      exact .inr ⟨rfl, hq⟩
    · simp at h
  · rename_i hl
    split at h
    · rename_i hq
      split at h
      · split at h
        · cases h
          exact .inl ⟨rfl, hl⟩
        · cases h
          exact .inr ⟨rfl, hq⟩
      · simp at h
    · cases h
      exact .inl ⟨rfl, hl⟩

/-- `TB.TAKE` never ends in a next state but its own. -/
theorem takeItem_ne_halt {s t : State} : takeItem s ≠ .halt (.next t) := by
  unfold takeItem
  intro h
  split at h
  · split at h <;> simp at h
  · split at h
    · split at h
      · split at h <;> simp at h
      · simp at h
    · simp at h

/-- The frame of `TB.TAKE`: `SEL` and one of `LREM`, `QH`. -/
theorem takeItem_frame {s t : State} {u : Unit} (h : takeItem s = .ok u t) :
    t = { s with sel := t.sel, lrem := t.lrem, qh := t.qh } := by
  rcases takeItem_eq_ok h with ⟨rfl, -⟩ | ⟨rfl, -⟩ <;> rfl

end Sys2Proof.Machine
end

