-- ==== Sys2Proof/Laws/Walk.lean ====
section
/-! SUPPORT. The leaf-to-root walk of `CA.WALK` (R137), one edge at a time, and that its bits stand where
they belong. -/

namespace Sys2Proof.Machine

theorem walkUp_root {v : Vector NodeEntry 509} {room l : Nat} {i : Idx} {acc : Word} {e : NodeEntry}
    (he : v[i.toNat]? = some e) (hp : e.parent = Config.none) :
    walkUp v room i acc l = .code acc l := by
  cases room <;> simp [walkUp, he, hp]

theorem walkUp_edge {v : Vector NodeEntry 509} {room l : Nat} {i : Idx} {acc : Word}
    {e p : NodeEntry} (he : v[i.toNat]? = some e) (hp : e.parent ≠ Config.none)
    (hpe : v[e.parent.toNat]? = some p) :
    walkUp v (room + 1) i acc l =
      walkUp v room e.parent (acc ||| (if p.right = i then 1#64 <<< l else 0#64)) (l + 1) := by
  rw [walkUp]
  simp only [he, if_neg hp, hpe]

theorem walkUp_full {v : Vector NodeEntry 509} {l : Nat} {i : Idx} {acc : Word} {e p : NodeEntry}
    (he : v[i.toNat]? = some e) (hp : e.parent ≠ Config.none) (hpe : v[e.parent.toNat]? = some p) :
    walkUp v 0 i acc l = .tooDeep := by
  rw [walkUp]
  simp only [he, if_neg hp, hpe]

/-- A walk that began at bit `l` keeps the bits below `l`, writes none at or above its length, and is at
most `room` edges long. -/
theorem walkUp_code {v : Vector NodeEntry 509} {room l len : Nat} {i : Idx} {acc c : Word}
    (h : walkUp v room i acc l = .code c len) (hacc : acc.toNat < 2 ^ l) :
    l ≤ len ∧ len ≤ l + room ∧ c.toNat < 2 ^ len := by
  induction room generalizing i acc l with
  | zero =>
    rw [walkUp] at h
    split at h
    · simp at h
    · split at h
      · cases h
        exact ⟨Nat.le_refl _, Nat.le_refl _, hacc⟩
      · split at h <;> simp at h
  | succ room ih =>
    rw [walkUp] at h
    split at h
    · simp at h
    · split at h
      · cases h
        exact ⟨Nat.le_refl _, Nat.le_add_right _ _, hacc⟩
      · split at h
        · simp at h
        · rename_i p _
          have hb : (if p.right = i then 1#64 <<< l else 0#64 : Word).toNat < 2 ^ (l + 1) := by
            split
            · rw [BitVec.toNat_shiftLeft, BitVec.toNat_ofNat, Nat.shiftLeft_eq]
              refine Nat.lt_of_le_of_lt (Nat.mod_le _ _) ?_
              simp [Nat.pow_succ]
            · simp
          have hor : (acc ||| (if p.right = i then 1#64 <<< l else 0#64)).toNat < 2 ^ (l + 1) := by
            rw [BitVec.toNat_or]
            exact Nat.or_lt_two_pow (Nat.lt_trans hacc (Nat.pow_lt_pow_right (by decide) (by omega))) hb
          have := ih h hor
          omega

end Sys2Proof.Machine
end

