-- ==== Sys2Proof/Laws/Cases.lean ====
section
/-! SUPPORT. Once per operation, everything it can do when it answers a next state: later proofs take a case
of these and never unfold a meaning. -/

namespace Sys2Proof.Machine

/-! ### FrequencyScanner -/

theorem execFsClear_cases {s t : State} (h : execFsClear s = .next t) :
    t = { s with cnt := Vector.replicate 128 0, inPos := 0, phase := Phase.fsCount } := by
  simpa [execFsClear] using h.symm

theorem execFsCount_cases {s t : State} (h : execFsCount s = .next t) :
    (s.inPos = s.inLen ∧ t = s.setPhase Phase.fsSent) ∨
    (s.inPos ≠ s.inLen ∧ t = s.afterDraw.raise .ioError 0) ∨
    ∃ b, s.inPos ≠ s.inLen ∧ s.inp.byteAt s.inPos.toNat = some b ∧
      s.inPos.toNat + 1 ≤ s.inLen.toNat ∧
      ((127 < b.toNat ∧ t = s.afterDraw.raise .symbolOutOfRange s.inPos) ∨
        (b.toNat ≤ 127 ∧
          t = { s.afterDraw.countSym b with inPos := s.inPos + 1, phase := Phase.fsCount })) := by
  unfold execFsCount at h
  split at h
  · rename_i hp
    exact .inl ⟨hp, by simpa using h.symm⟩
  · rename_i hp
    rcases Access.andThen_eq_next.mp h with ⟨bs, u, h1, h2⟩ | h1
    · obtain ⟨rfl, hb, -, -, -, hl, -⟩ := State.memRead_eq_ok h1
      replace hb := Memory.bytesAt_one_eq_some.mp hb
      obtain ⟨b, hb, rfl⟩ := hb
      refine .inr (.inr ⟨b, hp, hb, hl, ?_⟩)
      change (if Config.symMax < b.toNat then _ else _) = _ at h2
      by_cases hlt : Config.symMax < b.toNat
      · rw [if_pos hlt] at h2
        exact .inl ⟨hlt, by simpa using h2.symm⟩
      · rw [if_neg hlt] at h2
        exact .inr ⟨Nat.le_of_not_lt hlt, by simpa using h2.symm⟩
    · exact .inr (.inl ⟨hp, State.memRead_eq_halt h1⟩)

theorem execFsSent_cases {s t : State} (h : execFsSent s = .next t) :
    t = (s.countSym Config.sentinel).setPhase Phase.fsCollect := by
  simpa [execFsSent] using h.symm

/-- R213: more than 255 leaves cannot be found, so only the first test can fire. -/
theorem execFsCollect_cases {s t : State} (h : execFsCollect s = .next t) :
    (scanLeaves s.cnt = [] ∧ t = s.raise .emptyAlphabet 0) ∨
    (scanLeaves s.cnt ≠ [] ∧ (scanLeaves s.cnt).length ≤ 128 ∧
      t = { s with
        node := placeLeaves (scanLeaves s.cnt) 0 s.node
        n := BitVec.ofNat 8 (scanLeaves s.cnt).length
        phase := Phase.tbSort }) := by
  have hle := scanLeaves_length_le s.cnt
  simp only [execFsCollect, Host.Outcome.next.injEq] at h
  by_cases h0 : scanLeaves s.cnt = []
  · refine .inl ⟨h0, ?_⟩
    rw [← h, h0]
    rfl
  · refine .inr ⟨h0, hle, ?_⟩
    have h1 : ¬ (scanLeaves s.cnt).length = 0 := by simpa using h0
    have h2 : ¬ Config.nsymMax < (scanLeaves s.cnt).length := by
      rw [Config.nsymMax_eq]
      omega
    rw [← h, if_neg h1, if_neg h2]

/-! ### TreeBuilder -/

theorem execTbSort_cases {s t : State} (h : execTbSort s = .next t) :
    t = { s with node := placeEntries (sortEntries s.leaves) 0 s.node, phase := Phase.tbInit } := by
  simpa [execTbSort] using h.symm

theorem execTbInit_cases {s t : State} (h : execTbInit s = .next t) :
    t = { s with
      lrem := s.n.setWidth 9
      qh := s.n.setWidth 9
      nt := s.n.setWidth 9
      phase := if 2 ≤ s.n.toNat then Phase.tbMerge else Phase.tbRoot } := by
  simpa [execTbInit] using h.symm

theorem execTbTake_cases {s t : State} (h : execTbTake s = .next t) :
    (t = s.takeLeaf ∧ s.lrem ≠ 0) ∨ (t = s.takePending ∧ s.qh < s.nt) := by
  rcases Access.finish_eq_next.mp h with h | h
  · exact takeItem_eq_ok h
  · exact absurd h takeItem_ne_halt

theorem execTbMerge_cases {s t : State} (h : execTbMerge s = .next t) :
    2 ≤ s.items ∧ ∃ s1 s2 x y, takeItem s = .ok () s1 ∧ takeItem s1 = .ok () s2 ∧
      s2.nodeAt s1.sel = some x ∧ s2.nodeAt s2.sel = some y ∧ (s2.nodeAt s2.nt).isSome ∧
      t = (s2.join s1.sel s2.sel x.freq y.freq).afterJoin := by
  unfold execTbMerge at h
  split at h
  · simp at h
  · rename_i hi
    refine ⟨by omega, ?_⟩
    rcases Access.andThen_eq_next.mp h with ⟨_, s1, h1, h⟩ | h
    · rcases Access.andThen_eq_next.mp h with ⟨_, s2, h2, h⟩ | h
      · split at h
        · rename_i x y e hx hy he
          exact ⟨s1, s2, x, y, h1, h2, hx, hy, by simp [he], by simpa using h.symm⟩
        · simp at h
      · exact absurd h takeItem_ne_halt
    · exact absurd h takeItem_ne_halt

theorem execTbRoot_cases {s t : State} (h : execTbRoot s = .next t) :
    t = { s with
      root := if s.n = 1 then 0 else s.nt - 1
      phase := if s.op = .compress then Phase.caClear else Phase.bsdInit } := by
  simpa [execTbRoot] using h.symm

/-! ### CodeAssigner -/

theorem execCaClear_cases {s t : State} (h : execCaClear s = .next t) :
    t = { s with
      lut := s.lut.map fun e => { e with valid := false }
      caI := 0
      phase := Phase.caWalk } := by
  simpa [execCaClear] using h.symm

theorem execCaWalk_cases {s t : State} (h : execCaWalk s = .next t) :
    (s.caI.toNat = s.n.toNat ∧ t = s.setPhase Phase.hcWidth) ∨
    (s.caI.toNat ≠ s.n.toNat ∧ ∃ e, s.nodeAt s.caI = some e ∧
      ((walkUp s.node 64 s.caI 0 0 = .tooDeep ∧ t = s.raise .codeOverflow (e.sym.setWidth 64)) ∨
        ∃ c len, walkUp s.node 64 s.caI 0 0 = .code c len ∧ e.sym.toNat < 128 ∧
          t = s.assignCode e.sym c (BitVec.ofNat 7 len))) := by
  unfold execCaWalk at h
  split at h
  · rename_i hc
    exact .inl ⟨hc, by simpa using h.symm⟩
  · rename_i hc
    refine .inr ⟨hc, ?_⟩
    split at h
    · simp at h
    · rename_i e he
      refine ⟨e, he, ?_⟩
      split at h
      · simp at h
      · rename_i hw
        exact .inl ⟨hw, by simpa using h.symm⟩
      · rename_i c len hw
        split at h
        · rename_i hs
          exact .inr ⟨c, len, hw, hs, by simpa using h.symm⟩
        · simp at h

/-! ### HeaderCodec -/

theorem execHcWidth_cases {s t : State} (h : execHcWidth s = .next t) :
    t = { s with f := widthFor (s.node[0]).freq, phase := Phase.hcPuthdr } := by
  simpa [execHcWidth] using h.symm

theorem execHcPuthdr_cases {s t : State} (h : execHcPuthdr s = .next t) :
    (t = (s.afterDraw.appendOut []).raise .ioError 1) ∨
    (t = ((s.afterDraw.appendOut [s.n]).afterDraw.appendOut []).raise .ioError 1) ∨
    (t = { (s.afterDraw.appendOut [s.n]).afterDraw.appendOut [s.f.setWidth 8] with
      hcI := 0, phase := Phase.hcPutpair }) := by
  unfold execHcPuthdr at h
  rcases Access.andThen_eq_next.mp h with ⟨_, s1, h1, h⟩ | h
  · obtain ⟨rfl, -⟩ := State.memWrite_eq_ok h1
    rcases Access.andThen_eq_next.mp h with ⟨_, s2, h2, h⟩ | h
    · obtain ⟨rfl, -⟩ := State.memWrite_eq_ok h2
      exact .inr (.inr (by simpa using h.symm))
    · obtain ⟨k, hk, rfl⟩ := State.memWrite_eq_halt h
      have : k = 0 := by simpa using hk
      subst this
      exact .inr (.inl rfl)
  · obtain ⟨k, hk, rfl⟩ := State.memWrite_eq_halt h
    have : k = 0 := by simpa using hk
    subst this
    exact .inl rfl

theorem execHcPutpair_cases {s t : State} (h : execHcPutpair s = .next t) :
    (s.hcI.toNat = s.n.toNat ∧ t = s.setPhase Phase.bseInit) ∨
    (s.hcI.toNat ≠ s.n.toNat ∧ ∃ e, s.nodeAt s.hcI = some e ∧
      (t = (s.afterDraw.appendOut []).raise .ioError 1 ∨
        (∃ k < s.f.toNat,
          t = ((s.afterDraw.appendOut [e.sym]).afterDraw.appendOut
            ((freqBytes s.cfg e.freq s.f).take k)).raise .ioError 1) ∨
        t = { (s.afterDraw.appendOut [e.sym]).afterDraw.appendOut (freqBytes s.cfg e.freq s.f) with
          hcI := s.hcI + 1, phase := Phase.hcPutpair })) := by
  unfold execHcPutpair at h
  split at h
  · rename_i hc
    exact .inl ⟨hc, by simpa using h.symm⟩
  · rename_i hc
    refine .inr ⟨hc, ?_⟩
    split at h
    · simp at h
    · rename_i e he
      refine ⟨e, he, ?_⟩
      rcases Access.andThen_eq_next.mp h with ⟨_, s1, h1, h⟩ | h
      · obtain ⟨rfl, -⟩ := State.memWrite_eq_ok h1
        rcases Access.andThen_eq_next.mp h with ⟨_, s2, h2, h⟩ | h
        · obtain ⟨rfl, -⟩ := State.memWrite_eq_ok h2
          exact .inr (.inr (by simpa using h.symm))
        · obtain ⟨k, hk, rfl⟩ := State.memWrite_eq_halt h
          exact .inr (.inl ⟨k, by simpa using hk, by simp⟩)
      · obtain ⟨k, hk, rfl⟩ := State.memWrite_eq_halt h
        have : k = 0 := by simpa using hk
        subst this
        exact .inl rfl

theorem execHcGethdr_cases {s t : State} (h : execHcGethdr s = .next t) :
    (s.inLen.toNat < 2 ∧ t = s.raise .malformedHeader 0) ∨
    (2 ≤ s.inLen.toNat ∧
      (t = s.afterDraw.raise .ioError 0 ∨ t = s.afterDraw.afterDraw.raise .ioError 0 ∨
        ∃ n f, s.inp.byteAt 0 = some n ∧ s.inp.byteAt 1 = some f ∧
          ((∃ info, headerFault n f s.inLen = some info ∧
              t = State.raise { s.afterDraw.afterDraw with inPos := 2 } .malformedHeader info) ∨
            (headerFault n f s.inLen = none ∧
              t = { s.afterDraw.afterDraw with
                inPos := 2, n := n, f := f.setWidth 4, hcI := 0, phase := Phase.hcGetpair })))) := by
  unfold execHcGethdr at h
  split at h
  · rename_i hl
    exact .inl ⟨hl, by simpa using h.symm⟩
  · rename_i hl
    refine .inr ⟨by omega, ?_⟩
    rcases Access.andThen_eq_next.mp h with ⟨ns, s1, h1, h⟩ | h
    · obtain ⟨rfl, hn, -⟩ := State.memRead_eq_ok h1
      replace hn := Memory.bytesAt_one_eq_some.mp hn
      obtain ⟨n, hn, rfl⟩ := hn
      rcases Access.andThen_eq_next.mp h with ⟨fs, s2, h2, h⟩ | h
      · obtain ⟨rfl, hf, -⟩ := State.memRead_eq_ok h2
        replace hf := Memory.bytesAt_one_eq_some.mp hf
        obtain ⟨f, hf, rfl⟩ := hf
        refine .inr (.inr ⟨n, f, hn, by simpa using hf, ?_⟩)
        simp only [List.headD_cons, State.afterDraw_inLen] at h
        split at h
        · rename_i info hi
          exact .inl ⟨info, hi, by simpa using h.symm⟩
        · rename_i hi
          exact .inr ⟨hi, by simpa using h.symm⟩
      · exact .inr (.inl (State.memRead_eq_halt h))
    · exact .inl (State.memRead_eq_halt h)

theorem execHcGetpair_cases {s t : State} (h : execHcGetpair s = .next t) :
    (s.hcI.toNat = s.n.toNat ∧ t = s.setPhase Phase.tbSort) ∨
    (s.hcI.toNat ≠ s.n.toNat ∧
      (t = s.afterDraw.raise .ioError 0 ∨ t = s.afterDraw.afterDraw.raise .ioError 0 ∨
        ∃ sym bs, s.inp.byteAt s.inPos.toNat = some sym ∧
          s.inp.bytesAt (s.inPos.toNat + 1) s.f.toNat = some bs ∧
          s.inPos.toNat + 1 + s.f.toNat ≤ s.inLen.toNat ∧ (s.nodeAt s.hcI).isSome ∧
          t = s.afterDraw.afterDraw.storePair sym (freqOfBytes s.cfg bs) s.f)) := by
  unfold execHcGetpair at h
  split at h
  · rename_i hc
    exact .inl ⟨hc, by simpa using h.symm⟩
  · rename_i hc
    refine .inr ⟨hc, ?_⟩
    rcases Access.andThen_eq_next.mp h with ⟨ss, s1, h1, h⟩ | h
    · obtain ⟨rfl, hs, -⟩ := State.memRead_eq_ok h1
      replace hs := Memory.bytesAt_one_eq_some.mp hs
      obtain ⟨sym, hs, rfl⟩ := hs
      rcases Access.andThen_eq_next.mp h with ⟨bs, s2, h2, h⟩ | h
      · obtain ⟨rfl, hb, -, -, -, hl, -⟩ := State.memRead_eq_ok h2
        refine .inr (.inr ⟨sym, bs, hs, by simpa using hb, by simpa using hl, ?_⟩)
        simp only [State.nodeAt, State.afterDraw_node, State.afterDraw_hcI] at h
        split at h
        · simp at h
        · rename_i e he
          exact ⟨by simp [State.nodeAt, he], by simpa using h.symm⟩
      · exact .inr (.inl (State.memRead_eq_halt h))
    · exact .inl (State.memRead_eq_halt h)

/-! ### BitStreamEncoder -/

theorem execBseInit_cases {s t : State} (h : execBseInit s = .next t) :
    t = { s with acc := 0, free := 64, inPos := 0, phase := Phase.bseSym } := by
  simpa [execBseInit] using h.symm

theorem execBsePut_cases {s t : State} {v : Word} {l : Len} (h : execBsePut v l s = .next t) :
    putCode v l s = .ok () t ∨ putCode v l s = .halt (.next t) := Access.finish_eq_next.mp h

theorem State.lutFor_eq_some {s : State} {b : Byte} {e : LutEntry} :
    s.lutFor b = some e ↔ s.lut[b.toNat]? = some e ∧ e.valid = true := by
  unfold State.lutFor
  cases s.lut[b.toNat]? with
  | none => simp
  | some e' =>
    cases hv : e'.valid with
    | true =>
      simp only [hv, if_true, Option.some.injEq]
      exact ⟨fun h => ⟨h, h ▸ hv⟩, And.left⟩
    | false =>
      simp only [hv, Bool.false_eq_true, if_false, reduceCtorEq, Option.some.injEq, false_iff]
      rintro ⟨rfl, h⟩
      simp [hv] at h

theorem execBseSym_cases {s t : State} (h : execBseSym s = .next t) :
    (s.inPos = s.inLen ∧ t = s.setPhase Phase.bseEos) ∨
    (s.inPos ≠ s.inLen ∧ t = s.afterDraw.raise .ioError 0) ∨
    ∃ b, s.inPos ≠ s.inLen ∧ s.inp.byteAt s.inPos.toNat = some b ∧
      s.inPos.toNat + 1 ≤ s.inLen.toNat ∧
      ((s.lutFor b = none ∧ t = s.afterDraw.raise .lookupMiss s.inPos) ∨
        ∃ e, s.lutFor b = some e ∧
          ((∃ u, putCode e.code e.len { s.afterDraw with inPos := s.inPos + 1 } = .ok () u ∧
              t = u.setPhase (if b = Config.sentinel then Phase.bseFinal else Phase.bseSym)) ∨
            putCode e.code e.len { s.afterDraw with inPos := s.inPos + 1 } = .halt (.next t))) := by
  unfold execBseSym at h
  split at h
  · rename_i hp
    exact .inl ⟨hp, by simpa using h.symm⟩
  · rename_i hp
    rcases Access.andThen_eq_next.mp h with ⟨bs, u, h1, h2⟩ | h1
    · obtain ⟨rfl, hb, -, -, -, hl, -⟩ := State.memRead_eq_ok h1
      replace hb := Memory.bytesAt_one_eq_some.mp hb
      obtain ⟨b, hb, rfl⟩ := hb
      refine .inr (.inr ⟨b, hp, hb, hl, ?_⟩)
      have hlut : s.afterDraw.lutFor b = s.lutFor b := by simp [State.lutFor]
      simp only [List.headD_cons, hlut, State.afterDraw_inPos] at h2
      split at h2
      · rename_i hn
        exact .inl ⟨hn, by simpa using h2.symm⟩
      · rename_i e he
        refine .inr ⟨e, he, ?_⟩
        rcases Access.andThen_eq_next.mp h2 with ⟨_, w, h3, h4⟩ | h3
        · exact .inl ⟨w, h3, (Host.Outcome.next.inj h4).symm⟩
        · exact .inr h3
    · exact .inr (.inl ⟨hp, State.memRead_eq_halt h1⟩)

theorem execBseEos_cases {s t : State} (h : execBseEos s = .next t) :
    (∃ u, putCode s.lut[0].code s.lut[0].len s = .ok () u ∧ t = u.setPhase Phase.bseFinal) ∨
      putCode s.lut[0].code s.lut[0].len s = .halt (.next t) := by
  unfold execBseEos at h
  rcases Access.andThen_eq_next.mp h with ⟨_, u, h1, h2⟩ | h1
  · exact .inl ⟨u, h1, by simpa using h2.symm⟩
  · exact .inr h1

theorem execBseFinal_cases {s t : State} (h : execBseFinal s = .next t) :
    s.free.toNat ≤ 64 ∧
      ((ceil8 (64 - s.free.toNat) = 0 ∧ t = s.setPhase Phase.close) ∨
        (∃ k < ceil8 (64 - s.free.toNat),
          t = (s.afterDraw.appendOut
            ((tailBytes s.cfg s.acc (ceil8 (64 - s.free.toNat))).take k)).raise .ioError 1) ∨
        (0 < ceil8 (64 - s.free.toNat) ∧ s.nextDraw = .passes ∧
          t = (s.afterDraw.appendOut
            (tailBytes s.cfg s.acc (ceil8 (64 - s.free.toNat)))).setPhase Phase.close)) := by
  unfold execBseFinal at h
  split at h
  · simp at h
  · rename_i hf
    refine ⟨by rw [Config.wordBits_eq] at hf; omega, ?_⟩
    simp only at h
    split at h
    · rename_i hk
      exact .inl ⟨hk, by simpa using h.symm⟩
    · rename_i hk
      rcases Access.andThen_eq_next.mp h with ⟨_, u, h1, h2⟩ | h1
      · obtain ⟨rfl, hd⟩ := State.memWrite_eq_ok h1
        exact .inr (.inr ⟨by omega, hd, by simpa using h2.symm⟩)
      · obtain ⟨k, hk, rfl⟩ := State.memWrite_eq_halt h1
        exact .inr (.inl ⟨k, by simpa using hk, rfl⟩)

/-! ### BitStreamDecoder -/

theorem execBsdInit_cases {s t : State} (h : execBsdInit s = .next t) :
    ∃ e, s.nodeAt s.root = some e ∧
      ((e.kind = .leaf ∧ e.sym = Config.sentinel ∧ t = s.startDecoder.setPhase Phase.close) ∨
        (e.kind = .leaf ∧ e.sym ≠ Config.sentinel ∧
          t = s.startDecoder.raise .unexpectedEndOfStream 0) ∨
        (e.kind = .internal ∧ t = s.startDecoder.setPhase Phase.bsdFetch)) := by
  unfold execBsdInit at h
  split at h
  · simp at h
  · rename_i e he
    refine ⟨e, he, ?_⟩
    cases hk : e.kind with
    | leaf =>
      simp only [hk, if_true] at h
      split at h
      · rename_i hs
        exact .inl ⟨rfl, hs, (Host.Outcome.next.inj h).symm⟩
      · rename_i hs
        exact .inr (.inl ⟨rfl, hs, (Host.Outcome.next.inj h).symm⟩)
    | internal =>
      simp only [hk, reduceCtorEq, if_false] at h
      exact .inr (.inr ⟨rfl, (Host.Outcome.next.inj h).symm⟩)

theorem execBsdFetch_cases {s t : State} (h : execBsdFetch s = .next t) :
    (s.prem = 0 ∧ t = s.raise .unexpectedEndOfStream 0) ∨
    (s.prem ≠ 0 ∧ t = s.afterDraw.raise .ioError 0) ∨
    (s.prem ≠ 0 ∧ ∃ bs, s.inp.bytesAt s.inPos.toNat (min 8 s.prem.toNat) = some bs ∧
      s.inPos.toNat + min 8 s.prem.toNat ≤ s.inLen.toNat ∧
      t = s.afterDraw.loadWord (deser bs s.cfg.wordOrder) (min 8 s.prem.toNat)) := by
  unfold execBsdFetch at h
  split at h
  · rename_i hp
    exact .inl ⟨hp, by simpa using h.symm⟩
  · rename_i hp
    rcases Access.andThen_eq_next.mp h with ⟨bs, u, h1, h2⟩ | h1
    · obtain ⟨rfl, hb, -, -, -, hl, -⟩ := State.memRead_eq_ok h1
      exact .inr (.inr ⟨hp, bs, hb, hl, by simpa using h2.symm⟩)
    · exact .inr (.inl ⟨hp, State.memRead_eq_halt h1⟩)

theorem execBsdLeaf_cases {s t : State} (h : execBsdLeaf s = .next t) :
    (∃ b, emitLeaf s = .ok b t) ∨ emitLeaf s = .halt (.next t) := by
  rcases Access.andThen_eq_next.mp h with ⟨b, u, h1, h2⟩ | h1
  · cases h2
    exact .inl ⟨b, h1⟩
  · exact .inr h1

theorem execBsdBit_cases {s t : State} (h : execBsdBit s = .next t) :
    s.nbits ≠ 0 ∧
      (walkBit (s.dword.getLsbD 63) s.dropBit = .ok true t ∨
        (∃ u, walkBit (s.dword.getLsbD 63) s.dropBit = .ok false u ∧
          t = u.setPhase (if u.nbits = 0 then Phase.bsdFetch else Phase.bsdBit)) ∨
        walkBit (s.dword.getLsbD 63) s.dropBit = .halt (.next t)) := by
  unfold execBsdBit at h
  split at h
  · simp at h
  · rename_i hn
    refine ⟨hn, ?_⟩
    rcases Access.andThen_eq_next.mp h with ⟨b, u, h1, h2⟩ | h1
    · cases b with
      | true =>
        simp only [if_true, Host.Outcome.next.injEq] at h2
        subst h2
        exact .inl h1
      | false =>
        simp only [Bool.false_eq_true, if_false, Host.Outcome.next.injEq] at h2
        exact .inr (.inl ⟨u, h1, h2.symm⟩)
    · exact .inr (.inr h1)

/-! ### Commands -/

theorem execCmdClose_cases {s t : State} (h : execCmdClose s = .next t) :
    t = { s with flags := s.flags.closed, status := .done, phase := Phase.idle } := by
  simpa [execCmdClose] using h.symm

theorem State.accept_busy {s t : State} (h : s.status = .busy) : s.accept t = s := if_pos h

theorem State.accept_free {s t : State} (h : s.status ≠ .busy) : s.accept t = t := if_neg h

/-! ### Container records -/

theorem execHdrCount_cases {s t : State} {n : Byte} (h : execHdrCount n s = .next t) :
    (n = 0 ∧ t = State.raise { s with inPos := s.inPos + 1 } .malformedHeader 1) ∨
      (n ≠ 0 ∧ t = { s with inPos := s.inPos + 1, n := n }) := by
  unfold execHdrCount at h
  simp only at h
  split at h
  · rename_i hn
    exact .inl ⟨hn, by simpa using h.symm⟩
  · rename_i hn
    exact .inr ⟨hn, by simpa using h.symm⟩

theorem execHdrWidth_cases {s t : State} {f : Byte} (h : execHdrWidth f s = .next t) :
    (∃ info, t = State.raise { s with inPos := s.inPos + 1 } .malformedHeader info) ∨
      (f.toNat ∈ Config.fieldWidths ∧ headerLen s.n.toNat f.toNat ≤ s.inLen.toNat ∧
        t = { s with inPos := s.inPos + 1, f := f.setWidth 4, hcI := 0, phase := Phase.hcGetpair }) := by
  unfold execHdrWidth at h
  simp only at h
  split at h
  · exact .inl ⟨2, by simpa using h.symm⟩
  · rename_i hf
    split at h
    · exact .inl ⟨3, by simpa using h.symm⟩
    · rename_i hl
      exact .inr ⟨Decidable.not_not.mp hf, by omega, by simpa using h.symm⟩

theorem execPair_cases {s t : State} {sym : Byte} {f : FieldWidth} {freq : Word}
    (h : execPair sym f freq s = .next t) :
    (s.nodeAt s.hcI).isSome ∧ t = s.storePair sym freq f := by
  unfold execPair at h
  split at h
  · simp at h
  · rename_i e he
    exact ⟨by simp [he], by simpa using h.symm⟩

theorem execWord_cases {s t : State} {w : Word} (h : execWord w s = .next t) : t = s.loadWord w.toNat 8 :=
  (Host.Outcome.next.inj h).symm

theorem execTail_cases {s t : State} {k : BitVec 4} {v : Word} (h : execTail k v s = .next t) :
    t = s.loadWord v.toNat k.toNat :=
  (Host.Outcome.next.inj h).symm

/-- The walk over a code's bits, by induction on the bits: what every edge keeps holds at the end, or the
walk ended in an edge whose leaf could not be appended. -/
theorem walkBits_induct {P Q : State → Prop}
    (hok : ∀ b stop s t, P s → walkBit b s = .ok stop t → P t)
    (hhalt : ∀ b s t, P s → walkBit b s = .halt (.next t) → Q t)
    {bits : List Bool} {s t : State} (hs : P s) (h : (walkBits bits s).finish = .next t) :
    P t ∨ Q t := by
  induction bits generalizing s with
  | nil =>
    rcases Access.finish_eq_next.mp h with h | h
    · cases h
      exact .inl hs
    · simp [walkBits] at h
  | cons b bs ih =>
    rcases Access.finish_eq_next.mp h with h | h
    · obtain ⟨stop, u, h1, h2⟩ := Access.bind_eq_ok.mp h
      cases stop with
      | true =>
        cases h2
        exact .inl (hok _ _ _ _ hs h1)
      | false => exact ih (hok _ _ _ _ hs h1) (Access.finish_eq_next.mpr (.inl h2))
    · rcases Access.bind_eq_halt.mp h with ⟨stop, u, h1, h2⟩ | h1
      · cases stop with
        | true => simp at h2
        | false => exact ih (hok _ _ _ _ hs h1) (Access.finish_eq_next.mpr (.inr h2))
      · exact .inr (hhalt _ _ _ hs h1)

/-- `CODE`, the same induction. -/
theorem execCode_induct {P Q : State → Prop}
    (hok : ∀ b stop s t, P s → walkBit b s = .ok stop t → P t)
    (hhalt : ∀ b s t, P s → walkBit b s = .halt (.next t) → Q t)
    {c : Word} {len : Len} {s t : State} (hs : P s) (h : execCode c len s = .next t) : P t ∨ Q t :=
  walkBits_induct hok hhalt hs h

end Sys2Proof.Machine
end

