-- ==== Sys2Proof/Laws/Config.lean ====
section
/-! SUPPORT. The parameters of R10 against the types and the arrays of the state. -/

namespace Sys2Proof.Machine

/-- Each width of R10 is the width of the type that carries it (R31, R34, R36). -/
theorem widths_agree :
    Byte = BitVec Config.fixed.symBits ∧ Word = BitVec Config.fixed.freqBits ∧
      Word = BitVec Config.fixed.codeBits ∧ Word = BitVec Config.fixed.wordBits ∧
      Idx = BitVec Config.fixed.idxBits := ⟨rfl, rfl, rfl, rfl, rfl⟩

/-- The arrays have the sizes of R10, R32 and R36. -/
theorem sizes_agree (s : State) :
    s.cnt.size = Config.symCount ∧ s.lut.size = Config.symCount ∧ s.node.size = Config.arenaSize :=
  ⟨rfl, rfl, rfl⟩

end Sys2Proof.Machine
end

