-- ==== Sys2Proof/Laws/PerInstr.lean ====
section
/-! SUPPORT. The per-instruction family `EncodedSize`: the encoding of an operation has exactly the bits that
its row and its rule give it (R80 to R89), one lemma per constructor. -/

namespace Sys2Proof.Laws

/-- How many bits a bit pattern has. -/
def rawBits : Raw → Nat
  | .cmd _ => 8
  | .phase _ => 6
  | .hdrCount _ => 8
  | .hdrWidth _ => 8
  | .pair bs => 8 * bs.length
  | .payload bs => 8 * bs.length
  | .code bits => bits.length

/-- How many bits the encoding of an operation has; none for the rows whose encoding is "-" (R94). -/
def tableBits : Instr → Option Nat
  | .nop | .compress | .decompress | .illegal03 | .illegal04 _ | .illegal08 _ | .illegal10 _
  | .illegal20 _ | .illegal40 _ | .illegal80 _ => some 8
  | .fsClear | .fsCount | .fsSent | .fsCollect | .tbSort | .tbInit | .tbMerge | .tbRoot | .caClear
  | .caWalk | .hcWidth | .hcPuthdr | .hcPutpair | .hcGethdr | .hcGetpair | .bseInit | .bseSym
  | .bseEos | .bseFinal | .bsdInit | .bsdFetch | .bsdBit | .cmdClose | .pIdle => some 6
  | .tbTake | .bsePut _ _ | .bsdLeaf | .reset => none
  | .hdrCount _ | .hdrWidth _ => some 8
  | .pair _ f _ => some (8 * (1 + f.toNat))
  | .word _ => some 64
  | .tail k _ => some (8 * k.toNat)
  | .code _ len => some len.toNat

/-- The encoding has its row's bits, under both byte orders. -/
def EncodedSize.Statement (i : Instr) : Prop := ∀ cfg, (encode cfg i).map rawBits = tableBits i

theorem EncodedSize.nop : EncodedSize.Statement .nop := fun _ => rfl
theorem EncodedSize.compress : EncodedSize.Statement .compress := fun _ => rfl
theorem EncodedSize.decompress : EncodedSize.Statement .decompress := fun _ => rfl
theorem EncodedSize.illegal03 : EncodedSize.Statement .illegal03 := fun _ => rfl
theorem EncodedSize.illegal04 (x : BitVec 2) : EncodedSize.Statement (.illegal04 x) := fun _ => rfl
theorem EncodedSize.illegal08 (x : BitVec 3) : EncodedSize.Statement (.illegal08 x) := fun _ => rfl
theorem EncodedSize.illegal10 (x : BitVec 4) : EncodedSize.Statement (.illegal10 x) := fun _ => rfl
theorem EncodedSize.illegal20 (x : BitVec 5) : EncodedSize.Statement (.illegal20 x) := fun _ => rfl
theorem EncodedSize.illegal40 (x : BitVec 6) : EncodedSize.Statement (.illegal40 x) := fun _ => rfl
theorem EncodedSize.illegal80 (x : BitVec 7) : EncodedSize.Statement (.illegal80 x) := fun _ => rfl
theorem EncodedSize.fsClear : EncodedSize.Statement .fsClear := fun _ => rfl
theorem EncodedSize.fsCount : EncodedSize.Statement .fsCount := fun _ => rfl
theorem EncodedSize.fsSent : EncodedSize.Statement .fsSent := fun _ => rfl
theorem EncodedSize.fsCollect : EncodedSize.Statement .fsCollect := fun _ => rfl
theorem EncodedSize.tbSort : EncodedSize.Statement .tbSort := fun _ => rfl
theorem EncodedSize.tbInit : EncodedSize.Statement .tbInit := fun _ => rfl
theorem EncodedSize.tbMerge : EncodedSize.Statement .tbMerge := fun _ => rfl
theorem EncodedSize.tbRoot : EncodedSize.Statement .tbRoot := fun _ => rfl
theorem EncodedSize.caClear : EncodedSize.Statement .caClear := fun _ => rfl
theorem EncodedSize.caWalk : EncodedSize.Statement .caWalk := fun _ => rfl
theorem EncodedSize.hcWidth : EncodedSize.Statement .hcWidth := fun _ => rfl
theorem EncodedSize.hcPuthdr : EncodedSize.Statement .hcPuthdr := fun _ => rfl
theorem EncodedSize.hcPutpair : EncodedSize.Statement .hcPutpair := fun _ => rfl
theorem EncodedSize.hcGethdr : EncodedSize.Statement .hcGethdr := fun _ => rfl
theorem EncodedSize.hcGetpair : EncodedSize.Statement .hcGetpair := fun _ => rfl
theorem EncodedSize.bseInit : EncodedSize.Statement .bseInit := fun _ => rfl
theorem EncodedSize.bseSym : EncodedSize.Statement .bseSym := fun _ => rfl
theorem EncodedSize.bseEos : EncodedSize.Statement .bseEos := fun _ => rfl
theorem EncodedSize.bseFinal : EncodedSize.Statement .bseFinal := fun _ => rfl
theorem EncodedSize.bsdInit : EncodedSize.Statement .bsdInit := fun _ => rfl
theorem EncodedSize.bsdFetch : EncodedSize.Statement .bsdFetch := fun _ => rfl
theorem EncodedSize.bsdBit : EncodedSize.Statement .bsdBit := fun _ => rfl
theorem EncodedSize.cmdClose : EncodedSize.Statement .cmdClose := fun _ => rfl
theorem EncodedSize.pIdle : EncodedSize.Statement .pIdle := fun _ => rfl
theorem EncodedSize.tbTake : EncodedSize.Statement .tbTake := fun _ => rfl
theorem EncodedSize.bsePut (v : Word) (l : Len) : EncodedSize.Statement (.bsePut v l) := fun _ => rfl
theorem EncodedSize.bsdLeaf : EncodedSize.Statement .bsdLeaf := fun _ => rfl
theorem EncodedSize.reset : EncodedSize.Statement .reset := fun _ => rfl
theorem EncodedSize.hdrCount (n : Byte) : EncodedSize.Statement (.hdrCount n) := fun _ => rfl
theorem EncodedSize.hdrWidth (f : Byte) : EncodedSize.Statement (.hdrWidth f) := fun _ => rfl
theorem EncodedSize.pair (sym : Byte) (f : FieldWidth) (freq : Word) : EncodedSize.Statement (.pair sym f freq) := by
  intro cfg
  show some (8 * (sym :: ser freq.toNat f.toNat cfg.freqOrder).length) = some (8 * (1 + f.toNat))
  rw [List.length_cons, ser_length, Nat.add_comm]
theorem EncodedSize.word (w : Word) : EncodedSize.Statement (.word w) := by
  intro cfg
  show some (8 * (ser w.toNat 8 cfg.wordOrder).length) = some 64
  rw [ser_length]
theorem EncodedSize.tail (k : BitVec 4) (t : Word) : EncodedSize.Statement (.tail k t) := by
  intro cfg
  show some (8 * (ser t.toNat k.toNat cfg.wordOrder).length) = some (8 * k.toNat)
  rw [ser_length]
theorem EncodedSize.code (c : Word) (len : Len) : EncodedSize.Statement (.code c len) := by
  intro cfg
  show some (codeBits len.toNat c.toNat).length = some len.toNat
  rw [codeBits_length]

end Sys2Proof.Laws
end

