-- ==== Sys2Proof/Laws/Sort.lean ====
section
/-! SUPPORT. The sort of the leaves (R121, R122): a permutation, in order, and stable. -/

namespace Sys2Proof.Machine

theorem s8_eq_toInt (b : Byte) : s8 b = b.toInt := by
  unfold s8
  rw [BitVec.toInt_eq_toNat_cond]
  have := b.isLt
  split <;> split <;> omega

theorem symbolFirst_iff (x y : Byte) : symbolFirst Config.fixed.tieSort x y = true ↔ s8 x < s8 y :=
  decide_eq_true_iff

theorem before_eq_true_iff (x y : NodeEntry) :
    before x y = true ↔
      y.freq.toNat < x.freq.toNat ∨ (x.freq.toNat = y.freq.toNat ∧ s8 x.sym < s8 y.sym) := by
  simp [before, symbolFirst_iff, BitVec.lt_def, ← BitVec.toNat_inj]

/-- An entry that may not come before another stays behind whatever that one is behind. -/
theorem not_before_trans {x y z : NodeEntry} (hyx : before y x = false) (hzy : before z y = false) :
    before z x = false := by
  rw [Bool.eq_false_iff, Ne, before_eq_true_iff] at *
  omega

theorem not_before_of_before {x y : NodeEntry} (h : before y x = true) : before x y = false := by
  rw [Bool.eq_false_iff, Ne, before_eq_true_iff]
  rw [before_eq_true_iff] at h
  omega

theorem insertEntry_perm (x : NodeEntry) (l : List NodeEntry) : (insertEntry x l).Perm (x :: l) := by
  induction l with
  | nil => exact List.Perm.refl _
  | cons y ys ih =>
    unfold insertEntry
    split
    · exact (ih.cons y).trans (List.Perm.swap x y ys)
    · exact List.Perm.refl _

/-- The sort loses nothing and adds nothing. -/
theorem sortEntries_perm (l : List NodeEntry) : (sortEntries l).Perm l := by
  induction l with
  | nil => exact List.Perm.refl _
  | cons x xs ih => exact (insertEntry_perm x _).trans (ih.cons x)

@[simp] theorem sortEntries_length (l : List NodeEntry) : (sortEntries l).length = l.length :=
  (sortEntries_perm l).length_eq

theorem mem_sortEntries {l : List NodeEntry} {x : NodeEntry} : x ∈ sortEntries l ↔ x ∈ l :=
  (sortEntries_perm l).mem_iff

theorem insertEntry_pairwise (x : NodeEntry) {l : List NodeEntry}
    (h : l.Pairwise fun a b => before b a = false) :
    (insertEntry x l).Pairwise fun a b => before b a = false := by
  induction l with
  | nil => simp [insertEntry]
  | cons y ys ih =>
    rw [List.pairwise_cons] at h
    unfold insertEntry
    split
    · rename_i hb
      rw [List.pairwise_cons]
      refine ⟨fun a ha => ?_, ih h.2⟩
      rcases List.mem_cons.mp ((insertEntry_perm x ys).mem_iff.mp ha) with rfl | ha
      · exact not_before_of_before hb
      · exact h.1 a ha
    · rename_i hb
      have hyx : before y x = false := by simpa using hb
      rw [List.pairwise_cons]
      refine ⟨fun a ha => ?_, List.pairwise_cons.mpr h⟩
      rcases List.mem_cons.mp ha with rfl | ha
      · exact hyx
      · exact not_before_trans hyx (h.1 a ha)

/-- No later entry comes before an earlier one. -/
theorem sortEntries_pairwise (l : List NodeEntry) :
    (sortEntries l).Pairwise fun a b => before b a = false := by
  induction l with
  | nil => exact List.Pairwise.nil
  | cons x xs ih => exact insertEntry_pairwise x ih

theorem insertEntry_filter (p : NodeEntry → Bool) (x : NodeEntry) (l : List NodeEntry)
    (h : ∀ y, p x = true → p y = true → before y x = false) :
    (insertEntry x l).filter p = if p x then x :: l.filter p else l.filter p := by
  induction l with
  | nil => simp [insertEntry, List.filter_cons]
  | cons y ys ih =>
    unfold insertEntry
    split
    · rename_i hb
      rw [List.filter_cons, ih, List.filter_cons]
      by_cases hx : p x = true
      · have hy : ¬ p y = true := fun hy => by simp [h y hx hy] at hb
        simp [hx, hy]
      · simp [hx]
    · rw [List.filter_cons]

/-- Entries that the order does not tell apart keep their order. -/
theorem sortEntries_filter (p : NodeEntry → Bool) (l : List NodeEntry)
    (h : ∀ x y, p x = true → p y = true → before y x = false) :
    (sortEntries l).filter p = l.filter p := by
  induction l with
  | nil => rfl
  | cons x xs ih =>
    rw [sortEntries, insertEntry_filter p x _ (h x), ih, List.filter_cons]

end Sys2Proof.Machine
end

