-- ==== Sys2Proof/Laws/Step.lean ====
section
/-! SUPPORT. What one step of the machine can be (R199), what a command byte can do (R190), when a part of an
operation cannot stop, and the run of several steps one step at a time. -/

namespace Sys2Proof.Machine

/-! ### Commands -/

theorem accept_cases {s t u : State}
    (h : (Host.Outcome.next (s.accept t) : Result) = Host.Outcome.next u) :
    u = s ∨ (s.status ≠ .busy ∧ u = t) := by
  cases h
  by_cases hb : s.status = .busy
  · exact .inl (State.accept_busy hb)
  · exact .inr ⟨hb, State.accept_free hb⟩

/-- A command byte is `NOP`, starts a command, or is illegal. -/
theorem decodeCmd_cases (c : Byte) :
    decodeCmd c = .nop ∨ decodeCmd c = .compress ∨ decodeCmd c = .decompress ∨
      ∃ b, ∀ s, exec (decodeCmd c) s = illegalCommand b s := by
  unfold decodeCmd
  split; · simp
  split; · simp
  split; · simp
  iterate 6 (split; · exact .inr (.inr (.inr ⟨_, fun _ => rfl⟩)))
  exact .inr (.inr (.inr ⟨_, fun _ => rfl⟩))

/-- What the machine makes of a `CMD` write. -/
theorem execCmd_cases {c : Byte} {s t : State} (h : exec (decodeCmd c) s = .next t) :
    t = s ∨ (s.status ≠ .busy ∧
      (t = s.startCommand .compress ∨ t = s.startCommand .decompress ∨ ∃ b, t = s.illegal b)) := by
  rcases decodeCmd_cases c with e | e | e | ⟨b, e⟩
  · rw [e] at h
    cases h
    exact .inl rfl
  · rw [e] at h
    exact (accept_cases h).imp id fun h => ⟨h.1, .inl h.2⟩
  · rw [e] at h
    exact (accept_cases h).imp id fun h => ⟨h.1, .inr (.inl h.2)⟩
  · rw [e] at h
    exact (accept_cases h).imp id fun h => ⟨h.1, .inr (.inr ⟨b, h.2⟩)⟩

/-! ### Steps -/

theorem fetch_waits {s : State} (h : ∀ e rest, s.host = e :: rest → e.due s = false) :
    fetch s = sequencer { s with host := tickHost s.host } := by
  unfold fetch
  split
  · rename_i hh
    rw [hh]
    cases s
    simp_all [tickHost]
  · rename_i e rest hh
    rw [h e rest hh, hh]
    simp

theorem tickHost_acts {l : List HostEvent} {e : HostEvent} (h : e ∈ tickHost l) :
    ∃ e' ∈ l, e.act = e'.act := by
  cases l with
  | nil => cases h
  | cons x rest =>
    simp only [tickHost, List.mem_cons] at h
    rcases h with rfl | h
    · refine ⟨x, List.mem_cons_self, ?_⟩
      unfold HostEvent.tick
      split <;> rfl
    · exact ⟨e, List.mem_cons_of_mem _ h, rfl⟩

/-- What comes of what was fetched. -/
def Fetched.outcome : Fetched → Result
  | .run i s => exec i s
  | .stop r => .fault r

theorem step_eq (s : State) : step s = (fetch s).outcome := by
  unfold step
  cases fetch s <;> rfl

/-- One step is one of four: the operation of `PHASE`; nothing; the host's `CMD` write; `RESET`. Where the
host does not act, what it plans stays. -/
theorem step_cases {s t : State} (h : step s = .next t) :
    (∃ plan i, s.status = .busy ∧ decodePhase s.phase = some i ∧
      exec i { s with host := plan } = .next t ∧ ∀ e ∈ plan, ∃ e' ∈ s.host, e.act = e'.act) ∨
    (∃ plan, s.status ≠ .busy ∧ t = { s with host := plan } ∧
      ∀ e ∈ plan, ∃ e' ∈ s.host, e.act = e'.act) ∨
    (∃ e rest c m len, s.host = e :: rest ∧ e.act = .cmd c m len ∧
      exec (decodeCmd c) { s with host := rest, offer := { input := m, len := len } } = .next t) ∨
    ∃ e rest, s.host = e :: rest ∧ e.act = .reset ∧ t = State.resetCore { s with host := rest } := by
  have seq : ∀ plan, (∀ e ∈ plan, ∃ e' ∈ s.host, e.act = e'.act) →
      (sequencer { s with host := plan }).outcome = .next t →
      (∃ i, s.status = .busy ∧ decodePhase s.phase = some i ∧
        exec i { s with host := plan } = .next t) ∨
      (s.status ≠ .busy ∧ t = { s with host := plan }) := by
    intro plan _ hh
    simp only [sequencer] at hh
    by_cases hb : s.status = .busy
    · rw [if_pos hb] at hh
      cases hd : decodePhase s.phase with
      | none => simp [hd, Fetched.outcome] at hh
      | some i =>
        simp only [hd] at hh
        exact .inl ⟨i, hb, rfl, hh⟩
    · rw [if_neg hb] at hh
      cases hh
      exact .inr ⟨hb, rfl⟩
  cases hh : s.host with
  | nil =>
    have hs : fetch s = sequencer { s with host := s.host } := by simp [fetch, hh]
    rw [step_eq, hs] at h
    have keep : ∀ e ∈ s.host, ∃ e' ∈ s.host, e.act = e'.act := fun e he => ⟨e, he, rfl⟩
    rw [← hh]
    rcases seq s.host keep h with ⟨i, h1, h2, h3⟩ | ⟨h1, h2⟩
    · exact .inl ⟨_, i, h1, h2, h3, keep⟩
    · exact .inr (.inl ⟨_, h1, h2, keep⟩)
  | cons e rest =>
    cases hd : e.due s with
    | true =>
      have hs : fetch s = deliver e.act { s with host := rest } := by simp [fetch, hh, hd]
      rw [step_eq, hs] at h
      cases ha : e.act with
      | cmd c m len =>
        simp only [deliver, ha] at h
        exact .inr (.inr (.inl ⟨e, rest, c, m, len, rfl, ha, h⟩))
      | reset =>
        simp only [deliver, ha] at h
        cases h
        exact .inr (.inr (.inr ⟨e, rest, rfl, ha, rfl⟩))
    | false =>
      rw [step_eq, fetch_waits fun e' rest' he => by rw [hh] at he; cases he; exact hd] at h
      rw [← hh]
      have keep : ∀ e ∈ tickHost s.host, ∃ e' ∈ s.host, e.act = e'.act := fun _ he => tickHost_acts he
      rcases seq (tickHost s.host) keep h with ⟨i, h1, h2, h3⟩ | ⟨h1, h2⟩
      · exact .inl ⟨_, i, h1, h2, h3, keep⟩
      · exact .inr (.inl ⟨_, h1, h2, keep⟩)

/-- A run begins with its first step. -/
theorem run_succ {M : Host.Core} {s t : M.State} {k : Nat} (h : M.step s = .next t) :
    M.run (k + 1) s = M.run k t := by
  simp [Host.Core.run, h]

/-! ### Parts of operations that cannot stop -/

theorem State.memRead_total {s : State} {a n : Nat} (h1 : 1 ≤ n) (h8 : n ≤ 8)
    (ho : s.flags.inOpen = true) (hl : a + n ≤ s.inLen.toNat)
    (hc : ∀ j < n, (s.inp.byteAt (a + j)).isSome) :
    (∃ bs, s.inp.bytesAt a n = some bs ∧ bs.length = n ∧ s.memRead a n = .ok bs s.afterDraw) ∨
      s.memRead a n = .halt (.next (s.afterDraw.raise .ioError 0)) := by
  obtain ⟨bs, hb⟩ := Memory.bytesAt_isSome hc
  cases hd : s.nextDraw with
  | passes =>
    exact .inl ⟨bs, hb, Memory.length_of_bytesAt hb, State.memRead_pass h1 h8 ho hl hd hb⟩
  | fails p => exact .inr (State.memRead_fail h1 h8 ho hl hd)

theorem State.memWrite_total {s : State} {bs : List Byte} (h1 : 1 ≤ bs.length) (h8 : bs.length ≤ 8) :
    s.memWrite bs = .ok () (s.afterDraw.appendOut bs) ∨ ∃ u, s.memWrite bs = .halt (.next u) := by
  cases hd : s.nextDraw with
  | passes => exact .inl (State.memWrite_pass h1 h8 hd)
  | fails p => exact .inr ⟨_, State.memWrite_fail h1 h8 hd⟩

theorem putCode_total {s : State} {v : Word} {l : Len} (hf : s.free.toNat ≤ 64)
    (hv : codeFits v l = true) :
    (∃ u, putCode v l s = .ok () u) ∨ ∃ u, putCode v l s = .halt (.next u) := by
  by_cases hl : l.toNat ≤ s.free.toNat
  · exact .inl ⟨_, putCode_fit hf hv hl⟩
  · cases hd : s.nextDraw with
    | passes => exact .inl ⟨_, putCode_split_pass hf hv (by omega) hd⟩
    | fails p => exact .inr ⟨_, putCode_split_fail hf hv (by omega) hd⟩

/-- Every write keeps the canonical form of `OUT`. -/
theorem State.appendOut_wf {s : State} (bs : List Byte) (h : s.out.wf = true) :
    (s.appendOut bs).out.wf = true := Memory.wf_appendAll bs h

end Sys2Proof.Machine
end

