-- ==== Sys2Proof/Tests/Slice0.lean ====
section
/-! SUPPORT. Tests of the model against the spec's own examples (spec/95_test_vectors.md and the examples of
the rules), the smoke test of `WellFormed`, the words of the encodings, and a state that meets the
hypotheses of each claim. -/

namespace Sys2Proof.Tests

set_option Elab.async false

open Sys2Proof.Machine Sys2Proof.Claim

/-! ## Small states -/

/-- A running command in a phase, with an oracle that fails nothing. -/
def busy (op : Op) (p : PhaseCode) : State :=
  { State.reset with
    status := .busy
    op := op
    phase := p
    flags := { emptyInput := false, inOpen := true, outOpen := true }
    draws := List.replicate 8 .passes }

/-- The input of the command. -/
def feed (bs : List Byte) (s : State) : State :=
  { s with inp := Memory.ofBytes bs, inLen := BitVec.ofNat 64 bs.length, inPos := 0 }

/-- The oracle fails the access after `k` that pass; `p` bytes of a write land. -/
def failing (k p : Nat) (s : State) : State :=
  { s with draws := List.replicate k .passes ++ [.fails p] }

/-- The first entries of the store, with `n` leaves. -/
def grown (n : Byte) (es : List NodeEntry) (s : State) : State :=
  { s with n := n, node := placeEntries es 0 s.node }

def leafE (sym : Byte) (freq : Word) (parent : Idx := Config.none) : NodeEntry :=
  { NodeEntry.afterReset with kind := .leaf, sym := sym, freq := freq, parent := parent }

def innerE (freq : Word) (left right : Idx) (parent : Idx := Config.none) : NodeEntry :=
  { NodeEntry.afterReset with
    kind := .internal, freq := freq, left := left, right := right, parent := parent }

def lutE (c : Word) (len : Len) : LutEntry := { valid := true, code := c, len := len }

/-- The leaves of `abracadabra` in ascending symbol order (95, section 2.3). -/
def abraScanned : List NodeEntry :=
  [leafE 0x00 1, leafE 0x61 5, leafE 0x62 2, leafE 0x63 1, leafE 0x64 1, leafE 0x72 2]

/-- The same after the sort. -/
def abraSorted : List NodeEntry :=
  [leafE 0x61 5, leafE 0x62 2, leafE 0x72 2, leafE 0x00 1, leafE 0x63 1, leafE 0x64 1]

/-- The tree of R131, parents as the rule lists them. -/
def abraTree : List NodeEntry :=
  [leafE 0x61 5 10, leafE 0x62 2 8, leafE 0x72 2 7, leafE 0x00 1 7, leafE 0x63 1 6, leafE 0x64 1 6,
    innerE 2 5 4 8, innerE 3 3 2 9, innerE 4 1 6 9, innerE 7 7 8 10, innerE 12 0 9]

/-- What an operation leaves of a state, in part; none where it stops. -/
def after {α : Type} (i : Instr) (s : State) (f : State → α) : Option α :=
  match exec i s with
  | .next t => some (f t)
  | _ => none

/-- The state an operation leaves. -/
def then_ (i : Instr) (s : State) : State :=
  match exec i s with
  | .next t => t
  | _ => s

theorem exec_then_ {i : Instr} {s : State} (h : after i s (fun _ => ()) = some ()) :
    exec i s = .next (then_ i s) := by
  unfold after at h
  unfold then_
  split at h
  · rename_i t ht
    simp [ht]
  · simp at h

/-- Status, cause and info. -/
def verdict (t : State) : Status × Cause × Word := (t.status, t.cause, t.info)

/-! ## `WellFormed` refuses ill-formed terms -/

theorem test_wf_pair_width : WellFormed (.pair 0x61 3 0) = false := by decide
theorem test_wf_pair_frequency : WellFormed (.pair 0x61 1 256) = false := by decide
theorem test_wf_tail_empty : WellFormed (.tail 0 0) = false := by decide
theorem test_wf_tail_long : WellFormed (.tail 8 0) = false := by decide
theorem test_wf_tail_value : WellFormed (.tail 1 256) = false := by decide
theorem test_wf_code_long : WellFormed (.code 0 65) = false := by decide
theorem test_wf_code_bits : WellFormed (.code 0b100 2) = false := by decide
theorem test_wf_put_long : WellFormed (.bsePut 0 65) = false := by decide
theorem test_wf_put_bits : WellFormed (.bsePut 1 0) = false := by decide

/-! ## Words written out from the spec's encodings (R82 to R89) -/

theorem test_decode_commands :
    decode Config.hufcore (.cmd 0b00000000#8) = .ok .nop ∧
    decode Config.hufcore (.cmd 0b00000001#8) = .ok .compress ∧
    decode Config.hufcore (.cmd 0b00000010#8) = .ok .decompress := by decide

theorem test_decode_illegal_commands :
    decode Config.hufcore (.cmd 0b00000011#8) = .ok .illegal03 ∧
    decode Config.hufcore (.cmd 0b00000110#8) = .ok (.illegal04 0b10) ∧
    decode Config.hufcore (.cmd 0b00001101#8) = .ok (.illegal08 0b101) ∧
    decode Config.hufcore (.cmd 0b00011001#8) = .ok (.illegal10 0b1001) ∧
    decode Config.hufcore (.cmd 0b00110001#8) = .ok (.illegal20 0b10001) ∧
    decode Config.hufcore (.cmd 0b01100001#8) = .ok (.illegal40 0b100001) ∧
    decode Config.hufcore (.cmd 0b11000001#8) = .ok (.illegal80 0b1000001) := by decide

theorem test_decode_phases_build :
    decodePhase 0b000001#6 = some .fsClear ∧ decodePhase 0b000010#6 = some .fsCount ∧
    decodePhase 0b000011#6 = some .fsSent ∧ decodePhase 0b000100#6 = some .fsCollect ∧
    decodePhase 0b001000#6 = some .tbSort ∧ decodePhase 0b001001#6 = some .tbInit ∧
    decodePhase 0b001010#6 = some .tbMerge ∧ decodePhase 0b001011#6 = some .tbRoot ∧
    decodePhase 0b010000#6 = some .caClear ∧ decodePhase 0b010001#6 = some .caWalk := by decide

theorem test_decode_phases_streams :
    decodePhase 0b011000#6 = some .hcWidth ∧ decodePhase 0b011001#6 = some .hcPuthdr ∧
    decodePhase 0b011010#6 = some .hcPutpair ∧ decodePhase 0b011011#6 = some .hcGethdr ∧
    decodePhase 0b011100#6 = some .hcGetpair ∧ decodePhase 0b100000#6 = some .bseInit ∧
    decodePhase 0b100001#6 = some .bseSym ∧ decodePhase 0b100010#6 = some .bseEos ∧
    decodePhase 0b100011#6 = some .bseFinal ∧ decodePhase 0b101000#6 = some .bsdInit ∧
    decodePhase 0b101001#6 = some .bsdFetch ∧ decodePhase 0b101010#6 = some .bsdBit ∧
    decodePhase 0b110000#6 = some .cmdClose ∧ decodePhase 0b000000#6 = some .pIdle := by decide

/-- `06 01`, `61 E8 03` under `LE` and `61 03 E8` under `BE` (95, section 2.5). -/
theorem test_decode_header :
    decode Config.hufcore (.hdrCount 0x06) = .ok (.hdrCount 6) ∧
    decode Config.hufcore (.hdrWidth 0x01) = .ok (.hdrWidth 1) ∧
    decode Config.hufcore (.pair [0x61, 0xE8, 0x03]) = .ok (.pair 0x61 2 1000) ∧
    decode { freqOrder := .be, wordOrder := .le } (.pair [0x61, 0x03, 0xE8]) =
      .ok (.pair 0x61 2 1000) := by decide

/-- A word and a tail (95, sections 2.6 and 2.7). -/
theorem test_decode_payload :
    decode Config.hufcore (.payload [0x5A, 0xAA, 0xB9, 0x57, 0x4B, 0x35, 0xF7, 0x6A]) =
      .ok (.word 0x6AF7354B57B9AA5A) ∧
    decode Config.hufcore (.payload [0x40, 0x35, 0xF7, 0x6A]) = .ok (.tail 4 0x6AF73540) ∧
    decode { freqOrder := .le, wordOrder := .be } (.payload [0x6A, 0xF7, 0x35, 0x40]) =
      .ok (.tail 4 0x6AF73540) := by decide

/-- The code 110 of `b` (R142). -/
theorem test_decode_code :
    decode Config.hufcore (.code [true, true, false]) = .ok (.code 0b110 3) := by decide

theorem test_decode_rejects_by_name :
    decode Config.hufcore (.phase 5) = .error (.unusedPhase 5) ∧
    decode Config.hufcore (.pair [0x61, 1, 2, 3]) = .error (.pairLength 4) ∧
    decode Config.hufcore (.payload []) = .error (.payloadLength 0) ∧
    decode Config.hufcore (.code (List.replicate 65 true)) = .error (.codeLength 65) := by decide

/-- The table's own numbering: a phase row, a command row, a byte that is no phase code. -/
theorem test_decode_table_words :
    decodeTableWord 6 0x2A = some .bsdBit ∧ decodeTableWord 8 0x2A = some .bsdBit ∧
    decodeTableWord 8 0x05 = some (.illegal04 1) ∧ decodeTableWord 8 0xFF = some (.illegal80 127) := by
  decide

theorem test_encode_words :
    encode Config.hufcore (.illegal40 0) = some (.cmd 0x40) ∧
    encode Config.hufcore .bseFinal = some (.phase 35) ∧
    encode Config.hufcore (.pair 0x61 4 70000) = some (.pair [0x61, 0x70, 0x11, 0x01, 0x00]) ∧
    encode { freqOrder := .be, wordOrder := .be } (.pair 0x61 4 70000) =
      some (.pair [0x61, 0x00, 0x01, 0x11, 0x70]) := by decide

/-! ## One step each, expected results from the spec's examples -/

/-- 95, section 2.8: `CMD <- 0x00` changes nothing. -/
theorem test_nop : after .nop State.reset verdict = some (.idle, .none, 0) := by decide

/-- R191, R193: a COMPRESS of no byte. -/
theorem test_compress_start :
    after .compress State.reset (fun t => (t.status, t.op, t.phase, t.flags.bits)) =
      some (.busy, .compress, 1, 0b111) := by decide

/-- R191: a DECOMPRESS never sets `EMPTY_INPUT`. -/
theorem test_decompress_start :
    after .decompress State.reset (fun t => (t.status, t.op, t.phase, t.flags.bits)) =
      some (.busy, .decompress, 27, 0b110) := by decide

/-- 95, section 2.8: `CMD <- 0x02` while `BUSY` is ignored. -/
theorem test_decompress_while_busy :
    after .decompress (busy .compress 2) (fun t => (t.status, t.op, t.phase)) =
      some (.busy, .compress, 2) := by decide

/-- 95, section 2.8: `CMD <- 0x03` and `CMD <- 0xFF`. -/
theorem test_illegal_least : after .illegal03 State.reset verdict = some (.failed, .illegalCommand, 3) := by
  decide
theorem test_illegal_greatest :
    after (.illegal80 127) State.reset verdict = some (.failed, .illegalCommand, 255) := by decide

/-- R110: `CNT[97] = 0`. -/
theorem test_fsClear : after .fsClear (busy .compress 1) (fun t => (t.cnt[97], t.phase)) = some (0, 2) := by
  decide +kernel

/-- R111: the byte 61 counted. -/
theorem test_fsCount_counts :
    after .fsCount (feed [0x61, 0x62] { busy .compress 2 with cnt := Vector.replicate 128 0 })
      (fun t => (t.cnt[97], t.cnt[98], t.inPos)) = some (1, 0, 1) := by decide +kernel

/-- 95, section 2.2: the byte 80. -/
theorem test_fsCount_rejects :
    after .fsCount (feed [0x80] (busy .compress 2)) verdict = some (.failed, .symbolOutOfRange, 0) := by
  decide

/-- R112; 95, section 3: the counter wraps. -/
theorem test_fsSent_wraps :
    after .fsSent { busy .compress 3 with cnt := Vector.replicate 128 (-1) } (fun t => (t.cnt[0], t.cnt[1])) =
      some (0, -1) := by decide +kernel

/-- 95, section 2.2: the input 61 62 61. -/
theorem test_fsCollect :
    after .fsCollect
      { busy .compress 4 with cnt := (((Vector.replicate 128 0).set 0 1).set 0x61 2).set 0x62 1 }
      (fun t => (t.n, [0, 1, 2].map fun i => (t.nodeAt i).map fun e => (e.sym, e.freq))) =
      some (3, [some (0x00, 1), some (0x61, 2), some (0x62, 1)]) := by decide +kernel

/-- R213: no leaf at all. -/
theorem test_fsCollect_empty :
    after .fsCollect { busy .compress 4 with cnt := Vector.replicate 128 0 } verdict =
      some (.failed, .emptyAlphabet, 0) := by decide +kernel

/-- 95, section 2.3, the row of `abracadabra`. -/
theorem test_tbSort :
    after .tbSort (grown 6 abraScanned (busy .compress 8)) (fun t => t.leaves) = some abraSorted := by
  decide +kernel

/-- 95, section 2.3, last row: 80 is -128 and comes first. -/
theorem test_tbSort_signed :
    after .tbSort (grown 3 [leafE 0x00 1, leafE 0x01 1, leafE 0x80 1] (busy .decompress 8))
      (fun t => t.leaves.map NodeEntry.sym) = some [0x80, 0x00, 0x01] := by decide +kernel

theorem test_tbInit :
    after .tbInit { busy .compress 9 with n := 6 } (fun t => (t.lrem, t.qh, t.nt, t.phase)) =
      some (6, 6, 6, 10) := by decide

/-- R124's example: `LREM = 4`, `NODE[3].freq = 1`, the queue's head weighs 2. -/
theorem test_tbTake_leaf :
    after .tbTake
      { grown 6 abraTree (busy .compress 10) with lrem := 4, qh := 6, nt := 7 }
      (fun t => (t.sel, t.lrem, t.qh)) = some (3, 3, 6) := by decide +kernel

/-- R131, merge 4: node 7 of weight 3 before leaf 0 of weight 5. -/
theorem test_tbTake_pending :
    after .tbTake
      { grown 6 abraTree (busy .compress 10) with lrem := 1, qh := 7, nt := 9 }
      (fun t => (t.sel, t.lrem, t.qh)) = some (7, 1, 8) := by decide +kernel

/-- R131, merge 3: leaf 1 on a tie, then node 6. -/
theorem test_tbMerge :
    after .tbMerge
      { grown 6 abraTree (busy .compress 10) with lrem := 2, qh := 6, nt := 8 }
      (fun t => (t.lrem, t.qh, t.nt, (t.nodeAt 8).map fun e => (e.freq, e.left, e.right))) =
      some (1, 7, 9, some (4, 1, 6)) := by decide +kernel

/-- 95, section 3: the sum of two weights wraps. -/
theorem test_tbMerge_wraps :
    after .tbMerge
      { grown 2 [leafE 0x61 (1 <<< 63), leafE 0x00 (1 <<< 63)] (busy .decompress 10) with
        lrem := 2, qh := 2, nt := 2 }
      (fun t => ((t.nodeAt 2).map NodeEntry.freq, t.phase)) = some (some 0, 11) := by decide +kernel

/-- R127: `N = 6` gives 10, `N = 1` gives 0. -/
theorem test_tbRoot :
    after .tbRoot { busy .decompress 11 with n := 6, nt := 11 } (fun t => (t.root, t.phase)) =
      some (10, 40) := by decide
theorem test_tbRoot_one_leaf :
    after .tbRoot { busy .compress 11 with n := 1, nt := 1 } (fun t => (t.root, t.phase)) =
      some (0, 16) := by decide

theorem test_caClear :
    after .caClear (busy .compress 16) (fun t => (t.lut[0x61].valid, t.lut[0x61].len, t.caI)) =
      some (false, 1, 0) := by decide +kernel

/-- R142: leaf 5 (`d`) has the code 1110. -/
theorem test_caWalk :
    after .caWalk { grown 6 abraTree (busy .compress 17) with caI := 5 }
      (fun t => (t.lut[0x64], (t.nodeAt 5).map fun e => (e.code, e.len), t.caI)) =
      some (lutE 0b1110 4, some (0b1110, 4), 6) := by decide +kernel

/-- 95, section 2.5. -/
theorem test_hcWidth :
    ([0xFF, 0x100, 0xFFFF, 0x10000, 0xFFFFFFFF, 0x100000000].map fun m : Word =>
      after .hcWidth (grown 1 [leafE 0x61 m] (busy .compress 24)) (fun t => t.f)) =
      [some 1, some 2, some 2, some 4, some 4, some 8] := by decide +kernel

/-- R147's example. -/
theorem test_hcPuthdr :
    after .hcPuthdr { busy .compress 25 with n := 6, f := 1 } (fun t => (t.out.bytes, t.outLen)) =
      some ([0x06, 0x01], 2) := by decide

/-- R148's example. -/
theorem test_hcPutpair :
    after .hcPutpair { grown 1 [leafE 0x61 1000] (busy .compress 26) with f := 2, hcI := 0 }
      (fun t => (t.out.bytes, t.hcI)) = some ([0x61, 0xE8, 0x03], 1) := by decide +kernel

/-- 95, section 2.8: the frequency byte's write fails after the symbol's landed. -/
theorem test_hcPutpair_fails :
    after .hcPutpair (failing 1 0 { grown 1 [leafE 0x61 2] (busy .compress 26) with f := 1, hcI := 0 })
      (fun t => (t.out.bytes, verdict t)) = some ([0x61], .failed, .ioError, 1) := by decide +kernel

/-- 95, section 2.5: the rows for DECOMPRESS of a malformed header. -/
theorem test_hcGethdr_malformed :
    ([[], [0x00, 0x03], [0x01, 0x03, 0, 1, 0, 0], [0x02, 0x01, 0x61, 0x05, 0x00]].map
      fun bs : List Byte => after .hcGethdr (feed bs (busy .decompress 27)) (fun t => t.info)) =
      [some 0, some 1, some 2, some 3] := by decide

theorem test_hcGethdr :
    after .hcGethdr (feed [0x02, 0x01, 0x61, 0x05, 0x00, 0x01] (busy .decompress 27))
      (fun t => (t.n, t.f, t.inPos, t.hcI)) = some (2, 1, 2, 0) := by decide

/-- R151's example. -/
theorem test_hcGetpair :
    after .hcGetpair (feed [0x61, 0xE8, 0x03] { busy .decompress 28 with n := 6, f := 2, hcI := 0 })
      (fun t => (t.inPos, t.hcI, (t.nodeAt 0).map fun e => (e.sym, e.freq, e.parent))) =
      some (3, 1, some (0x61, 1000, 0x1FF)) := by decide +kernel

theorem test_bseInit : after .bseInit (busy .compress 32) (fun t => (t.acc, t.free)) = some (0, 64) := by
  decide

/-- R161's example: `b` with the code 110. -/
theorem test_bseSym :
    after .bseSym
      (feed [0x62] { busy .compress 33 with
        acc := 0, free := 63, lut := (Vector.replicate 128 (lutE 0 0)).set 0x62 (lutE 0b110 3) })
      (fun t => (t.acc, t.free, t.phase)) = some (0x6000000000000000, 60, 33) := by decide +kernel

/-- 95, section 2.8: a byte that was not counted. -/
theorem test_bseSym_misses :
    after .bseSym
      (feed [0x62] { busy .compress 33 with
        lut := Vector.replicate 128 { lutE 0 0 with valid := false } }) verdict =
      some (.failed, .lookupMiss, 0) := by decide +kernel

/-- R162's example. -/
theorem test_bseEos :
    after .bseEos
      { busy .compress 34 with
        acc := 0x6AF7350000000000, free := 39
        lut := (Vector.replicate 128 (lutE 0 0)).set 0 (lutE 0b100 3) }
      (fun t => (t.acc, t.free)) = some (0x6AF7354000000000, 36) := by decide +kernel

/-- R163's example: an accumulator with two free bits left. -/
def nearlyFull : State := { busy .compress 33 with acc := 0x6AF7354B57B9AA58, free := 2 }

/-- R163's example: a code split over a word; where the write fails the word has been filled (R220). -/
theorem test_bsePut_splits :
    after (.bsePut 0b101 3) nearlyFull (fun t => (t.acc, t.free, t.out.bytes)) =
      some (0x8000000000000000, 63, [0x5A, 0xAA, 0xB9, 0x57, 0x4B, 0x35, 0xF7, 0x6A]) ∧
    after (.bsePut 0b101 3) (failing 0 1 nearlyFull)
      (fun t => (t.acc, t.free, t.out.bytes, t.cause)) =
      some (0x6AF7354B57B9AA5A, 2, [0x5A], .ioError) := by decide

/-- 95, section 2.6: a code of 64 bits on a full word. -/
theorem test_bsePut_full :
    after (.bsePut 0xFFFFFFFFFFFFFFFE 64) { busy .compress 33 with acc := 0x0123456789ABCDEF, free := 0 }
      (fun t => (t.acc, t.free, t.out.bytes)) =
      some (0xFFFFFFFFFFFFFFFE, 0, [0xEF, 0xCD, 0xAB, 0x89, 0x67, 0x45, 0x23, 0x01]) := by decide

/-- 95, section 2.6: 41 bits left, under both orders. -/
theorem test_bseFinal :
    after .bseFinal { busy .compress 35 with acc := 0xFFFFFFFFFF000000, free := 23 } (fun t => t.out.bytes) =
      some [0x00, 0xFF, 0xFF, 0xFF, 0xFF, 0xFF] ∧
    after .bseFinal
      { busy .compress 35 with
        acc := 0xFFFFFFFFFF000000, free := 23, cfg := { freqOrder := .be, wordOrder := .be } }
      (fun t => t.out.bytes) = some [0xFF, 0xFF, 0xFF, 0xFF, 0xFF, 0x00] := by decide

/-- 95, section 2.8: the tail's write fails with two bytes landed. -/
theorem test_bseFinal_fails :
    after .bseFinal (failing 0 2 { busy .compress 35 with acc := 0x6AF7354000000000, free := 36 })
      (fun t => (t.out.bytes, verdict t)) = some ([0x40, 0x35], .failed, .ioError, 1) := by decide

/-- 95, section 2.7, single operations. -/
theorem test_bsdInit :
    after .bsdInit { grown 6 abraTree (busy .decompress 40) with inLen := 18, f := 1, root := 10 }
      (fun t => (t.prem, t.nbits, t.cur, t.phase)) = some (4, 0, 10, 41) := by decide +kernel

/-- R175 states no `PREM` for an input shorter than its header; all else happens (assumption log 20). -/
theorem test_bsdInit_short :
    after .bsdInit { grown 6 abraTree (busy .decompress 40) with inLen := 13, f := 1, root := 10 }
      (fun t => (t.nbits, t.cur, t.phase)) = some (0, 10, 41) := by decide +kernel

theorem test_bsdFetch :
    after .bsdFetch (feed [0x40, 0x35, 0xF7, 0x6A] { busy .decompress 41 with prem := 4 })
      (fun t => (t.dword, t.nbits, t.inPos, t.prem)) = some (0x6AF7354000000000, 32, 4, 0) := by decide

theorem test_bsdFetch_exhausted :
    after .bsdFetch { busy .decompress 41 with prem := 0 } verdict =
      some (.failed, .unexpectedEndOfStream, 0) := by decide

theorem test_bsdBit_leaf :
    after .bsdBit
      { grown 6 abraTree (busy .decompress 42) with
        root := 10, cur := 10, dword := 0x6AF7354000000000, nbits := 32 }
      (fun t => (t.out.bytes, t.cur, t.dword, t.nbits, t.phase)) =
      some ([0x61], 10, 0xD5EE6A8000000000, 31, 42) := by decide +kernel

theorem test_bsdBit_inner :
    after .bsdBit
      { grown 6 abraTree (busy .decompress 42) with
        root := 10, cur := 10, dword := 0xD5EE6A8000000000, nbits := 1 }
      (fun t => (t.out.bytes, t.cur, t.dword, t.nbits, t.phase)) =
      some ([], 9, 0xABDCD50000000000, 0, 41) := by decide +kernel

/-- R176's example, and the sentinel. -/
theorem test_bsdLeaf :
    after .bsdLeaf { grown 6 abraTree (busy .decompress 42) with cur := 2, root := 10 }
      (fun t => (t.out.bytes, t.cur)) = some ([0x72], 10) := by decide +kernel
theorem test_bsdLeaf_sentinel :
    after .bsdLeaf { grown 6 abraTree (busy .decompress 42) with cur := 3, root := 10 }
      (fun t => (t.out.bytes, t.phase)) = some ([], 48) := by decide +kernel

theorem test_cmdClose :
    after .cmdClose (busy .compress 48) (fun t => (verdict t, t.flags.bits, t.phase)) =
      some ((.done, .none, 0), 0, 0) := by decide

theorem test_pIdle : after .pIdle State.reset (fun t => t.phase) = some 0 := by decide

/-- 95, section 2.8: the bytes appended stay in `OUT`. -/
theorem test_reset :
    after .reset { busy .compress 33 with out := Memory.ofBytes [1, 2], outLen := 2 }
      (fun t => (verdict t, t.outLen, t.out.bytes, t.flags.bits)) =
      some ((.idle, .none, 0), 0, [1, 2], 0) := by decide

theorem test_hdrCount :
    after (.hdrCount 0) (feed [0, 1] (busy .decompress 27)) verdict = some (.failed, .malformedHeader, 1) := by
  decide

theorem test_hdrWidth :
    after (.hdrWidth 8) { feed (List.replicate 11 1) (busy .decompress 27) with n := 1, inPos := 1 }
      (fun t => (t.f, t.inPos, t.phase)) = some (8, 2, 28) := by decide

theorem test_pair :
    after (.pair 0x61 2 1000) { busy .decompress 28 with inPos := 2, hcI := 0 }
      (fun t => (t.inPos, (t.nodeAt 0).map fun e => (e.sym, e.freq))) = some (5, some (0x61, 1000)) := by
  decide +kernel

theorem test_word :
    after (.word 0x6AF7354B57B9AA5A) { busy .decompress 41 with prem := 11, inPos := 16 }
      (fun t => (t.dword, t.nbits, t.inPos, t.prem)) = some (0x6AF7354B57B9AA5A, 64, 24, 3) := by decide

theorem test_tail :
    after (.tail 1 0x2C) { busy .decompress 41 with prem := 1, inPos := 8 }
      (fun t => (t.dword, t.nbits, t.inPos, t.prem)) = some (0x2C00000000000000, 8, 9, 0) := by decide

/-- A word where one payload byte is left: `PREM` is unstated, all else happens (assumption log 20). -/
theorem test_word_short :
    after (.word 0x6AF7354B57B9AA5A) { busy .decompress 41 with prem := 1, inPos := 16 }
      (fun t => (t.dword, t.nbits, t.inPos, t.phase)) = some (0x6AF7354B57B9AA5A, 64, 24, 42) := by decide

/-- R142: 1110 leads from the root to `d`. -/
theorem test_code :
    after (.code 0b1110 4) { grown 6 abraTree (busy .decompress 42) with root := 10, cur := 10 }
      (fun t => (t.out.bytes, t.cur)) = some ([0x64], 10) := by decide +kernel

/-- The host's plan: the write waits for `BUSY` to end, then the command starts. -/
theorem test_step_delivers :
    (match step { State.reset with host := [{ wait := .notBusy, act := .cmd 0x01 [(0, 0x61)] 1 }] } with
      | .next t => some (t.status, t.phase, t.inLen, t.inp.bytes)
      | _ => none) = some (.busy, 1, 1, [0x61]) := by decide

/-! ## States that meet the hypotheses of the claims

`wit_X` (or `wit_X_<clause>`) shows concrete values that meet the hypotheses of `Obligations.X` together, at
the ends of the ranges that its clauses name. -/

theorem hostWaits_of_nil {s : State} (h : s.host = []) : HostWaits s := by
  intro e rest he
  rw [h] at he
  cases he

/-- A host that waits two more steps. -/
def waiting (s : State) : State := { s with host := [{ wait := .steps 2, act := .reset }] }

theorem hostWaits_waiting (s : State) : HostWaits (waiting s) := by
  intro e rest he
  cases he
  rfl

theorem wit_EveryEncodingDecodesBack :
    (WellFormed (.pair 0xFF 8 (-1)) = true ∧
      encode Config.hufcore (.pair 0xFF 8 (-1)) = some (.pair (List.replicate 9 0xFF))) ∧
    (WellFormed (.tail 7 0xFFFFFFFFFFFFFF) = true ∧
      encode Config.hufcore (.tail 7 0xFFFFFFFFFFFFFF) = some (.payload (List.replicate 7 0xFF))) ∧
    (WellFormed (.code (-1) 64) = true ∧
      encode Config.hufcore (.code (-1) 64) = some (.code (List.replicate 64 true))) := by decide

theorem wit_EveryDecodingEncodesBack :
    decode Config.hufcore (.payload (List.replicate 8 0xFF)) = .ok (.word (-1)) := by decide

theorem wit_PhaseCodesSelectTheirOperations :
    (48, Instr.cmdClose) ∈ phaseTable ∧ (5 : PhaseCode) ∉ phaseTable.map Prod.fst ∧
      (63 : PhaseCode) ∉ phaseTable.map Prod.fst := by decide

theorem wit_CommandBytesDecode : 3 ≤ (0x03 : Byte).toNat ∧ 3 ≤ (0xFF : Byte).toNat := by decide

theorem wit_StepRunsTheDecodedOperation_sequencer :
    HostWaits (waiting (busy .compress 1)) ∧ (waiting (busy .compress 1)).status = .busy ∧
      decodePhase (waiting (busy .compress 1)).phase = some .fsClear :=
  ⟨hostWaits_waiting _, by decide, by decide⟩

theorem wit_StepRunsTheDecodedOperation_command :
    let e : HostEvent := { wait := .steps 0, act := .cmd 0x01 [(0, 0x61)] 1 }
    e.due { busy .compress 1 with host := [e] } = true ∧ e.act = .cmd 0x01 [(0, 0x61)] 1 := by decide

theorem wit_StepRunsTheDecodedOperation_reset :
    let e : HostEvent := { wait := .notBusy, act := .reset }
    e.due { State.reset with host := [e] } = true ∧ e.act = .reset := by decide

theorem wit_IdleCoreKeepsWhatTheHostReads :
    (HostWaits (waiting State.reset) ∧ (waiting State.reset).status ≠ .busy) ∧
      (Status.idle, 0) ∈ statusTable ∧ (Cause.none, 0) ∈ causeTable ∧ State.reset.out.wf = true ∧
      State.reset.out.endOff = State.reset.out.length ∧ (busy .compress 1).status = .busy :=
  ⟨⟨hostWaits_waiting _, by decide⟩, by decide⟩

theorem wit_CommandStartSetsTheRegisters : State.reset.status ≠ .busy := by decide

theorem wit_WriteWhileBusyIsIgnored : (busy .compress 2).status = .busy := by decide

theorem wit_IllegalCommandFails :
    cmdByte .illegal03 = some 0x03 ∧ 3 ≤ (0x03 : Byte).toNat ∧ cmdByte (.illegal80 127) = some 0xFF ∧
      State.reset.status ≠ .busy := by decide

/-! ### Scanner, tree and codes -/

theorem wit_ScanCountsEachByte_end : (feed [] (busy .compress 2)).inPos = (feed [] (busy .compress 2)).inLen := by
  decide

/-- The greatest byte that is counted, and the least that is not. -/
theorem wit_ScanCountsEachByte_bytes : ∀ b ∈ [(0x7F : Byte), 0x80],
    let s := feed [b] (busy .compress 2)
    s.inPos ≠ s.inLen ∧ Readable s s.inPos.toNat 1 ∧ s.nextDraw = .passes ∧
      s.inp.byteAt s.inPos.toNat = some b := by
  unfold Readable
  decide

theorem wit_ScanCountsEachByte_fails :
    let s := failing 0 0 (feed [0x61] (busy .compress 2))
    s.inPos ≠ s.inLen ∧ Readable s s.inPos.toNat 1 ∧ s.nextDraw = .fails 0 := by
  unfold Readable
  decide

theorem wit_CollectListsTheCountedSymbols :
    ((List.range 128).filter fun i => (Vector.replicate 128 (0 : Word))[i]? ≠ some 0) = [] ∧
      ((List.range 128).filter fun i => State.reset.cnt[i]? ≠ some 0)[127]? = some 127 := by
  decide +kernel

theorem wit_MergeStartsWithAllLeaves :
    2 ≤ ({ State.reset with n := 2 } : State).n.toNat ∧ ({ State.reset with n := 1 } : State).n.toNat < 2 := by
  decide

/-- Two leaves and two pending subtrees of given weights. -/
def items (leaf pending : Word) : State :=
  { grown 2 [leafE 0x61 9, leafE 0x62 leaf, innerE pending 0 1] (busy .compress 10) with
    lrem := 2, qh := 2, nt := 3 }

/-- The weights are equal, or the leaf is heavier by one. -/
theorem wit_TakeIsTheLighterItem_both :
    ((items 4 4).lrem ≠ 0 ∧ (items 4 4).qh < (items 4 4).nt) ∧
      ((items 4 4).nodeAt ((items 4 4).lrem - 1) = some (leafE 0x62 4) ∧
        (items 4 4).nodeAt (items 4 4).qh = some (innerE 4 0 1)) ∧
      (items 5 4).nodeAt ((items 5 4).lrem - 1) = some (leafE 0x62 5) ∧
        (items 5 4).nodeAt (items 5 4).qh = some (innerE 4 0 1) := by decide +kernel

theorem wit_TakeIsTheLighterItem_one :
    (({ items 1 1 with qh := 3 } : State).lrem ≠ 0 ∧ ¬ ({ items 1 1 with qh := 3 } : State).qh < (items 1 1).nt) ∧
      (({ items 1 1 with lrem := 0 } : State).lrem = 0 ∧ (items 1 1).qh < (items 1 1).nt) := by decide +kernel

/-- Two leaves, nothing merged yet. -/
def twoLeaves : State :=
  { grown 2 [leafE 0x61 1, leafE 0x00 1] (busy .compress 10) with lrem := 2, qh := 2, nt := 2 }

theorem wit_MergeJoinsTheTwoTakenItems : MergeOk twoLeaves ∧ 2 ≤ twoLeaves.items := by
  refine ⟨⟨by decide, by decide, by decide, by decide, ⟨?_, ?_⟩⟩, by decide⟩
  · intro i hi
    have hi : i < 2 := hi
    rcases (by omega : i = 0 ∨ i = 1) with rfl | rfl
    · exact ⟨leafE 0x61 1, by decide +kernel, rfl, .inl rfl, fun _ => by decide⟩
    · exact ⟨leafE 0x00 1, by decide +kernel, rfl, .inl rfl, fun _ => by decide⟩
  · intro i h1 h2
    have h1 : 2 ≤ i := h1
    have h2 : i < 2 := h2
    omega

/-- A chain of `k` edges: node `i + 1` above node `i`, which is its right child. -/
def chain (k : Nat) : State :=
  grown 1
    ((List.range k).map (fun i =>
      { leafE 0x61 1 (BitVec.ofNat 9 (i + 1)) with right := BitVec.ofNat 9 (i - 1) }) ++
      [{ innerE 1 0 (BitVec.ofNat 9 (k - 1)) with kind := .internal }])
    { busy .compress 17 with caI := 0 }

theorem wit_WalkGivesTheBranchesToTheRoot_end :
    ({ busy .compress 17 with n := 3, caI := 3 } : State).caI.toNat =
      ({ busy .compress 17 with n := 3, caI := 3 } : State).n.toNat := by decide

/-- One leaf alone, and the longest code, of 64 branches. -/
theorem wit_WalkGivesTheBranchesToTheRoot : ∀ k ∈ [0, 64],
    let s := chain k
    s.caI.toNat ≠ s.n.toNat ∧ (∃ e, s.nodeAt s.caI = some e ∧ e.sym.toNat < 128) ∧
      RootAbove s.node s.caI k (BitVec.ofNat 9 k) ∧ k ≤ 64 := by
  intro k hk
  simp only [List.mem_cons, List.not_mem_nil, or_false] at hk
  rcases hk with rfl | rfl
  · exact ⟨by decide, ⟨_, rfl, by decide +kernel⟩, ⟨by decide +kernel, _, rfl, by decide +kernel⟩, by decide⟩
  · exact ⟨by decide, ⟨_, rfl, by decide +kernel⟩, ⟨by decide +kernel, _, rfl, by decide +kernel⟩, by decide⟩

theorem wit_LeafTooDeepOverflows :
    let s := chain 65
    s.caI.toNat ≠ s.n.toNat ∧ (s.nodeAt s.caI).isSome ∧ ancestor s.node 65 s.caI = some 65 ∧
      (s.nodeAt 65).isSome := by decide +kernel

/-- The tree of two leaves below a root, built on the store as reset leaves it. -/
def linkedTree : State :=
  { grown 2 [leafE 0x61 1 2, leafE 0x00 1 2, innerE 2 1 0] (busy .compress 17) with caI := 1, root := 2 }

theorem linkedTree_root : linkedTree.node[2]? = some (innerE 2 1 0) := by decide +kernel

theorem linkedTree_leaf : ∀ i < 2, ∃ sym, linkedTree.node[i]? = some (leafE sym 1 2) := by
  intro i hi
  rcases (by omega : i = 0 ∨ i = 1) with rfl | rfl
  · exact ⟨0x61, by decide +kernel⟩
  · exact ⟨0x00, by decide +kernel⟩

theorem linkedTree_ok : TreeOk linkedTree := by
  refine ⟨by decide, ⟨fun i hi => ?_, fun i h1 h2 => ?_⟩, by decide, ⟨_, linkedTree_root, rfl⟩, fun i hi => ?_⟩
  · have hi : i < 2 := hi
    rcases (by omega : i = 0 ∨ i = 1) with rfl | rfl
    · exact ⟨leafE 0x61 1 2, by decide +kernel, rfl, .inr (by decide), fun _ => by decide⟩
    · exact ⟨leafE 0x00 1 2, by decide +kernel, rfl, .inr (by decide), fun _ => by decide⟩
  · have h1 : 2 ≤ i := h1
    have h2 : i < 3 := h2
    obtain rfl : i = 2 := by omega
    exact ⟨_, linkedTree_root, rfl, by decide, by decide, .inl rfl⟩
  · have hi : i < 2 := hi
    obtain ⟨sym, h⟩ := linkedTree_leaf i hi
    exact ⟨_, _, h, hi, show 2 < 3 by decide, linkedTree_root, rfl, by decide,
      (by omega : i = 1 ∨ i = 0).imp Eq.symm Eq.symm⟩

theorem linkedTree_path : PathLinked linkedTree.node linkedTree.caI 1 := by
  intro k hk m p q hm hp hq
  obtain rfl : k = 0 := by omega
  rw [show ancestor linkedTree.node 0 linkedTree.caI = some 1 from rfl] at hm
  rw [show ancestor linkedTree.node (0 + 1) linkedTree.caI = some 2 by decide +kernel] at hp
  cases hm
  cases hp
  rw [show linkedTree.node[(2 : Idx).toNat]? = some (innerE 2 1 0) from linkedTree_root] at hq
  cases hq
  exact ⟨rfl, by decide, .inl rfl⟩

theorem wit_CodeIsTheRootToLeafPath :
    let s := linkedTree
    PathLinked s.node s.caI 1 ∧ s.caI.toNat ≠ s.n.toNat ∧ (s.nodeAt s.caI).map NodeEntry.sym = some 0 ∧
      RootAbove s.node s.caI 1 2 ∧ exec .caWalk s = .next (then_ .caWalk s) := by
  refine ⟨linkedTree_path, by decide, by decide +kernel,
    ⟨by decide +kernel, innerE 2 1 0, by decide +kernel, rfl⟩, exec_then_ (by decide +kernel)⟩

theorem wit_CodeIsTheRootToLeafPath_tree :
    TreeOk linkedTree ∧ linkedTree.caI.toNat < linkedTree.n.toNat := ⟨linkedTree_ok, by decide⟩

/-! ### Header -/

theorem wit_HeaderBytesGoOut :
    ((busy .compress 25).nextDraw = .passes ∧ (busy .compress 25).afterDraw.nextDraw = .passes) ∧
      (failing 0 0 (busy .compress 25)).nextDraw = .fails 0 ∧
      ((failing 1 0 (busy .compress 25)).nextDraw = .passes ∧
        (failing 1 0 (busy .compress 25)).afterDraw.nextDraw = .fails 0) := by decide

/-- A pair to write or to read, in a field of `f` bytes. -/
def pairState (op : Op) (p : PhaseCode) (f : FieldWidth) (freq : Word) : State :=
  { grown 1 [leafE 0x61 freq] (busy op p) with f := f, hcI := 0 }

theorem wit_PairGoesOut_end :
    ({ pairState .compress 26 1 0 with hcI := 1 } : State).hcI.toNat = (pairState .compress 26 1 0).n.toNat := by
  decide +kernel

theorem wit_PairGoesOut : ∀ f ∈ [(1 : FieldWidth), 8],
    let s := pairState .compress 26 f (-1)
    s.hcI.toNat ≠ s.n.toNat ∧ s.nodeAt s.hcI = some (leafE 0x61 (-1)) ∧ s.f.toNat ∈ [1, 2, 4, 8] ∧
      s.nextDraw = .passes ∧ s.afterDraw.nextDraw = .passes ∧ (failing 0 0 s).nextDraw = .fails 0 ∧
      (failing 1 9 s).nextDraw = .passes ∧ (failing 1 9 s).afterDraw.nextDraw = .fails 9 := by
  decide +kernel

theorem wit_HeaderIsCheckedInOrder_short : (feed [1] (busy .decompress 27)).inLen.toNat < 2 := by decide

/-- No symbol, an illegal width, a byte too few, exactly enough. -/
theorem wit_HeaderIsCheckedInOrder :
    (∀ bs ∈ [[0, 1], [1, 3], [1, 1, 0], [(1 : Byte), 1, 0, 1]],
      let s := feed bs (busy .decompress 27)
      2 ≤ s.inLen.toNat ∧ s.flags.inOpen = true ∧ s.nextDraw = .passes ∧
        s.inp.byteAt 0 = bs[0]? ∧ s.afterDraw.nextDraw = .passes ∧ s.inp.byteAt 1 = bs[1]? ∧
        (failing 0 0 s).nextDraw = .fails 0 ∧ (failing 1 0 s).afterDraw.nextDraw = .fails 0) ∧
    3 < 2 + 1 * (1 + 1) ∧ 2 + 1 * (1 + 1) ≤ 4 := by decide

theorem wit_PairIsRead_end :
    ({ pairState .decompress 28 1 0 with hcI := 1 } : State).hcI.toNat =
      (pairState .decompress 28 1 0).n.toNat := by decide +kernel

theorem wit_PairIsRead :
    let s := feed (List.replicate 9 0xFF) (pairState .decompress 28 8 0)
    s.hcI.toNat ≠ s.n.toNat ∧ s.f.toNat ∈ [1, 2, 4, 8] ∧ Readable s s.inPos.toNat (1 + s.f.toNat) ∧
      s.nextDraw = .passes ∧ s.inp.byteAt s.inPos.toNat = some 0xFF ∧ s.afterDraw.nextDraw = .passes ∧
      s.inp.bytesAt (s.inPos.toNat + 1) s.f.toNat = some (List.replicate 8 0xFF) ∧
      (s.nodeAt s.hcI).isSome ∧ (failing 0 0 s).nextDraw = .fails 0 ∧
      (failing 1 0 s).afterDraw.nextDraw = .fails 0 := by
  unfold Readable
  decide +kernel

theorem wit_WrittenPairReadsBack :
    let s := pairState .compress 26 2 0xFFFF
    let t := then_ .hcPutpair s
    let u := { pairState .decompress 28 2 0 with inp := t.out, inLen := 3, inPos := 0 }
    s.hcI.toNat ≠ s.n.toNat ∧ s.nodeAt s.hcI = some (leafE 0x61 0xFFFF) ∧ s.f.toNat ∈ [1, 2, 4, 8] ∧
      s.nextDraw = .passes ∧ s.afterDraw.nextDraw = .passes ∧ s.out.wf = true ∧
      exec .hcPutpair s = .next t ∧ u.cfg = s.cfg ∧ u.f = s.f ∧ u.hcI.toNat ≠ u.n.toNat ∧
      (u.nodeAt u.hcI).isSome ∧ Readable u u.inPos.toNat (1 + u.f.toNat) ∧ u.nextDraw = .passes ∧
      u.afterDraw.nextDraw = .passes ∧
      ∀ j < 1 + s.f.toNat, u.inp.byteAt (u.inPos.toNat + j) = t.out.byteAt (s.out.endOff + j) := by
  refine ⟨by decide +kernel, by decide +kernel, by decide +kernel, by decide, by decide, by decide,
    exec_then_ (by decide +kernel), by decide, by decide +kernel, by decide +kernel, by decide +kernel,
    ⟨by decide, by decide +kernel⟩, by decide, by decide, by decide +kernel⟩

/-! ### Bit stream -/

/-- Every symbol has the code 110, and the accumulator has `k` free bits. -/
def coding (k : Len) : State :=
  { busy .compress 33 with acc := 0, free := k, lut := Vector.replicate 128 (lutE 0b110 3) }

theorem wit_SymbolIsLookedUpAndPut_end : (feed [] (coding 64)).inPos = (feed [] (coding 64)).inLen := by decide

theorem wit_SymbolIsLookedUpAndPut : ∀ k ∈ [(64 : Len), 3, 2, 0], ∀ b ∈ [(0x00 : Byte), 0x7F, 0x80],
    let s := feed [b] (coding k)
    s.inPos ≠ s.inLen ∧ Readable s s.inPos.toNat 1 ∧ s.nextDraw = .passes ∧
      s.inp.byteAt s.inPos.toNat = some b ∧ s.free.toNat ≤ 64 ∧ codeFits 0b110 3 = true ∧
      s.lut[127] = lutE 0b110 3 ∧ s.afterDraw.nextDraw = .passes ∧
      (failing 0 0 s).nextDraw = .fails 0 ∧ (failing 1 0 s).afterDraw.nextDraw = .fails 0 := by
  unfold Readable
  decide +kernel

theorem wit_SentinelCodeEndsTheStream : ∀ k ∈ [(3 : Len), 2],
    (coding k).free.toNat ≤ 64 ∧ codeFits (coding k).lut[0].code (coding k).lut[0].len = true ∧
      (coding k).lut[0].len = 3 ∧ (failing 0 0 (coding k)).nextDraw = .fails 0 := by decide +kernel

theorem wit_PutShiftsOrSplits : ∀ k ∈ [(64 : Len), 63, 0],
    (coding k).free.toNat ≤ 64 ∧ (64 : Len).toNat ≤ 64 ∧ (-1 : Word).toNat < 2 ^ (64 : Len).toNat ∧
      (coding k).nextDraw = .passes ∧ (failing 0 7 (coding k)).nextDraw = .fails 7 := by decide

theorem wit_PutAppendsTheCodeBits : ∀ k ∈ [(64 : Len), 63, 0],
    FreeBitsZero (coding k) ∧ (64 : Len).toNat ≤ 64 ∧ (-1 : Word).toNat < 2 ^ (64 : Len).toNat ∧
      (coding k).nextDraw = .passes ∧
      exec (.bsePut (-1) 64) (coding k) = .next (then_ (.bsePut (-1) 64) (coding k)) := by
  intro k hk
  simp only [List.mem_cons, List.not_mem_nil, or_false] at hk
  rcases hk with rfl | rfl | rfl <;>
    exact ⟨⟨by decide, by decide⟩, by decide, by decide, by decide, exec_then_ (by decide)⟩

theorem wit_FinalFlushWritesWholeBytes : ∀ k ∈ [((64 : Len), 0), (63, 1), (56, 1), (55, 2), (0, 8)],
    (coding k.1).free.toNat ≤ 64 ∧ (64 - (coding k.1).free.toNat + 7) / 8 = k.2 ∧
      (coding k.1).nextDraw = .passes ∧ (failing 0 3 (coding k.1)).nextDraw = .fails 3 := by decide

/-- A container whose header takes 2 + 1 * (1 + 1) = 4 bytes and has no payload. -/
def atRoot (e : NodeEntry) : State :=
  { grown 1 [e] (busy .decompress 40) with f := 1, root := 0, inLen := 4, inPos := 4 }

/-- The least container, and one too short for its header. -/
theorem wit_DecoderStartsAtTheRoot : ∀ e ∈ [leafE 0x00 1, leafE 0x61 1, innerE 2 1 2],
    2 + (atRoot e).n.toNat * (1 + (atRoot e).f.toNat) ≤ (atRoot e).inLen.toNat ∧
      (atRoot e).nodeAt (atRoot e).root = some e ∧
      ({ atRoot e with inLen := 3 } : State).nodeAt (atRoot e).root = some e := by decide +kernel

theorem wit_FetchLeftAligns_end : ({ busy .decompress 41 with prem := 0 } : State).prem = 0 := by decide

theorem wit_FetchLeftAligns : ∀ k ∈ [1, 7, 8, 9],
    let s := feed (List.replicate k 0xFF) { busy .decompress 41 with prem := BitVec.ofNat 64 k }
    s.prem ≠ 0 ∧ Readable s s.inPos.toNat (min 8 s.prem.toNat) ∧ s.nextDraw = .passes ∧
      s.inp.bytesAt s.inPos.toNat (min 8 s.prem.toNat) = some (List.replicate (min 8 k) 0xFF) ∧
      (failing 0 0 s).nextDraw = .fails 0 := by
  unfold Readable
  decide

theorem wit_FlushedBytesFetchBack :
    let s := { busy .compress 35 with acc := 1 <<< 63, free := 63 }
    let t := then_ .bseFinal s
    let u := { busy .decompress 41 with prem := 1, inp := t.out, inLen := 1, inPos := 0 }
    FreeBitsZero s ∧ s.free.toNat < 64 ∧ s.nextDraw = .passes ∧ s.out.wf = true ∧
      exec .bseFinal s = .next t ∧ u.cfg = s.cfg ∧ u.prem.toNat = (64 - s.free.toNat + 7) / 8 ∧
      Readable u u.inPos.toNat ((64 - s.free.toNat + 7) / 8) ∧ u.nextDraw = .passes ∧
      ∀ j < (64 - s.free.toNat + 7) / 8,
        u.inp.byteAt (u.inPos.toNat + j) = t.out.byteAt (s.out.endOff + j) :=
  ⟨⟨by decide, by decide⟩, by decide, by decide, by decide, exec_then_ (by decide), by decide, by decide,
    ⟨by decide, by decide⟩, by decide, by decide⟩

/-- The walk of R184 at node `cur` with `k` bits left, the next bit in bit 63. -/
def walking (cur : Idx) (bit : Word) (k : Len) : State :=
  { grown 6 abraTree (busy .decompress 42) with root := 10, cur := cur, dword := bit <<< 63, nbits := k }

theorem wit_LeafEmitsOrStops :
    (walking 3 0 1).nodeAt (walking 3 0 1).cur = some (leafE 0x00 1 7) ∧
      (walking 0 0 1).nodeAt (walking 0 0 1).cur = some (leafE 0x61 5 10) ∧
      (walking 0 0 1).nextDraw = .passes ∧ (failing 0 0 (walking 0 0 1)).nextDraw = .fails 0 := by
  decide +kernel

/-- To an inner node, to the sentinel, to another leaf, each with the last bit and with the most bits. -/
theorem wit_BitWalksOneEdge :
    ∀ k ∈ [(1 : Len), 64],
      ∀ x ∈ [((10 : Idx), (1 : Word), Kind.internal, (1 : Byte)), (7, 0, .leaf, 0), (10, 0, .leaf, 0x61)],
      let s := walking x.1 x.2.1 k
      s.nbits ≠ 0 ∧ (s.nodeAt s.cur).map NodeEntry.kind = some .internal ∧
        ((s.nodeAt s.cur).bind fun e =>
          (s.nodeAt (if s.dword.getLsbD 63 then e.right else e.left)).map fun d => (d.kind, d.sym)) =
          some (x.2.2.1, x.2.2.2) ∧
        s.nextDraw = .passes ∧ (failing 0 0 s).nextDraw = .fails 0 := by decide +kernel

theorem wit_BitsAreWalkedFirstToLast : ∀ k ∈ [(1 : Len), 64],
    1 ≤ (walking 10 1 k).nbits.toNat ∧ (walking 10 1 k).nbits.toNat ≤ 64 ∧
      exec .bsdBit (walking 10 1 k) = .next (then_ .bsdBit (walking 10 1 k)) := by
  intro k hk
  simp only [List.mem_cons, List.not_mem_nil, or_false] at hk
  rcases hk with rfl | rfl <;>
    exact ⟨by decide +kernel, by decide +kernel, exec_then_ (by decide +kernel)⟩

/-! ### Records, accesses, stops -/

theorem wit_RecordsActAsTheirReaders_header :
    (0xFF : Byte) ≠ 0 ∧ (3 : Byte).toNat ∉ [1, 2, 4, 8] ∧ (8 : Byte).toNat ∈ [1, 2, 4, 8] ∧
      ({ State.reset with n := 255, inLen := 2296 } : State).inLen.toNat < 2 + 255 * (1 + (8 : Byte).toNat) ∧
      2 + 255 * (1 + (8 : Byte).toNat) ≤ ({ State.reset with n := 255, inLen := 2297 } : State).inLen.toNat := by
  decide

theorem wit_RecordsActAsTheirReaders_payload :
    (({ State.reset with hcI := 508 } : State).nodeAt 508).isSome ∧
      8 ≤ ({ State.reset with prem := 8 } : State).prem.toNat ∧ ¬ 8 ≤ State.reset.prem.toNat ∧
      1 ≤ (7 : BitVec 4).toNat ∧ (7 : BitVec 4).toNat ≤ 7 ∧ (0xFFFFFFFFFFFFFF : Word).toNat < 2 ^ (8 * 7) ∧
      (7 : BitVec 4).toNat ≤ ({ State.reset with prem := 7 } : State).prem.toNat := by decide +kernel

/-- The code of `a`, of one bit, and that of the sentinel. -/
theorem wit_CodeRecordActsAsItsLeaf :
    let s := walking 10 0 1
    (1 ≤ (1 : Len).toNat ∧ descend s.node s.cur (codeBits (1 : Len).toNat (0 : Word).toNat) = some 0 ∧
      s.nodeAt 0 = some (leafE 0x61 5 10) ∧ s.nextDraw = .passes) ∧
    (1 ≤ (3 : Len).toNat ∧ descend s.node s.cur (codeBits (3 : Len).toNat (0b100 : Word).toNat) = some 3 ∧
      s.nodeAt 3 = some (leafE 0x00 1 7)) := by decide +kernel

theorem wit_ReadIsAllOrNothing : ∀ n ∈ [1, 8],
    let s := feed (List.replicate 8 0xFF) (busy .compress 2)
    1 ≤ n ∧ n ≤ 8 ∧ Readable s (8 - n) n ∧ s.nextDraw = .passes ∧ (List.replicate n (0xFF : Byte)).length = n ∧
      (∀ j < n, s.inp.byteAt (8 - n + j) = some 0xFF) ∧ (failing 0 0 s).nextDraw = .fails 0 := by
  unfold Readable
  decide

theorem wit_FailedWriteLeavesAPrefix : ∀ n ∈ [1, 8],
    1 ≤ (List.replicate n (0xFF : Byte)).length ∧ (List.replicate n (0xFF : Byte)).length ≤ 8 ∧
      (busy .compress 25).nextDraw = .passes ∧ (failing 0 0 (busy .compress 25)).nextDraw = .fails 0 ∧
      (failing 0 9 (busy .compress 25)).nextDraw = .fails 9 := by decide

theorem wit_BrokenPreconditionsStop_accesses :
    (let s : State := { busy .compress 2 with flags := State.reset.flags }; s.flags.inOpen = false) ∧
    (let s := feed [0x61] (busy .compress 2);
      s.flags.inOpen = true ∧ s.inLen.toNat < 0 + 2 ∧ s.inLen.toNat < 1 + 1) ∧
    (let s : State := { busy .compress 2 with inPos := 0, inLen := 8, inp := [(0, 0x61)] };
      Readable s 0 8 ∧ s.nextDraw = .passes ∧ ∃ j < 8, s.inp.byteAt (0 + j) = none) ∧
    8 < (List.replicate 9 (0 : Byte)).length := by
  refine ⟨rfl, by decide, ⟨⟨rfl, by decide⟩, rfl, 1, by decide, rfl⟩, by decide⟩

theorem wit_BrokenPreconditionsStop_reads :
    (let s : State := { busy .compress 2 with inLen := 2, flags := State.reset.flags };
      s.inPos ≠ s.inLen ∧ s.flags.inOpen = false) ∧
    (let s : State := { busy .compress 2 with inPos := 1, inLen := 0 };
      s.inLen < s.inPos ∧ s.flags.inOpen = true) ∧
    (let s : State := { busy .compress 2 with inPos := 0, inLen := 1 };
      s.inPos < s.inLen ∧ s.flags.inOpen = true ∧ s.nextDraw = .passes ∧
        s.inp.byteAt s.inPos.toNat = none) := by decide

theorem wit_BrokenPreconditionsStop_codes :
    ({ busy .compress 10 with lrem := 1, qh := 3, nt := 3 } : State).items < 2 ∧
      64 < (coding 65).free.toNat ∧ 64 < (65 : Len).toNat ∧ 2 ^ (1 : Len).toNat ≤ (2 : Word).toNat := by decide

theorem wit_BrokenPreconditionsStop_take :
    (let s : State := { busy .compress 10 with lrem := 0, qh := 3, nt := 3 };
      s.lrem = 0 ∧ ¬ s.qh < s.nt) := by decide

theorem wit_BrokenPreconditionsStop_bits :
    ({ State.reset with nbits := 0 } : State).nbits = 0 ∧
    ((walking 0 0 1).nbits ≠ 0 ∧ (walking 0 0 1).nodeAt (walking 0 0 1).cur = some (leafE 0x61 5 10)) := by
  decide +kernel

theorem wit_BrokenPreconditionsStop_phase :
    HostWaits (busy .compress 5) ∧ (busy .compress 5).status = .busy ∧
      (busy .compress 5).phase ∉ phaseTable.map Prod.fst :=
  ⟨hostWaits_of_nil rfl, by decide, by decide⟩

/-! ### Whole-machine rules -/

theorem wit_OnlyListedWritersOfWorkingRegisters :
    exec .fsSent (busy .compress 3) = .next (then_ .fsSent (busy .compress 3)) ∧
      writesAcc .fsSent = false ∧ writesCur .fsSent = false := ⟨exec_then_ (by decide +kernel), by decide⟩

theorem wit_OnlyListedWritersOfArraysAndCounts :
    exec .tbInit (busy .compress 9) = .next (then_ .tbInit (busy .compress 9)) ∧
      writesNode .tbInit = false ∧ starts .tbInit = false ∧ isIllegal .tbInit = false ∧
      stores .tbInit = false := ⟨exec_then_ (by decide), by decide⟩

theorem wit_OnlyListedCausesAreRaised :
    exec .bsdFetch { busy .decompress 41 with prem := 0 } =
      .next (then_ .bsdFetch { busy .decompress 41 with prem := 0 }) := exec_then_ (by decide)

theorem wit_PhaseTransfersAreListed :
    HostWaits (busy .compress 1) ∧ (busy .compress 1).status = .busy ∧ (busy .compress 1).phase ≠ Phase.idle ∧
      step (busy .compress 1) = .next (then_ .fsClear (busy .compress 1)) :=
  ⟨hostWaits_of_nil rfl, by decide, by decide, rfl⟩

theorem wit_NonStoringOperationsKeepEveryByte :
    stores .cmdClose = false ∧ starts .cmdClose = false ∧
      exec .cmdClose (busy .compress 48) = .next (then_ .cmdClose (busy .compress 48)) := ⟨rfl, rfl, rfl⟩

theorem wit_StoringOperationsAppendAtTheEnd :
    stores .hcPuthdr = true ∧ (busy .compress 25).out.wf = true ∧
      exec .hcPuthdr (busy .compress 25) = .next (then_ .hcPuthdr (busy .compress 25)) :=
  ⟨rfl, rfl, exec_then_ (by decide)⟩

theorem wit_ParametersAndInputAreFixed :
    exec .compress (busy .compress 2) = .next (busy .compress 2) ∧ (busy .compress 2).status = .busy ∧
      starts .cmdClose = false := ⟨rfl, rfl, rfl⟩

/-- A COMPRESS of no byte that has just started. -/
def started : State := State.reset.startCommand .compress

theorem wit_ControlInvariantIsKept : ControlOk started ∧ step started = .next (then_ .fsClear started) :=
  ⟨⟨fun _ => ⟨List.mem_cons_self, rfl, rfl⟩, fun h => absurd rfl h, fun _ => ⟨rfl, rfl⟩, nofun, nofun,
    Nat.le_refl _⟩, rfl⟩

theorem wit_StreamInvariantIsKept : StreamsOk started ∧ step started = .next (then_ .fsClear started) :=
  ⟨⟨rfl, rfl, rfl, fun _ => rfl, rfl, nofun⟩, rfl⟩

theorem wit_NoStepStopsAndTheRunInvariantIsKept : RunOk started := by
  refine ⟨wit_ControlInvariantIsKept.1, fun i e h => ?_, fun _ a h => ?_, fun a h => ?_, nofun, fun _ => ?_⟩
  · rw [show started.lut = Vector.replicate 128 LutEntry.afterReset from rfl, Vector.getElem?_replicate] at h
    split at h
    · cases h
      decide
    · cases h
  · exact absurd h (Nat.not_lt_zero a)
  · exact absurd h (Nat.not_lt_zero a)
  · constructor <;> intro h <;> exact absurd h (by decide)

theorem wit_EveryRunEnds : RunOk started ∧ started.host = [] ∧ started.status = .busy :=
  ⟨wit_NoStepStopsAndTheRunInvariantIsKept, rfl, rfl⟩

/-- R250's closed counts for the first phases: `2L + 3N + 16`, and the sum for a DECOMPRESS of the
18-byte container of R184, whose payload has 4 bytes. -/
theorem test_stepsLeft (s : State) (n : Nat) (h : s.phase = Phase.fsClear) (f : Nat) :
    s.stepsLeft n f = 2 * s.inLen.toNat + 3 * n + 16 ∧
      { busy .decompress 27 with inLen := 18 }.stepsLeft 6 1 =
        1 + (6 + 1) + 1 + 1 + (6 - 1) + 1 + 1 + 8 * 4 + (1 + 1) + 1 := by
  refine ⟨?_, by decide⟩
  unfold State.stepsLeft
  simp only [h, if_true]

end Sys2Proof.Tests
end

section
/-! O36, one `BSE.PUT` (R163) as a statement about bit lists (R15, R166). The idea: while the free bits of
`ACC` are zero, `ACC` is `a * 2 ^ FREE` for the number `a` of the pending bits, so the model's shifts and ors
are sums, and sums of disjoint parts are appended bit lists. -/

namespace Sys2Proof.Proofs

open Sys2Proof.Machine Sys2Proof.Claim

/-! ### Words as sums of disjoint parts -/

/-- A multiple of `2 ^ f` and a word below `2 ^ f` share no bit. -/
theorem toNat_or_of_disjoint {x y : Word} {a f : Nat} (hx : x.toNat = a * 2 ^ f)
    (hy : y.toNat < 2 ^ f) : (x ||| y).toNat = a * 2 ^ f + y.toNat := by
  rw [BitVec.toNat_or, hx, Nat.mul_comm, Nat.two_pow_add_eq_or_of_lt hy]

/-- A word moved up within the word loses no bit. -/
theorem toNat_shiftLeft_of_lt {v : Word} {l k : Nat} (hv : v.toNat < 2 ^ l) (hk : l + k ≤ 64) :
    (v <<< k).toNat = v.toNat * 2 ^ k := by
  have hlt : v.toNat * 2 ^ k < 2 ^ (l + k) := by
    rw [Nat.pow_add]
    exact Nat.mul_lt_mul_of_pos_right hv (Nat.two_pow_pos k)
  rw [BitVec.toNat_shiftLeft, Nat.shiftLeft_eq,
    Nat.mod_eq_of_lt (Nat.lt_of_lt_of_le hlt (Nat.pow_le_pow_right (by decide) hk))]

theorem toNat_and_lowMask (v : Word) {r : Nat} (hr : r ≤ 64) :
    (v &&& lowMask r).toNat = v.toNat % 2 ^ r := by
  have hp : 2 ^ r ≤ 2 ^ 64 := Nat.pow_le_pow_right (by decide) hr
  have hm : (lowMask r).toNat = 2 ^ r - 1 := by
    rw [lowMask, BitVec.toNat_ofNat, Nat.mod_eq_of_lt (by omega)]
  rw [BitVec.toNat_and, hm, Nat.and_two_pow_sub_one_eq_mod]

/-! ### The pending bits -/

/-- The bits of `a` followed by those of a `v` that fits in `l` bits are the bits of one number. -/
theorem codeBits_append {v l : Nat} (k a : Nat) (hv : v < 2 ^ l) :
    codeBits k a ++ codeBits l v = codeBits (k + l) (a * 2 ^ l + v) := by
  rw [codeBits_add, ← codeBits_mod l (a * 2 ^ l + v), Nat.mul_comm,
    Nat.mul_add_div (Nat.two_pow_pos l), Nat.div_eq_of_lt hv, Nat.add_zero, Nat.mul_add_mod,
    Nat.mod_eq_of_lt hv]

theorem freeBitsZero_of_acc {s : State} {a : Nat} (hf : s.free.toNat ≤ 64)
    (ha : s.acc.toNat = a * 2 ^ s.free.toNat) : FreeBitsZero s :=
  ⟨hf, by rw [ha, Nat.mul_mod_left]⟩

/-- The pending bits are those of the number that stands above the free bits. -/
theorem pendingBits_of_acc {s : State} {a : Nat} (hf : s.free.toNat ≤ 64)
    (ha : s.acc.toNat = a * 2 ^ s.free.toNat) : pendingBits s = codeBits (64 - s.free.toNat) a := by
  have hsplit := codeBits_add (64 - s.free.toNat) s.free.toNat s.acc.toNat
  rw [Nat.sub_add_cancel hf, ha, Nat.mul_div_cancel _ (Nat.two_pow_pos _)] at hsplit
  rw [pendingBits, ha, hsplit, List.take_left' (codeBits_length _ _)]

/-! ### The registers and `OUT` after `BSE.PUT` -/

theorem exec_bsePut (v : Word) (l : Len) (s : State) :
    exec (.bsePut v l) s = (putCode v l s).finish := rfl

@[simp] theorem putFit_out (s : State) (v : Word) (l : Len) : (s.putFit v l).out = s.out := rfl

@[simp] theorem putRest_out (s : State) (v : Word) (r : Nat) : (s.putRest v r).out = s.out := rfl

section
variable {s : State} {v : Word} {l : Len} {a : Nat}

theorem putFit_free_toNat (hl : l.toNat ≤ s.free.toNat) :
    (s.putFit v l).free.toNat = s.free.toNat - l.toNat :=
  BitVec.toNat_sub_of_le hl

/-- A code that fits is put below the pending bits. -/
theorem putFit_acc_toNat (hf : s.free.toNat ≤ 64) (ha : s.acc.toNat = a * 2 ^ s.free.toNat)
    (hv : v.toNat < 2 ^ l.toNat) (hl : l.toNat ≤ s.free.toNat) :
    (s.putFit v l).acc.toNat = (a * 2 ^ l.toNat + v.toNat) * 2 ^ (s.free.toNat - l.toNat) := by
  have hpow : 2 ^ s.free.toNat = 2 ^ l.toNat * 2 ^ (s.free.toNat - l.toNat) := by
    rw [← Nat.pow_add, Nat.add_sub_cancel' hl]
  have hshift := toNat_shiftLeft_of_lt (k := s.free.toNat - l.toNat) hv (by omega)
  have hlow : (v <<< (s.free.toNat - l.toNat)).toNat < 2 ^ s.free.toNat := by
    rw [hshift, hpow]
    exact Nat.mul_lt_mul_of_pos_right hv (Nat.two_pow_pos _)
  calc (s.acc ||| v <<< (s.free.toNat - l.toNat)).toNat
      _ = a * 2 ^ s.free.toNat + v.toNat * 2 ^ (s.free.toNat - l.toNat) := by
        rw [toNat_or_of_disjoint ha hlow, hshift]
      _ = (a * 2 ^ l.toNat + v.toNat) * 2 ^ (s.free.toNat - l.toNat) := by
        rw [hpow, Nat.add_mul, Nat.mul_assoc]

/-- The high part of a split code fits in the free bits. -/
theorem div_lt_of_split (hv : v.toNat < 2 ^ l.toNat) (hl : s.free.toNat < l.toNat) :
    v.toNat / 2 ^ (l.toNat - s.free.toNat) < 2 ^ s.free.toNat := by
  apply Nat.div_lt_of_lt_mul
  rwa [← Nat.pow_add, Nat.sub_add_cancel hl.le]

/-- The high part of a split code fills the free bits. -/
theorem fullWord_toNat (ha : s.acc.toNat = a * 2 ^ s.free.toNat) (hv : v.toNat < 2 ^ l.toNat)
    (hl : s.free.toNat < l.toNat) :
    (s.fullWord v l).toNat =
      a * 2 ^ s.free.toNat + v.toNat / 2 ^ (l.toNat - s.free.toNat) := by
  have hshift : (v >>> (l.toNat - s.free.toNat)).toNat =
      v.toNat / 2 ^ (l.toNat - s.free.toNat) := by
    rw [BitVec.toNat_ushiftRight, Nat.shiftRight_eq_div_pow]
  rw [State.fullWord, toNat_or_of_disjoint ha (hshift ▸ div_lt_of_split hv hl), hshift]

theorem putRest_free_toNat (r : Nat) : (s.putRest v r).free.toNat = 64 - r := by
  rw [State.putRest, BitVec.toNat_ofNat]
  omega

/-- The low part of a split code stands at the top of the new accumulator. -/
theorem putRest_acc_toNat {r : Nat} (hr : r ≤ 64) :
    (s.putRest v r).acc.toNat = (v.toNat % 2 ^ r) * 2 ^ (64 - r) := by
  have hmask := toNat_and_lowMask v hr
  rw [State.putRest, toNat_shiftLeft_of_lt (l := r) (hmask ▸ Nat.mod_lt _ (Nat.two_pow_pos r))
    (by omega), hmask]

/-! ### The bits after `BSE.PUT` -/

theorem putFit_bits (hs : FreeBitsZero s) (hv : v.toNat < 2 ^ l.toNat) (hl : l.toNat ≤ s.free.toNat) :
    FreeBitsZero (s.putFit v l) ∧
      pendingBits (s.putFit v l) = pendingBits s ++ codeBits l.toNat v.toNat := by
  obtain ⟨hf, hz⟩ := hs
  have ha := (Nat.div_mul_cancel (Nat.dvd_of_mod_eq_zero hz)).symm
  have hfree := putFit_free_toNat (v := v) hl
  have hf' : (s.putFit v l).free.toNat ≤ 64 := by omega
  have hacc := putFit_acc_toNat hf ha hv hl
  rw [← hfree] at hacc
  refine ⟨freeBitsZero_of_acc hf' hacc, ?_⟩
  rw [pendingBits_of_acc hf' hacc, pendingBits_of_acc hf ha, codeBits_append _ _ hv, hfree]
  congr 1
  omega

/-- The full word holds the pending bits and then the high part of the code. -/
theorem codeBits_fullWord (hs : FreeBitsZero s) (hv : v.toNat < 2 ^ l.toNat)
    (hl : s.free.toNat < l.toNat) :
    codeBits 64 (s.fullWord v l).toNat =
      pendingBits s ++ codeBits s.free.toNat (v.toNat / 2 ^ (l.toNat - s.free.toNat)) := by
  obtain ⟨hf, hz⟩ := hs
  have ha := (Nat.div_mul_cancel (Nat.dvd_of_mod_eq_zero hz)).symm
  rw [pendingBits_of_acc hf ha, codeBits_append _ _ (div_lt_of_split hv hl), Nat.sub_add_cancel hf,
    fullWord_toNat ha hv hl]

/-- The new accumulator holds the low part of the code, and zeros. -/
theorem putRest_bits {r : Nat} (hr : r ≤ 64) :
    FreeBitsZero (s.putRest v r) ∧ pendingBits (s.putRest v r) = codeBits r v.toNat := by
  have hfree := putRest_free_toNat (s := s) (v := v) r
  have hf : (s.putRest v r).free.toNat ≤ 64 := by omega
  have hacc := putRest_acc_toNat (s := s) (v := v) hr
  rw [← hfree] at hacc
  refine ⟨freeBitsZero_of_acc hf hacc, ?_⟩
  rw [pendingBits_of_acc hf hacc, hfree, Nat.sub_sub_self hr, codeBits_mod]

theorem fullWord_putRest_bits {t : State} (hs : FreeBitsZero s) (hl64 : l.toNat ≤ 64)
    (hv : v.toNat < 2 ^ l.toNat) (hl : s.free.toNat < l.toNat) :
    codeBits 64 (s.fullWord v l).toNat ++ pendingBits (t.putRest v (l.toNat - s.free.toNat)) =
      pendingBits s ++ codeBits l.toNat v.toNat := by
  have hcode := codeBits_add s.free.toNat (l.toNat - s.free.toNat) v.toNat
  rw [Nat.add_sub_cancel' hl.le] at hcode
  rw [codeBits_fullWord hs hv hl, (putRest_bits (by omega)).2, List.append_assoc, hcode]

end

/-- Settles O36: the code fits, or the full word and the rest share out its bits. -/
theorem putAppendsTheCodeBits : Obligations.PutAppendsTheCodeBits := by
  intro s t v l hs hl64 hv hd h
  have hfits : codeFits v l = true := codeFits_iff.mpr ⟨hl64, hv⟩
  rw [exec_bsePut] at h
  by_cases hl : l.toNat ≤ s.free.toNat
  · rw [putCode_fit hs.1 hfits hl] at h
    cases h
    obtain ⟨hzero, hbits⟩ := putFit_bits hs hv hl
    exact ⟨hzero, .inl ⟨putFit_out s v l, hbits⟩⟩
  · have hsplit : s.free.toNat < l.toNat := by omega
    rw [putCode_split_pass hs.1 hfits hsplit hd] at h
    cases h
    refine ⟨(putRest_bits (by omega)).1, .inr ⟨s.fullWord v l, ?_, ?_⟩⟩
    · simp [wordBytes]
    · exact fullWord_putRest_bits hs hl64 hv hsplit

end Sys2Proof.Proofs
end

section
/-! What one operation can do to the state, once for all 44 operations: which registers it keeps (R31 to
R36), what it appends to `OUT` (R60, R69), and how it ends (R200, R220). The frames and the invariants of the
control registers and of the streams read it off. -/

namespace Sys2Proof.Proofs

open Sys2Proof.Machine Sys2Proof.Claim

/-! ### Frames of registers -/

/-- `t` has the registers of `s`, but for those that operation `i` is listed to write. -/
structure Keeps (i : Instr) (s t : State) : Prop where
  root : writesRoot i = false → t.root = s.root
  lrem : writesTake i = false → t.lrem = s.lrem
  qh : writesTake i = false → t.qh = s.qh
  sel : writesSel i = false → t.sel = s.sel
  nt : writesNt i = false → t.nt = s.nt
  caI : writesCaI i = false → t.caI = s.caI
  hcI : writesHcI i = false → t.hcI = s.hcI
  acc : writesAcc i = false → t.acc = s.acc
  free : writesAcc i = false → t.free = s.free
  dword : writesDword i = false → t.dword = s.dword
  nbits : writesNbits i = false → t.nbits = s.nbits
  prem : writesPrem i = false → t.prem = s.prem
  cur : writesCur i = false → t.cur = s.cur
  cnt : writesCnt i = false → t.cnt = s.cnt
  node : writesNode i = false → t.node = s.node
  lut : writesLut i = false → t.lut = s.lut
  n : writesN i = false → t.n = s.n
  f : writesF i = false → t.f = s.f
  inPos : writesInPos i = false → t.inPos = s.inPos

/-- `t` is a state inside operation `i` begun in `s`: the registers it is not listed to write, the control
registers but `PHASE`, the input and the host's fields are those of `s`, `bs` has been appended to `OUT`, and
a phase operation has left the cursor within the input. -/
structure Working (i : Instr) (s : State) (bs : List Byte) (t : State) : Prop where
  keeps : Keeps i s t
  cfg : t.cfg = s.cfg
  status : t.status = s.status
  cause : t.cause = s.cause
  info : t.info = s.info
  flags : t.flags = s.flags
  op : t.op = s.op
  inLen : t.inLen = s.inLen
  inp : t.inp = s.inp
  host : t.host = s.host
  offer : t.offer = s.offer
  out : t.out = s.out.appendAll bs
  outLen : t.outLen = s.outLen + BitVec.ofNat 64 bs.length
  cursor : (phaseCode i).isSome → s.inPos.toNat ≤ s.inLen.toNat → t.inPos.toNat ≤ s.inLen.toNat

section
variable {i : Instr} {s t : State} {bs : List Byte}

theorem Keeps.refl (i : Instr) (s : State) : Keeps i s s := by constructor <;> intro _ <;> rfl

/-- A draw touches no register. -/
theorem Keeps.afterDraw (k : Keeps i s t) : Keeps i s t.afterDraw := by
  rw [State.afterDraw_core]
  exact { k with }

theorem Working.start (i : Instr) (s : State) : Working i s [] s where
  keeps := .refl i s
  cfg := rfl
  status := rfl
  cause := rfl
  info := rfl
  flags := rfl
  op := rfl
  inLen := rfl
  inp := rfl
  host := rfl
  offer := rfl
  out := rfl
  outLen := (BitVec.add_zero _).symm
  cursor := fun _ h => h

theorem Working.setPhase (w : Working i s bs t) (q : PhaseCode) : Working i s bs (t.setPhase q) :=
  { w with keeps := { w.keeps with } }

theorem Working.afterDraw (w : Working i s bs t) : Working i s bs t.afterDraw := by
  rw [State.afterDraw_core]
  exact { w with keeps := { w.keeps with } }

theorem Working.appendOut (w : Working i s bs t) (cs : List Byte) :
    Working i s (bs ++ cs) (t.appendOut cs) :=
  { w with
    keeps := { w.keeps with }
    out := by rw [State.appendOut_out, w.out, Memory.appendAll_append]
    outLen := by
      rw [State.appendOut_outLen, w.outLen, BitVec.add_assoc, ← BitVec.ofNat_add, List.length_append] }

theorem Working.setNode (w : Working i s bs t) (hn : writesNode i = true) (j : Idx)
    (g : NodeEntry → NodeEntry) : Working i s bs (t.setNode j g) :=
  { w with keeps := { w.keeps with node := by simp [hn] } }

end

/-- `q` is a phase that may follow the phase of `i` inside a command (R200). -/
abbrev Follows (i : Instr) (q : PhaseCode) : Prop :=
  ∀ p ∈ phaseCode i, p ≠ Phase.idle → q ∈ successors p ∧ q ≠ Phase.idle

/-- Everything operation `i` can answer in `s`. -/
inductive Effect : Instr → State → State → Prop
  /-- It completes, and a running command goes on in phase `q`. -/
  | completes {i s bs t} (q : PhaseCode) (w : Working i s bs t) (hl : bs.length ≤ storeWidth s i)
      (hq : t.phase = q) (hf : Follows i q) : Effect i s t
  /-- Fault entry with a cause listed for it (R210, R220). -/
  | fails {i s bs u c info} (w : Working i s bs u) (hl : bs.length ≤ storeWidth s i)
      (hc : c ∈ mayRaise i) : Effect i s (u.raise c info)
  /-- The close of a command (R198). -/
  | closes {s} : Effect .cmdClose s { s with flags := s.flags.closed, status := .done, phase := Phase.idle }
  /-- Command start (R191). -/
  | compress {s} : Effect .compress s (s.startCommand .compress)
  | decompress {s} : Effect .decompress s (s.startCommand .decompress)
  /-- An illegal command (R197). -/
  | illegal {i s} (c : Byte) (hi : isIllegal i = true) : Effect i s (s.illegal c)
  | resets {s} : Effect .reset s s.resetCore

/-- An operation that appends nothing completes. -/
theorem Effect.quiet {i s t} (q : PhaseCode) (w : Working i s [] t) (hq : t.phase = q)
    (hf : Follows i q) : Effect i s t := .completes q w (Nat.zero_le _) hq hf

/-- An operation that has appended nothing ends in fault entry. -/
theorem Effect.raises {i s u c info} (w : Working i s [] u) (hc : c ∈ mayRaise i) :
    Effect i s (u.raise c info) := .fails w (Nat.zero_le _) hc

/-! ### Parts that append -/

/-- A part of operation `i` that appends: it goes on inside the operation, or it ends it by a failed write,
with at most `k` bytes appended since the operation began. -/
structure Part (i : Instr) (s : State) (k : Nat) {α : Type} (x : Access α) : Prop where
  ok : ∀ a t, x = .ok a t → ∃ bs, bs.length ≤ k ∧ Working i s bs t
  halt : ∀ t, x = .halt (.next t) →
    ∃ bs u, bs.length ≤ k ∧ Working i s bs u ∧ t = u.raise .ioError 1

section
variable {i : Instr} {s t u : State} {bs : List Byte} {k : Nat} {α : Type} {x : Access α}

/-- A part that goes on completes the operation in phase `q`. -/
theorem Part.completes {a : α} (p : Part i s (storeWidth s i) x) (hx : x = .ok a u)
    (q : PhaseCode) (hf : Follows i q) : Effect i s (u.setPhase q) := by
  obtain ⟨bs, hl, w⟩ := p.ok a u hx
  exact .completes q (w.setPhase q) hl rfl hf

/-- The same where the part leaves the phase that follows. -/
theorem Part.ends {a : α} (p : Part i s (storeWidth s i) x) (hx : x = .ok a t)
    (hf : Follows i t.phase) : Effect i s t :=
  p.completes hx t.phase hf

/-- A part that ended the operation with a next state has failed. -/
theorem Part.fails (p : Part i s (storeWidth s i) x) (hc : .ioError ∈ mayRaise i)
    (hx : x = .halt (.next t)) : Effect i s t := by
  obtain ⟨bs, u, hl, w, rfl⟩ := p.halt t hx
  exact .fails w hl hc

/-- `BSE.PUT` writes `ACC` and `FREE`, and sends out a word where the code does not fit (R163). -/
theorem putCode_part {v : Word} {l : Len} (w : Working i s bs u) (ha : writesAcc i = true)
    (hk : bs.length + (if u.free.toNat < l.toNat then 8 else 0) ≤ k) : Part i s k (putCode v l u) where
  ok _ t h := by
    obtain ⟨-, -, ⟨-, rfl⟩ | ⟨hl, -, rfl⟩⟩ := putCode_eq_ok h
    · exact ⟨bs, by omega,
        { w with keeps := { w.keeps with acc := by simp [ha], free := by simp [ha] } }⟩
    · have w' := w.afterDraw.appendOut (wordBytes u.cfg (u.fullWord v l))
      refine ⟨_, ?_,
        { w' with keeps := { w'.keeps with acc := by simp [ha], free := by simp [ha] } }⟩
      rw [if_pos hl] at hk
      simpa using hk
  halt t h := by
    obtain ⟨hl, m, hm, rfl⟩ := putCode_eq_halt h
    have w' : Working i s bs (u.putFull v l) :=
      { w with keeps := { w.keeps with acc := by simp [ha] } }
    refine ⟨_, _, ?_, w'.afterDraw.appendOut _, rfl⟩
    rw [if_pos hl] at hk
    simp
    omega

/-- `BSD.LEAF` appends the leaf's symbol and moves the cursor, or it stops (R176). -/
theorem emitLeaf_part (w : Working i s bs u) (hcur : writesCur i = true) (h0 : bs.length ≤ k)
    (h1 : ∀ e, u.nodeAt u.cur = some e → e.sym ≠ 0 → bs.length + 1 ≤ k) :
    Part i s k (emitLeaf u) where
  ok _ t h := by
    obtain ⟨e, he, ⟨-, -, rfl⟩ | ⟨-, hs, -, rfl⟩⟩ := emitLeaf_eq_ok h
    · exact ⟨bs, h0, w.setPhase _⟩
    · have w' := w.afterDraw.appendOut [e.sym]
      exact ⟨_, by simpa using h1 e he hs,
        { w' with keeps := { w'.keeps with cur := by simp [hcur] } }⟩
  halt t h := by
    obtain ⟨e, -, -, rfl⟩ := emitLeaf_eq_halt h
    exact ⟨_, _, by simpa using h0, w.afterDraw.appendOut [], rfl⟩

/-- An edge moves the cursor and takes the leaf it may reach (R178). -/
theorem walkBit_part {bit : Bool} (w : Working i s bs u) (hcur : writesCur i = true)
    (h0 : bs.length ≤ k)
    (h1 : ∀ e d, u.nodeAt u.cur = some e → u.nodeAt (if bit then e.right else e.left) = some d →
      d.kind = .leaf → d.sym ≠ 0 → bs.length + 1 ≤ k) :
    Part i s k (walkBit bit u) := by
  have moved : ∀ c, Working i s bs { u with cur := c } := fun c =>
    { w with keeps := { w.keeps with cur := by simp [hcur] } }
  constructor
  · intro b t h
    obtain ⟨e, d, he, -, hd, ⟨-, hx⟩ | ⟨hk, hx⟩⟩ := walkBit_eq h (.inl ⟨b, t, rfl⟩)
    · cases hx
      exact ⟨bs, h0, moved _⟩
    · refine (emitLeaf_part (moved _) hcur h0 fun d' hd' hs => ?_).ok b t hx.symm
      obtain rfl : d = d' := Option.some.inj (hd.symm.trans hd')
      exact h1 e d he hd hk hs
  · intro t h
    obtain ⟨e, d, he, -, hd, ⟨-, hx⟩ | ⟨hk, hx⟩⟩ := walkBit_eq h (.inr ⟨t, rfl⟩)
    · cases hx
    · refine (emitLeaf_part (moved _) hcur h0 fun d' hd' hs => ?_).halt t hx.symm
      obtain rfl : d = d' := Option.some.inj (hd.symm.trans hd')
      exact h1 e d he hd hk hs

/-- A walk over bits appends at most one byte a bit. -/
theorem walkBits_part {bits : List Bool} (w : Working i s bs u) (hcur : writesCur i = true)
    (hk : bs.length + bits.length ≤ k) : Part i s k (walkBits bits u) := by
  induction bits generalizing bs u with
  | nil =>
    constructor
    · intro _ t h
      cases h
      exact ⟨bs, hk, w⟩
    · intro t h
      cases h
  | cons b bits ih =>
    rw [List.length_cons] at hk
    have edge : Part i s (bs.length + 1) (walkBit b u) :=
      walkBit_part w hcur (Nat.le_succ _) fun _ _ _ _ _ _ => Nat.le_refl _
    have rest : ∀ stop v, walkBit b u = .ok stop v → Part i s k (walkBits bits v) := by
      intro stop v h
      obtain ⟨cs, hl, w'⟩ := edge.ok stop v h
      exact ih w' (by omega)
    constructor
    · intro _ t h
      obtain ⟨stop, v, h1, h2⟩ := Access.bind_eq_ok.mp h
      cases stop with
      | true =>
        cases h2
        obtain ⟨cs, hl, w'⟩ := edge.ok true t h1
        exact ⟨cs, by omega, w'⟩
      | false => exact (rest false v h1).ok _ t h2
    · intro t h
      rcases Access.bind_eq_halt.mp h with ⟨stop, v, h1, h2⟩ | h1
      · cases stop with
        | true => cases h2
        | false => exact (rest false v h1).halt t h2
      · obtain ⟨cs, v, hl, w', rfl⟩ := edge.halt t h1
        exact ⟨cs, v, by omega, w', rfl⟩

/-- Decoding stops at the sentinel leaf, in the closing phase. -/
theorem walkBit_stop_phase {bit : Bool} (h : walkBit bit u = .ok true t) : t.phase = Phase.close := by
  obtain ⟨e, d, -, -, -, ⟨-, hx⟩ | ⟨-, hx⟩⟩ := walkBit_eq h (.inl ⟨true, t, rfl⟩)
  · cases hx
  · obtain ⟨d, -, ⟨-, -, rfl⟩ | ⟨hb, -⟩⟩ := emitLeaf_eq_ok hx.symm
    · rfl
    · cases hb

end

/-! ### FrequencyScanner -/

section
variable {s t : State}

theorem fsClear_effect (h : execFsClear s = .next t) : Effect .fsClear s t := by
  have w := Working.start .fsClear s
  obtain rfl := execFsClear_cases h
  exact .quiet Phase.fsCount
    { w with
      keeps := { w.keeps with cnt := nofun, inPos := nofun }
      cursor := fun _ _ => Nat.zero_le _ } rfl (by decide)

/-- A byte below `IN_LEN` is taken up: the cursor stays within the input. -/
theorem inPos_succ_le {p l : Word} (h : p.toNat + 1 ≤ l.toNat) : (p + 1).toNat ≤ l.toNat := by
  bv_omega

theorem fsCount_effect (h : execFsCount s = .next t) : Effect .fsCount s t := by
  have w := (Working.start .fsCount s).afterDraw
  rcases execFsCount_cases h with ⟨-, rfl⟩ | ⟨-, rfl⟩ | ⟨b, -, -, hl, ⟨-, rfl⟩ | ⟨-, rfl⟩⟩
  · exact .quiet Phase.fsSent ((Working.start _ s).setPhase _) rfl (by decide)
  · exact .raises w (by decide)
  · exact .raises w (by decide)
  · exact .quiet Phase.fsCount
      { w with
        keeps := { w.keeps with cnt := nofun, inPos := nofun }
        cursor := fun _ _ => inPos_succ_le hl } rfl (by decide)

theorem fsSent_effect (h : execFsSent s = .next t) : Effect .fsSent s t := by
  have w := Working.start .fsSent s
  obtain rfl := execFsSent_cases h
  exact .quiet Phase.fsCollect { w with keeps := { w.keeps with cnt := nofun } } rfl (by decide)

theorem fsCollect_effect (h : execFsCollect s = .next t) : Effect .fsCollect s t := by
  have w := Working.start .fsCollect s
  rcases execFsCollect_cases h with ⟨-, rfl⟩ | ⟨-, -, rfl⟩
  · exact .raises w (by decide)
  · exact .quiet Phase.tbSort
      { w with keeps := { w.keeps with node := nofun, n := nofun } } rfl (by decide)

/-! ### TreeBuilder -/

theorem tbSort_effect (h : execTbSort s = .next t) : Effect .tbSort s t := by
  have w := Working.start .tbSort s
  obtain rfl := execTbSort_cases h
  exact .quiet Phase.tbInit { w with keeps := { w.keeps with node := nofun } } rfl (by decide)

/-- A phase that depends on a test follows where both do. -/
theorem follows_ite {i : Instr} {p q : PhaseCode} {c : Prop} [Decidable c] (hp : Follows i p)
    (hq : Follows i q) : Follows i (if c then p else q) := by
  split
  · exact hp
  · exact hq

theorem tbInit_effect (h : execTbInit s = .next t) : Effect .tbInit s t := by
  have w := Working.start .tbInit s
  obtain rfl := execTbInit_cases h
  exact .quiet _ { w with keeps := { w.keeps with lrem := nofun, qh := nofun, nt := nofun } } rfl
    (follows_ite (by decide) (by decide))

/-- `TB.TAKE` writes `SEL` and one of `LREM`, `QH` (R124). -/
theorem takeItem_working {i : Instr} {u : State} {a : Unit} (w : Working i s [] u)
    (ht : writesTake i = true) (hs : writesSel i = true) (h : takeItem u = .ok a t) :
    Working i s [] t := by
  rcases takeItem_eq_ok h with ⟨rfl, -⟩ | ⟨rfl, -⟩
  · exact { w with keeps := { w.keeps with sel := by simp [hs], lrem := by simp [ht] } }
  · exact { w with keeps := { w.keeps with sel := by simp [hs], qh := by simp [ht] } }

theorem tbTake_effect (h : execTbTake s = .next t) : Effect .tbTake s t := by
  rcases Access.finish_eq_next.mp h with h | h
  · exact .quiet _ (takeItem_working (.start _ s) rfl rfl h) rfl nofun
  · exact absurd h takeItem_ne_halt

theorem afterJoin_effect {u : State} (w : Working .tbMerge s [] u) : Effect .tbMerge s u.afterJoin :=
  .quiet _ { w with keeps := { w.keeps with nt := nofun } } rfl
    (follows_ite (p := Phase.tbMerge) (q := Phase.tbRoot) (by decide) (by decide))

theorem tbMerge_effect (h : execTbMerge s = .next t) : Effect .tbMerge s t := by
  obtain ⟨-, s1, s2, x, y, h1, h2, -, -, -, rfl⟩ := execTbMerge_cases h
  have w1 := takeItem_working (.start .tbMerge s) rfl rfl h1
  have w2 := takeItem_working w1 rfl rfl h2
  exact afterJoin_effect (((w2.setNode rfl _ _).setNode rfl _ _).setNode rfl _ _)

theorem tbRoot_effect (h : execTbRoot s = .next t) : Effect .tbRoot s t := by
  have w := Working.start .tbRoot s
  obtain rfl := execTbRoot_cases h
  exact .quiet _ { w with keeps := { w.keeps with root := nofun } } rfl
    (follows_ite (by decide) (by decide))

/-! ### CodeAssigner -/

theorem caClear_effect (h : execCaClear s = .next t) : Effect .caClear s t := by
  have w := Working.start .caClear s
  obtain rfl := execCaClear_cases h
  exact .quiet Phase.caWalk { w with keeps := { w.keeps with lut := nofun, caI := nofun } } rfl
    (by decide)

theorem caWalk_effect (h : execCaWalk s = .next t) : Effect .caWalk s t := by
  have w := Working.start .caWalk s
  rcases execCaWalk_cases h with ⟨-, rfl⟩ | ⟨-, e, -, ⟨-, rfl⟩ | ⟨c, len, -, -, rfl⟩⟩
  · exact .quiet Phase.hcWidth (w.setPhase _) rfl (by decide)
  · exact .raises w (by decide)
  · exact .quiet Phase.caWalk
      { w with keeps := { w.keeps with node := nofun, lut := nofun, caI := nofun } } rfl (by decide)

/-! ### HeaderCodec -/

theorem hcWidth_effect (h : execHcWidth s = .next t) : Effect .hcWidth s t := by
  have w := Working.start .hcWidth s
  obtain rfl := execHcWidth_cases h
  exact .quiet Phase.hcPuthdr { w with keeps := { w.keeps with f := nofun } } rfl (by decide)

theorem hcPuthdr_effect (h : execHcPuthdr s = .next t) : Effect .hcPuthdr s t := by
  have w := (Working.start .hcPuthdr s).afterDraw
  have w1 := (w.appendOut [s.n]).afterDraw
  rcases execHcPuthdr_cases h with rfl | rfl | rfl
  · exact .fails (w.appendOut []) (Nat.zero_le _) (by decide)
  · exact .fails (w1.appendOut []) (Nat.le_succ 1) (by decide)
  · have w2 := w1.appendOut [s.f.setWidth 8]
    exact .completes Phase.hcPutpair { w2 with keeps := { w2.keeps with hcI := nofun } }
      (Nat.le_refl 2) rfl (by decide)

theorem hcPutpair_effect (h : execHcPutpair s = .next t) : Effect .hcPutpair s t := by
  have w := Working.start .hcPutpair s
  rcases execHcPutpair_cases h with ⟨-, rfl⟩ | ⟨hc, e, -, h⟩
  · exact .quiet Phase.bseInit (w.setPhase _) rfl (by decide)
  · have hw : storeWidth s .hcPutpair = 1 + s.f.toNat := if_neg hc
    have w1 := (w.afterDraw.appendOut [e.sym]).afterDraw
    rcases h with rfl | ⟨k, hk, rfl⟩ | rfl
    · exact .fails (w.afterDraw.appendOut []) (Nat.zero_le _) (by decide)
    · refine .fails (w1.appendOut _) ?_ (by decide)
      rw [hw]
      simp
    · have w2 := w1.appendOut (freqBytes s.cfg e.freq s.f)
      refine .completes Phase.hcPutpair { w2 with keeps := { w2.keeps with hcI := nofun } } ?_ rfl
        (by decide)
      rw [hw]
      simp [Nat.add_comm]

theorem hcGethdr_effect (h : execHcGethdr s = .next t) : Effect .hcGethdr s t := by
  have w := Working.start .hcGethdr s
  rcases execHcGethdr_cases h with ⟨-, rfl⟩ | ⟨hl, h⟩
  · exact .raises w (by decide)
  · have w2 : Working .hcGethdr s [] { s.afterDraw.afterDraw with inPos := 2 } :=
      { w.afterDraw.afterDraw with
        keeps := { w.afterDraw.afterDraw.keeps with inPos := nofun }
        cursor := fun _ _ => hl }
    rcases h with rfl | rfl | ⟨n, f, -, -, ⟨info, -, rfl⟩ | ⟨-, rfl⟩⟩
    · exact .raises w.afterDraw (by decide)
    · exact .raises w.afterDraw.afterDraw (by decide)
    · exact .raises w2 (by decide)
    · exact .quiet Phase.hcGetpair
        { w2 with keeps := { w2.keeps with n := nofun, f := nofun, hcI := nofun } } rfl (by decide)

/-- A pair that lies below `IN_LEN` is taken up: the cursor stays within the input. -/
theorem inPos_pair_le {p l : Word} {f : FieldWidth} (h : p.toNat + 1 + f.toNat ≤ l.toNat) :
    (p + 1 + f.setWidth 64).toNat ≤ l.toNat := by
  bv_omega

theorem hcGetpair_effect (h : execHcGetpair s = .next t) : Effect .hcGetpair s t := by
  have w := Working.start .hcGetpair s
  have w2 := w.afterDraw.afterDraw
  rcases execHcGetpair_cases h with ⟨-, rfl⟩ | ⟨-, rfl | rfl | ⟨sym, bs, -, -, hl, -, rfl⟩⟩
  · exact .quiet Phase.tbSort (w.setPhase _) rfl (by decide)
  · exact .raises w.afterDraw (by decide)
  · exact .raises w2 (by decide)
  · refine .quiet Phase.hcGetpair
      { w2 with
        keeps := { w2.keeps with node := nofun, inPos := nofun, hcI := nofun }
        cursor := fun _ _ => ?_ } rfl (by decide)
    simpa using inPos_pair_le hl

/-! ### BitStreamEncoder -/

theorem bseInit_effect (h : execBseInit s = .next t) : Effect .bseInit s t := by
  have w := Working.start .bseInit s
  obtain rfl := execBseInit_cases h
  exact .quiet Phase.bseSym
    { w with
      keeps := { w.keeps with acc := nofun, free := nofun, inPos := nofun }
      cursor := fun _ _ => Nat.zero_le _ } rfl (by decide)

theorem bsePut_effect {v : Word} {l : Len} (h : execBsePut v l s = .next t) :
    Effect (.bsePut v l) s t := by
  have p : Part (.bsePut v l) s (storeWidth s (.bsePut v l)) (putCode v l s) :=
    putCode_part (.start _ s) rfl (Nat.zero_add _).le
  rcases execBsePut_cases h with h | h
  · exact p.ends h nofun
  · exact p.fails (.head _) h

theorem storeWidth_bseSym {b : Byte} {e : LutEntry} (hp : s.inPos ≠ s.inLen)
    (hb : s.inp.byteAt s.inPos.toNat = some b) (he : s.lutFor b = some e) :
    storeWidth s .bseSym = putWidth s e := by
  refine (if_neg hp).trans ?_
  rw [hb]
  simp only [he]

theorem bseSym_effect (h : execBseSym s = .next t) : Effect .bseSym s t := by
  have w := Working.start .bseSym s
  rcases execBseSym_cases h with
    ⟨-, rfl⟩ | ⟨-, rfl⟩ | ⟨b, hp, hb, hl, ⟨-, rfl⟩ | ⟨e, he, h⟩⟩
  · exact .quiet Phase.bseEos (w.setPhase _) rfl (by decide)
  · exact .raises w.afterDraw (by decide)
  · exact .raises w.afterDraw (by decide)
  · have w1 : Working .bseSym s [] { s.afterDraw with inPos := s.inPos + 1 } :=
      { w.afterDraw with
        keeps := { w.afterDraw.keeps with inPos := nofun }
        cursor := fun _ _ => inPos_succ_le hl }
    have p : Part .bseSym s (storeWidth s .bseSym)
        (putCode e.code e.len { s.afterDraw with inPos := s.inPos + 1 }) := by
      refine putCode_part w1 rfl ?_
      rw [storeWidth_bseSym hp hb he, putWidth, State.afterDraw_free]
      exact (Nat.zero_add _).le
    rcases h with ⟨u, hu, rfl⟩ | hu
    · exact p.completes hu _ (follows_ite (by decide) (by decide))
    · exact p.fails (by decide) hu

theorem bseEos_effect (h : execBseEos s = .next t) : Effect .bseEos s t := by
  have p : Part .bseEos s (storeWidth s .bseEos) (putCode s.lut[0].code s.lut[0].len s) :=
    putCode_part (.start _ s) rfl (Nat.zero_add _).le
  rcases execBseEos_cases h with ⟨u, hu, rfl⟩ | hu
  · exact p.completes hu Phase.bseFinal (by decide)
  · exact p.fails (by decide) hu

theorem bseFinal_effect (h : execBseFinal s = .next t) : Effect .bseFinal s t := by
  have w := Working.start .bseFinal s
  have hw : storeWidth s .bseFinal = ceil8 (64 - s.free.toNat) := rfl
  obtain ⟨-, ⟨-, rfl⟩ | ⟨k, hk, rfl⟩ | ⟨-, -, rfl⟩⟩ := execBseFinal_cases h
  · exact .quiet Phase.close (w.setPhase _) rfl (by decide)
  · refine .fails (w.afterDraw.appendOut _) ?_ (by decide)
    rw [hw]
    simp
  · refine .completes Phase.close ((w.afterDraw.appendOut _).setPhase _) ?_ rfl (by decide)
    rw [hw]
    simp

/-! ### BitStreamDecoder -/

theorem bsdInit_effect (h : execBsdInit s = .next t) : Effect .bsdInit s t := by
  have w := Working.start .bsdInit s
  have w1 : Working .bsdInit s [] s.startDecoder :=
    { w with keeps := { w.keeps with nbits := nofun, cur := nofun, prem := nofun } }
  obtain ⟨e, -, ⟨-, -, rfl⟩ | ⟨-, -, rfl⟩ | ⟨-, rfl⟩⟩ := execBsdInit_cases h
  · exact .quiet Phase.close (w1.setPhase _) rfl (by decide)
  · exact .raises w1 (by decide)
  · exact .quiet Phase.bsdFetch (w1.setPhase _) rfl (by decide)

/-- `k` bytes below `IN_LEN` are taken up: the cursor stays within the input. -/
theorem inPos_add_le {p l : Word} {k : Nat} (h : p.toNat + k ≤ l.toNat) :
    (p + BitVec.ofNat 64 k).toNat ≤ l.toNat := by
  bv_omega

theorem bsdFetch_effect (h : execBsdFetch s = .next t) : Effect .bsdFetch s t := by
  have w := Working.start .bsdFetch s
  have w1 := w.afterDraw
  rcases execBsdFetch_cases h with ⟨-, rfl⟩ | ⟨-, rfl⟩ | ⟨-, bs, -, hl, rfl⟩
  · exact .raises w (by decide)
  · exact .raises w1 (by decide)
  · refine .quiet Phase.bsdBit
      { w1 with
        keeps := { w1.keeps with dword := nofun, nbits := nofun, inPos := nofun, prem := nofun }
        cursor := fun _ _ => ?_ } rfl (by decide)
    simpa using inPos_add_le hl

theorem storeWidth_bsdLeaf {e : NodeEntry} (he : s.nodeAt s.cur = some e) (hs : e.sym ≠ 0) :
    storeWidth s .bsdLeaf = 1 := by
  show (match s.nodeAt s.cur with | some e => if e.sym ≠ 0 then 1 else 0 | none => 0) = 1
  rw [he]
  exact if_pos hs

theorem bsdLeaf_effect (h : execBsdLeaf s = .next t) : Effect .bsdLeaf s t := by
  have p : Part .bsdLeaf s (storeWidth s .bsdLeaf) (emitLeaf s) :=
    emitLeaf_part (.start .bsdLeaf s) rfl (Nat.zero_le _) fun e he hs =>
      (storeWidth_bsdLeaf he hs).ge
  rcases execBsdLeaf_cases h with ⟨b, h⟩ | h
  · exact p.ends h nofun
  · exact p.fails (.head _) h

theorem storeWidth_bsdBit {e d : NodeEntry} (he : s.nodeAt s.cur = some e)
    (hd : s.nodeAt (if s.dword.getLsbD 63 then e.right else e.left) = some d) (hk : d.kind = .leaf)
    (hs : d.sym ≠ 0) : storeWidth s .bsdBit = 1 := by
  have hw : storeWidth s .bsdBit = leafWidth s (if s.dword.getLsbD 63 then e.right else e.left) := by
    show (match s.nodeAt s.cur with | some e => leafWidth s _ | none => 0) = _
    rw [he]
  rw [hw, leafWidth, hd]
  exact if_pos ⟨hk, hs⟩

theorem bsdBit_effect (h : execBsdBit s = .next t) : Effect .bsdBit s t := by
  have w := Working.start .bsdBit s
  have w1 : Working .bsdBit s [] s.dropBit :=
    { w with keeps := { w.keeps with dword := nofun, nbits := nofun } }
  have p : Part .bsdBit s (storeWidth s .bsdBit) (walkBit (s.dword.getLsbD 63) s.dropBit) := by
    exact walkBit_part w1 rfl (Nat.zero_le _) fun e d he hd hk hs =>
      (storeWidth_bsdBit (s := s) he hd hk hs).ge
  obtain ⟨-, hw | ⟨u, hw, rfl⟩ | hw⟩ := execBsdBit_cases h
  · exact p.ends hw (by rw [walkBit_stop_phase hw]; decide)
  · exact p.completes hw _ (follows_ite (by decide) (by decide))
  · exact p.fails (by decide) hw

/-! ### Commands -/

/-- A reserved command byte is ignored while a command runs, and fails otherwise. -/
theorem illegalCommand_effect {i : Instr} {c : Byte} (hi : isIllegal i = true)
    (hp : phaseCode i = none) (h : illegalCommand c s = .next t) : Effect i s t := by
  rcases accept_cases h with rfl | ⟨-, rfl⟩
  · exact .quiet _ (.start i _) rfl (by rw [Follows, hp]; exact nofun)
  · exact .illegal c hi

theorem compress_effect (h : execCompress s = .next t) : Effect .compress s t := by
  rcases accept_cases h with rfl | ⟨-, rfl⟩
  · exact .quiet _ (.start _ _) rfl nofun
  · exact .compress

theorem decompress_effect (h : execDecompress s = .next t) : Effect .decompress s t := by
  rcases accept_cases h with rfl | ⟨-, rfl⟩
  · exact .quiet _ (.start _ _) rfl nofun
  · exact .decompress

/-! ### Container records -/

theorem hdrCount_effect {n : Byte} (h : execHdrCount n s = .next t) : Effect (.hdrCount n) s t := by
  have w := Working.start (.hdrCount n) s
  have w1 : Working (.hdrCount n) s [] { s with inPos := s.inPos + 1 } :=
    { w with keeps := { w.keeps with inPos := nofun }, cursor := nofun }
  rcases execHdrCount_cases h with ⟨-, rfl⟩ | ⟨-, rfl⟩
  · exact .raises w1 (.head _)
  · exact .quiet _ { w1 with keeps := { w1.keeps with n := nofun } } rfl nofun

theorem hdrWidth_effect {f : Byte} (h : execHdrWidth f s = .next t) : Effect (.hdrWidth f) s t := by
  have w := Working.start (.hdrWidth f) s
  have w1 : Working (.hdrWidth f) s [] { s with inPos := s.inPos + 1 } :=
    { w with keeps := { w.keeps with inPos := nofun }, cursor := nofun }
  rcases execHdrWidth_cases h with ⟨info, rfl⟩ | ⟨-, -, rfl⟩
  · exact .raises w1 (.head _)
  · exact .quiet _ { w1 with keeps := { w1.keeps with f := nofun, hcI := nofun } } rfl nofun

theorem pair_effect {sym : Byte} {f : FieldWidth} {freq : Word} (h : execPair sym f freq s = .next t) :
    Effect (.pair sym f freq) s t := by
  have w := Working.start (.pair sym f freq) s
  obtain ⟨-, rfl⟩ := execPair_cases h
  exact .quiet _
    { w with
      keeps := { w.keeps with node := nofun, inPos := nofun, hcI := nofun }
      cursor := nofun } rfl nofun

/-- A payload record is taken up (R177): `WORD` and `TAIL`. -/
theorem loadWord_working {i : Instr} (v k : Nat) (hd : writesDword i = true)
    (hn : writesNbits i = true) (hi : writesInPos i = true) (hp : writesPrem i = true)
    (hc : phaseCode i = none) : Working i s [] (s.loadWord v k) :=
  have w := Working.start i s
  { w with
    keeps :=
      { w.keeps with
        dword := by simp [hd]
        nbits := by simp [hn]
        inPos := by simp [hi]
        prem := by simp [hp] }
    cursor := by simp [hc] }

theorem word_effect {v : Word} (h : execWord v s = .next t) : Effect (.word v) s t := by
  obtain rfl := execWord_cases h
  exact .quiet _ (loadWord_working _ _ rfl rfl rfl rfl rfl) rfl nofun

theorem tail_effect {k : BitVec 4} {v : Word} (h : execTail k v s = .next t) :
    Effect (.tail k v) s t := by
  obtain rfl := execTail_cases h
  exact .quiet _ (loadWord_working _ _ rfl rfl rfl rfl rfl) rfl nofun

theorem code_effect {c : Word} {len : Len} (h : execCode c len s = .next t) :
    Effect (.code c len) s t := by
  have p : Part (.code c len) s (storeWidth s (.code c len)) (walkBits (codeBits len.toNat c.toNat) s) :=
    walkBits_part (.start _ s) rfl (by rw [codeBits_length]; exact (Nat.zero_add _).le)
  rcases Access.finish_eq_next.mp h with h | h
  · exact p.ends h nofun
  · exact p.fails (.head _) h

/-! ### Every operation -/

/-- What an operation answers is one of its effects. -/
theorem exec_effect {i : Instr} (h : exec i s = .next t) : Effect i s t := by
  cases i with
  | nop =>
    cases h
    exact .quiet _ (.start _ s) rfl nofun
  | compress => exact compress_effect h
  | decompress => exact decompress_effect h
  | illegal03 => exact illegalCommand_effect rfl rfl h
  | illegal04 x => exact illegalCommand_effect rfl rfl h
  | illegal08 x => exact illegalCommand_effect rfl rfl h
  | illegal10 x => exact illegalCommand_effect rfl rfl h
  | illegal20 x => exact illegalCommand_effect rfl rfl h
  | illegal40 x => exact illegalCommand_effect rfl rfl h
  | illegal80 x => exact illegalCommand_effect rfl rfl h
  | fsClear => exact fsClear_effect h
  | fsCount => exact fsCount_effect h
  | fsSent => exact fsSent_effect h
  | fsCollect => exact fsCollect_effect h
  | tbSort => exact tbSort_effect h
  | tbInit => exact tbInit_effect h
  | tbMerge => exact tbMerge_effect h
  | tbRoot => exact tbRoot_effect h
  | caClear => exact caClear_effect h
  | caWalk => exact caWalk_effect h
  | hcWidth => exact hcWidth_effect h
  | hcPuthdr => exact hcPuthdr_effect h
  | hcPutpair => exact hcPutpair_effect h
  | hcGethdr => exact hcGethdr_effect h
  | hcGetpair => exact hcGetpair_effect h
  | bseInit => exact bseInit_effect h
  | bseSym => exact bseSym_effect h
  | bseEos => exact bseEos_effect h
  | bseFinal => exact bseFinal_effect h
  | bsdInit => exact bsdInit_effect h
  | bsdFetch => exact bsdFetch_effect h
  | bsdBit => exact bsdBit_effect h
  | cmdClose =>
    obtain rfl := execCmdClose_cases h
    exact .closes
  | pIdle =>
    cases h
    exact .quiet _ (.start _ s) rfl fun p hp hne => absurd (Option.some.inj hp).symm hne
  | tbTake => exact tbTake_effect h
  | bsePut v l => exact bsePut_effect h
  | bsdLeaf => exact bsdLeaf_effect h
  | reset =>
    cases h
    exact .resets
  | hdrCount n => exact hdrCount_effect h
  | hdrWidth f => exact hdrWidth_effect h
  | pair sym f freq => exact pair_effect h
  | word v => exact word_effect h
  | tail k v => exact tail_effect h
  | code c len => exact code_effect h

end

end Sys2Proof.Proofs
end

section
/-! The frames of the registers, of the causes and of memory (R31 to R37, R71, R210): read off what an
operation can do, `exec_effect`. -/

namespace Sys2Proof.Proofs

open Sys2Proof.Machine Sys2Proof.Claim

section
variable {i : Instr} {s t : State}

/-- Every operation keeps the registers it is not listed to write. -/
theorem Effect.keeps (e : Effect i s t) : Keeps i s t := by
  cases e with
  | completes _ w => exact w.keeps
  | fails w => exact { w.keeps with }
  | closes => exact { (Keeps.refl .cmdClose s) with }
  | compress => exact { (Keeps.refl .compress s) with n := nofun, f := nofun, inPos := nofun }
  | decompress => exact { (Keeps.refl .decompress s) with n := nofun, f := nofun, inPos := nofun }
  | illegal => exact { (Keeps.refl i s) with }
  | resets => constructor <;> exact nofun

/-- Settles O49: the frame of the working registers that every effect keeps. -/
theorem onlyListedWritersOfWorkingRegisters : Obligations.OnlyListedWritersOfWorkingRegisters := by
  intro i s t h
  have k := (exec_effect h).keeps
  exact ⟨k.root, fun hw => ⟨k.lrem hw, k.qh hw⟩, k.sel, k.nt, k.caI, k.hcI,
    fun hw => ⟨k.acc hw, k.free hw⟩, k.dword, k.nbits, k.prem, k.cur⟩

/-! ### Counts and control registers -/

/-- `IN_LEN` and `EMPTY_INPUT` change at a command start and at `RESET` only. -/
theorem Effect.inLen_emptyInput (e : Effect i s t) (hs : starts i = false) (hr : i ≠ .reset) :
    t.inLen = s.inLen ∧ t.flags.emptyInput = s.flags.emptyInput := by
  cases e with
  | completes _ w => exact ⟨w.inLen, congrArg Flags.emptyInput w.flags⟩
  | fails w => exact ⟨w.inLen, congrArg (·.closed.emptyInput) w.flags⟩
  | closes | illegal => exact ⟨rfl, rfl⟩
  | compress | decompress => cases hs
  | resets => exact absurd rfl hr

/-- An operation without a `MemWrite` appends nothing. -/
theorem storeWidth_eq_zero (hs : stores i = false) : storeWidth s i = 0 := by
  cases i with
  | hcPuthdr | hcPutpair | bsePut | bseSym | bseEos | bseFinal | bsdLeaf | bsdBit | code => cases hs
  | _ => rfl

theorem appended_eq_nil {bs : List Byte} (hs : stores i = false) (hl : bs.length ≤ storeWidth s i) :
    bs = [] :=
  List.eq_nil_of_length_eq_zero (Nat.le_zero.mp (storeWidth_eq_zero (s := s) hs ▸ hl))

theorem Effect.outLen (e : Effect i s t) (hm : stores i = false) (hs : starts i = false)
    (hr : i ≠ .reset) : t.outLen = s.outLen := by
  cases e with
  | completes _ w hl =>
    obtain rfl := appended_eq_nil hm hl
    exact w.outLen.trans (BitVec.add_zero _)
  | fails w hl =>
    obtain rfl := appended_eq_nil hm hl
    exact w.outLen.trans (BitVec.add_zero _)
  | closes | illegal => rfl
  | compress | decompress => cases hs
  | resets => exact absurd rfl hr

/-- `OP` changes at a command start, at `RESET` and at an illegal command only. -/
theorem Effect.op (e : Effect i s t) (hs : starts i = false) (hr : i ≠ .reset)
    (hi : isIllegal i = false) : t.op = s.op := by
  cases e with
  | completes _ w => exact w.op
  | fails w => exact w.op
  | closes => rfl
  | compress | decompress => cases hs
  | illegal _ hi' => exact absurd (hi.symm.trans hi') nofun
  | resets => exact absurd rfl hr

/-- Settles O50: the frame of the arrays, and the frames of the counts and of `OP`, effect by effect. -/
theorem onlyListedWritersOfArraysAndCounts : Obligations.OnlyListedWritersOfArraysAndCounts := by
  intro i s t h
  have e := exec_effect h
  have k := e.keeps
  exact ⟨k.cnt, k.node, k.lut, k.n, k.f, k.inPos, e.inLen_emptyInput, e.outLen, e.op⟩

theorem illegalCommand_mem_mayRaise (hi : isIllegal i = true) : .illegalCommand ∈ mayRaise i := by
  cases i with
  | illegal03 | illegal04 | illegal08 | illegal10 | illegal20 | illegal40 | illegal80 => exact .head _
  | _ => cases hi

/-- Settles O51: only fault entry writes a cause, and its cause is a listed one. -/
theorem onlyListedCausesAreRaised : Obligations.OnlyListedCausesAreRaised := by
  intro i s t h
  cases exec_effect h with
  | completes _ w => exact .inl ⟨w.cause, w.info⟩
  | fails w _ hc => exact .inr (.inr ⟨rfl, rfl, rfl, rfl, hc⟩)
  | closes => exact .inl ⟨rfl, rfl⟩
  | compress | decompress => exact .inr (.inl ⟨.inl rfl, rfl, rfl⟩)
  | illegal c hi => exact .inr (.inr ⟨rfl, rfl, rfl, rfl, illegalCommand_mem_mayRaise hi⟩)
  | resets => exact .inr (.inl ⟨.inr rfl, rfl, rfl⟩)

/-! ### Memory -/

/-- Settles O53: what an operation without a `MemWrite` has appended is empty. -/
theorem nonStoringOperationsKeepEveryByte : Obligations.NonStoringOperationsKeepEveryByte := by
  intro i s t hm hs h a
  cases exec_effect h with
  | completes _ w hl =>
    obtain rfl := appended_eq_nil hm hl
    exact ⟨congrArg (·.byteAt a) w.inp, congrArg (·.byteAt a) w.out⟩
  | fails w hl =>
    obtain rfl := appended_eq_nil hm hl
    exact ⟨congrArg (·.byteAt a) w.inp, congrArg (·.byteAt a) w.out⟩
  | closes | illegal | resets => exact ⟨rfl, rfl⟩
  | compress | decompress => cases hs

/-- Bytes appended within the width leave every byte around them. -/
theorem Working.byteAt_frame {bs : List Byte} (w : Working i s bs t)
    (hl : bs.length ≤ storeWidth s i) (hwf : s.out.wf = true) :
    (∀ a, t.inp.byteAt a = s.inp.byteAt a) ∧
      ∀ a, a < s.out.endOff ∨ s.out.endOff + storeWidth s i ≤ a → t.out.byteAt a = s.out.byteAt a := by
  refine ⟨fun a => by rw [w.inp], fun a ha => ?_⟩
  rw [w.out]
  exact Memory.byteAt_appendAll_frame hwf bs (by omega)

/-- Settles O54: an operation with a `MemWrite` appends, at most its width. -/
theorem storingOperationsAppendAtTheEnd : Obligations.StoringOperationsAppendAtTheEnd := by
  intro i s t hm hwf h
  cases exec_effect h with
  | completes _ w hl => exact w.byteAt_frame hl hwf
  | fails w hl => exact w.byteAt_frame hl hwf
  | illegal => exact ⟨fun _ => rfl, fun _ _ => rfl⟩
  | closes | compress | decompress | resets => cases hm

end

end Sys2Proof.Proofs
end

section
/-! The two invariants that `step` keeps: `StreamsOk` (R29, R60, R204) and `ControlOk` (R22 to R28). Each is
kept by the effects of an operation (`exec_effect`), by a command start, by an illegal command and by `RESET`;
the four kinds of step (`step_cases`) are made of these. -/

namespace Sys2Proof.Machine

open Sys2Proof.Claim Sys2Proof.Proofs

/-! ### Streams -/

section
variable {i : Instr} {s t : State} {bs : List Byte}

/-- The invariant speaks of the streams, the host's fields, `OP` and `OUT_LEN` alone. -/
theorem StreamsOk.working (hs : StreamsOk s) (w : Working i s bs t) : StreamsOk t where
  inp := w.inp ▸ hs.inp
  out := w.out ▸ Memory.wf_appendAll bs hs.out
  dense := by rw [w.out, Memory.endOff_appendAll, Memory.length_appendAll, hs.dense]
  counted hop := by
    rw [w.out, w.outLen, hs.counted (w.op ▸ hop), Memory.length_appendAll, BitVec.ofNat_add]
  offered := w.offer ▸ hs.offered
  planned := w.host ▸ hs.planned

theorem StreamsOk.raise (hs : StreamsOk s) (c : Cause) (info : Word) : StreamsOk (s.raise c info) :=
  { hs with }

/-- A command starts on the input held out and an empty `OUT`. -/
theorem StreamsOk.startCommand (hs : StreamsOk s) (op : Op) : StreamsOk (s.startCommand op) where
  inp := hs.offered
  out := rfl
  dense := rfl
  counted _ := rfl
  offered := hs.offered
  planned := hs.planned

/-- Without a command nothing is counted. -/
theorem StreamsOk.illegal (hs : StreamsOk s) (c : Byte) : StreamsOk (s.illegal c) :=
  { hs with counted := fun hop => absurd rfl hop }

theorem StreamsOk.resetCore (hs : StreamsOk s) : StreamsOk s.resetCore :=
  { hs with counted := fun hop => absurd rfl hop }

theorem exec_keeps_streams (hs : StreamsOk s) (h : exec i s = .next t) : StreamsOk t := by
  cases exec_effect h with
  | completes _ w => exact hs.working w
  | fails w => exact (hs.working w).raise _ _
  | closes => exact { hs with }
  | compress | decompress => exact hs.startCommand _
  | illegal c => exact hs.illegal c
  | resets => exact hs.resetCore

/-- The host's plan may lose acts or draw nearer. -/
theorem StreamsOk.withHost {plan : List HostEvent} (hs : StreamsOk s)
    (hp : ∀ e ∈ plan, ∃ e' ∈ s.host, e.act = e'.act) : StreamsOk { s with host := plan } :=
  { hs with
    planned := fun e he => by
      obtain ⟨e', he', ha⟩ := hp e he
      exact ha ▸ hs.planned e' he' }

theorem StreamsOk.withOffer {m : Memory} {len : Word} (hs : StreamsOk s) (hm : m.wf = true) :
    StreamsOk { s with offer := { input := m, len := len } } :=
  { hs with offered := hm }

end

/-! ### Control -/

/-- The phase code that selects an operation is the operation's own (R83). -/
theorem phaseCode_of_decodePhase : ∀ p : PhaseCode, ∀ i ∈ decodePhase p, phaseCode i = some p := by
  decide

/-- A command goes on in its own sequence (R194, R195, R200). `TB.ROOT`, where the two commands part, is
apart. -/
theorem mem_phases_of_successor (op : Op) :
    ∀ p ∈ op.phases, p ≠ Phase.tbRoot → ∀ q ∈ successors p, q ≠ Phase.idle → q ∈ op.phases := by
  cases op <;> decide

theorem tbRoot_phase_mem {op : Op} (h : Phase.tbRoot ∈ op.phases) :
    (if op = .compress then Phase.caClear else Phase.bsdInit) ∈ op.phases := by
  cases op with
  | none => cases h
  | compress | decompress => decide

theorem idle_not_mem_phases (op : Op) : Phase.idle ∉ op.phases := by
  cases op <;> decide

theorem none_not_mem_mayRaise (i : Instr) : Cause.none ∉ mayRaise i := by
  cases i <;> exact nofun

section
variable {i : Instr} {s t : State}

/-- Fault entry meets the invariant from every state whose cursor is within the input, if it has a cause. -/
theorem ControlOk.raise {c : Cause} {info : Word} (hc : c ≠ .none)
    (hp : s.inPos.toNat ≤ s.inLen.toNat) : ControlOk (s.raise c info) where
  running := nofun
  resting _ := ⟨rfl, rfl, rfl⟩
  noCause h := absurd rfl h
  hasCause _ := hc
  unused := nofun
  cursor := hp

theorem ControlOk.illegal (hs : ControlOk s) (c : Byte) : ControlOk (s.illegal c) :=
  { ControlOk.raise (s := s) (c := .illegalCommand) (info := c.setWidth 64) nofun hs.cursor with
    running := nofun
    unused := nofun }

/-- A command starts in the first phase of its sequence, at the start of its input. -/
theorem ControlOk.startCommand {op : Op} (hop : op.firstPhase ∈ op.phases) :
    ControlOk (s.startCommand op) where
  running _ := ⟨hop, rfl, rfl⟩
  resting h := absurd rfl h
  noCause _ := ⟨rfl, rfl⟩
  hasCause := nofun
  unused := nofun
  cursor := Nat.zero_le _

theorem ControlOk.resetCore : ControlOk s.resetCore where
  running := nofun
  resting _ := ⟨rfl, rfl, rfl⟩
  noCause _ := ⟨rfl, rfl⟩
  hasCause := nofun
  unused _ := rfl
  cursor := Nat.le_refl _

/-- The control registers do not depend on what the host plans and holds out. -/
theorem ControlOk.withHost (hs : ControlOk s) (plan : List HostEvent) (o : Offer) :
    ControlOk { s with host := plan, offer := o } :=
  { hs with }

/-- A running command that goes on in a phase of its sequence keeps the invariant. -/
theorem ControlOk.goesOn {bs : List Byte} (hs : ControlOk s) (hb : s.status = .busy)
    (w : Working i s bs t) (hi : (phaseCode i).isSome) (hp : t.phase ∈ s.op.phases) : ControlOk t where
  running _ := by
    obtain ⟨-, hin, hout⟩ := hs.running hb
    rw [w.op, w.flags]
    exact ⟨hp, hin, hout⟩
  resting h := absurd (w.status.trans hb) h
  noCause _ := by
    rw [w.cause, w.info]
    exact hs.noCause (by simp [hb])
  hasCause h := by simp [w.status, hb] at h
  unused h := by simp [w.status, hb] at h
  cursor := by
    rw [w.inLen]
    exact w.cursor hi hs.cursor

/-- The close of a running command (R198). -/
theorem ControlOk.closes (hs : ControlOk s) (hb : s.status = .busy) :
    ControlOk { s with flags := s.flags.closed, status := .done, phase := Phase.idle } where
  running := nofun
  resting _ := ⟨rfl, rfl, rfl⟩
  noCause _ := hs.noCause (by simp [hb])
  hasCause := nofun
  unused := nofun
  cursor := hs.cursor

/-- The phase in which the operation of a running command's phase leaves it is one of the command's. -/
theorem phase_mem_of_follows (h : exec i s = .next t) (hd : decodePhase s.phase = some i)
    (hp : s.phase ∈ s.op.phases) (hf : Follows i t.phase) : t.phase ∈ s.op.phases := by
  by_cases hroot : s.phase = Phase.tbRoot
  · rw [hroot] at hd hp
    cases hd
    obtain rfl := execTbRoot_cases h
    exact tbRoot_phase_mem hp
  · obtain ⟨hq, hne⟩ :=
      hf s.phase (phaseCode_of_decodePhase _ _ hd) fun he => idle_not_mem_phases s.op (he ▸ hp)
    exact mem_phases_of_successor s.op s.phase hp hroot t.phase hq hne

theorem exec_keeps_control (hs : ControlOk s) (hb : s.status = .busy)
    (hd : decodePhase s.phase = some i) (h : exec i s = .next t) : ControlOk t := by
  have hi := phaseCode_of_decodePhase _ _ hd
  have hsome : (phaseCode i).isSome := Option.isSome_of_eq_some hi
  cases exec_effect h with
  | completes q w _ hq hf =>
    exact hs.goesOn hb w hsome (phase_mem_of_follows h hd (hs.running hb).1 (hq ▸ hf))
  | fails w _ hc =>
    refine ControlOk.raise (fun e => none_not_mem_mayRaise i (e ▸ hc)) ?_
    rw [w.inLen]
    exact w.cursor hsome hs.cursor
  | closes => exact hs.closes hb
  | compress | decompress | resets => cases hi
  | illegal c => exact hs.illegal c

end

/-! ### Reset -/

theorem controlOk_reset : ControlOk State.reset := ControlOk.resetCore (s := State.reset)

theorem streamsOk_reset : StreamsOk State.reset := ⟨rfl, rfl, rfl, fun _ => rfl, rfl, nofun⟩

/-- Nothing runs and nothing is planned at reset, so only the table of codes needs a look (log 5). -/
theorem runOk_reset : RunOk State.reset where
  control := controlOk_reset
  codes i e h := by
    obtain ⟨-, rfl⟩ : i < 128 ∧ LutEntry.afterReset = e := by
      simpa [State.reset, Vector.getElem?_replicate] using h
    decide
  input := nofun
  offered _ ha := absurd ha (Nat.not_lt_zero _)
  planned := nofun
  phases := nofun

end Sys2Proof.Machine

namespace Sys2Proof.Proofs

open Sys2Proof.Machine

/-- Settles O58: an operation keeps the invariant, and so does what the host plans and hands over. -/
theorem streamInvariantIsKept : Obligations.StreamInvariantIsKept := by
  intro s t hs h
  have rest : ∀ e rest, s.host = e :: rest → StreamsOk { s with host := rest } := fun e rest hh =>
    hs.withHost fun e' he' => ⟨e', hh ▸ List.mem_cons_of_mem e he', rfl⟩
  rcases step_cases h with ⟨plan, i, -, -, hx, hp⟩ | ⟨plan, -, rfl, hp⟩ |
    ⟨e, rest', c, m, len, hh, ha, hx⟩ | ⟨e, rest', hh, -, rfl⟩
  · exact exec_keeps_streams (hs.withHost hp) hx
  · exact hs.withHost hp
  · have hm : e.act.wf = true := hs.planned e (hh ▸ List.mem_cons_self)
    rw [ha] at hm
    exact exec_keeps_streams ((rest e rest' hh).withOffer hm) hx
  · exact (rest e rest' hh).resetCore

/-- Settles O57: the operation of the phase, an act of the host and an idle step each keep the invariant. -/
theorem controlInvariantIsKept : Obligations.ControlInvariantIsKept := by
  intro s t hs h
  rcases step_cases h with ⟨plan, i, hb, hd, hx, -⟩ | ⟨plan, -, rfl, -⟩ |
    ⟨e, rest, c, m, len, -, -, hx⟩ | ⟨e, rest, -, -, rfl⟩
  · exact exec_keeps_control (hs.withHost plan _) hb hd hx
  · exact hs.withHost plan _
  · rcases execCmd_cases hx with rfl | ⟨-, rfl | rfl | ⟨b, rfl⟩⟩
    · exact hs.withHost rest _
    · exact ControlOk.startCommand (by decide)
    · exact ControlOk.startCommand (by decide)
    · exact (hs.withHost rest _).illegal b
  · exact ControlOk.resetCore

/-- Settles O12: `RESET` and the reset state agree in the listed registers. -/
theorem resetSetsTheListedRegisters : Obligations.ResetSetsTheListedRegisters :=
  have hflags : State.reset.flags.bits = 0 := by decide
  ⟨⟨rfl, rfl, rfl, hflags, rfl, rfl, rfl, rfl, rfl, rfl, rfl⟩, fun s =>
    ⟨s.resetCore, rfl, rfl, rfl, rfl, hflags, rfl, rfl, rfl, rfl, rfl, rfl, rfl, fun _ => rfl, rfl⟩⟩

/-- Settles O56: the reset state is at rest, with empty spaces. -/
theorem resetMeetsTheInvariants : Obligations.ResetMeetsTheInvariants :=
  ⟨controlOk_reset, streamsOk_reset, runOk_reset⟩

end Sys2Proof.Proofs
end

section
/-! Stream accesses (R68, R69), where the model stops (log 9), and what no operation changes (R60, R62,
R63). -/

namespace Sys2Proof.Proofs

open Sys2Proof.Machine Sys2Proof.Claim

/-- Settles O46: a draw touches the oracle's fields alone, and it decides between the read's two answers. -/
theorem readIsAllOrNothing : Obligations.ReadIsAllOrNothing := by
  rintro s a n h1 h8 ⟨ho, hl⟩
  refine ⟨s.afterDraw_core, s.afterDraw_draws, fun hd => ?_, fun hd => ?_, fun p hd => ?_,
    fun bs hd hn hb => ?_⟩
  · rw [s.afterDraw_drawn, if_neg hd]
  · rw [s.afterDraw_drawn, if_pos hd]
  · exact State.memRead_fail h1 h8 ho hl hd
  · exact State.memRead_pass h1 h8 ho hl hd (Memory.bytesAt_eq_some_iff.mpr ⟨hn, hb⟩)

/-- `OUT` and `OUT_LEN` do not depend on the draw taken before bytes are appended. -/
theorem afterDraw_appendOut_eq (s : State) (bs : List Byte) :
    s.afterDraw.appendOut bs = { s.afterDraw with
      out := s.out.appendAll bs, outLen := s.outLen + BitVec.ofNat 64 bs.length } := by
  rw [State.appendOut, State.afterDraw_out, State.afterDraw_outLen]

/-- A draw below the width leaves exactly as many bytes as it says. -/
theorem landedBytes_of_lt {p n : Nat} (h : p < n) : landedBytes p n = p :=
  Nat.min_eq_left (Nat.le_sub_one_of_lt h)

/-- Settles O47: all bytes, or the `landedBytes` of the draw. -/
theorem failedWriteLeavesAPrefix : Obligations.FailedWriteLeavesAPrefix := by
  intro s bs h1 h8
  refine ⟨fun hd => ?_, fun p hd => ?_⟩
  · rw [State.memWrite_pass h1 h8 hd, afterDraw_appendOut_eq]
  · have hk : landedBytes p bs.length < bs.length := landedBytes_lt h1
    refine ⟨landedBytes p bs.length, hk, landedBytes_of_lt, ?_⟩
    rw [State.memWrite_fail h1 h8 hd, afterDraw_appendOut_eq, List.length_take_of_le hk.le]

/-! ### Stops -/

section
variable {s : State}

theorem memRead_badWidth {a n : Nat} (h : n = 0 ∨ 8 < n) :
    s.memRead a n = .halt (.fault .accessWidth) := if_pos h

theorem memWrite_badWidth {bs : List Byte} (h : bs.length = 0 ∨ 8 < bs.length) :
    s.memWrite bs = .halt (.fault .accessWidth) := if_pos h

/-- One missing byte is enough for a read to be refused. -/
theorem memRead_missing_of_byteAt {a n j : Nat} (h1 : 1 ≤ n) (h8 : n ≤ 8) (hr : Readable s a n)
    (hd : s.nextDraw = .passes) (hj : j < n) (hm : s.inp.byteAt (a + j) = none) :
    s.memRead a n = .halt (.refused .inputMissing) := by
  refine State.memRead_missing h1 h8 hr.1 hr.2 hd (Option.eq_none_iff_forall_ne_some.mpr fun bs hbs => ?_)
  obtain ⟨hn, hb⟩ := Memory.bytesAt_eq_some_iff.mp hbs
  have hsome := hb j (hn ▸ hj)
  rw [hm] at hsome
  cases hsome

/-- The two operations that read the next input byte end as that read ends. -/
theorem exec_of_memRead_halt {r : Result} (hp : s.inPos ≠ s.inLen)
    (hr : s.memRead s.inPos.toNat 1 = .halt r) : exec .fsCount s = r ∧ exec .bseSym s = r := by
  constructor
  · show execFsCount s = r
    rw [execFsCount, if_neg hp, hr, Access.andThen_halt]
  · show execBseSym s = r
    rw [execBseSym, if_neg hp, hr, Access.andThen_halt]

theorem readsNext_closed (hp : s.inPos ≠ s.inLen) (ho : s.flags.inOpen = false) :
    exec .fsCount s = .fault .streamClosed ∧ exec .bseSym s = .fault .streamClosed :=
  exec_of_memRead_halt hp (State.memRead_closed (by decide) (by decide) ho)

theorem readsNext_pastEnd (hp : s.inLen < s.inPos) (ho : s.flags.inOpen = true) :
    exec .fsCount s = .fault .readPastEnd ∧ exec .bseSym s = .fault .readPastEnd :=
  exec_of_memRead_halt (BitVec.ne_of_lt hp).symm
    (State.memRead_pastEnd (by decide) (by decide) ho (Nat.lt_succ_of_lt hp))

theorem readsNext_missing (hp : s.inPos < s.inLen) (ho : s.flags.inOpen = true)
    (hd : s.nextDraw = .passes) (hm : s.inp.byteAt s.inPos.toNat = none) :
    exec .fsCount s = .refused .inputMissing ∧ exec .bseSym s = .refused .inputMissing :=
  exec_of_memRead_halt (BitVec.ne_of_lt hp)
    (memRead_missing_of_byteAt (by decide) (by decide) ⟨ho, hp⟩ hd Nat.zero_lt_one hm)

theorem tbMerge_tooFew (h : s.items < 2) : exec .tbMerge s = .fault .nothingToTake := if_pos h

theorem tbTake_nothing (hl : s.lrem = 0) (hq : ¬ s.qh < s.nt) :
    exec .tbTake s = .fault .nothingToTake := by
  show (takeItem s).finish = _
  rw [takeItem_nothing hl hq, Access.finish_halt]

theorem bsePut_badCount {v : Word} {l : Len}
    (h : 64 < s.free.toNat ∨ 64 < l.toNat ∨ 2 ^ l.toNat ≤ v.toNat) :
    exec (.bsePut v l) s = .fault .bitCount := by
  have hbad : 64 < s.free.toNat ∨ codeFits v l = false := by
    refine h.imp_right fun hv => Bool.eq_false_iff.mpr fun hfits => ?_
    obtain ⟨hl, hlt⟩ := codeFits_iff.mp hfits
    omega
  rw [exec_bsePut, putCode_bad hbad, Access.finish_halt]

theorem bseFinal_badCount (h : 64 < s.free.toNat) : exec .bseFinal s = .fault .bitCount := if_pos h

theorem bsdBit_noBit (h : s.nbits = 0) : exec .bsdBit s = .fault .noBitLeft := if_pos h

theorem bsdBit_fromLeaf {e : NodeEntry} (hn : s.nbits ≠ 0) (he : s.nodeAt s.cur = some e)
    (hk : e.kind = .leaf) : exec .bsdBit s = .fault .walkFromLeaf := by
  have hw : walkBit (s.dword.getLsbD 63) s.dropBit = .halt (.fault .walkFromLeaf) :=
    walkBit_fromLeaf (s := s.dropBit) he hk
  show execBsdBit s = _
  rw [execBsdBit, if_neg hn, hw, Access.andThen_halt]

/-- A value of `PHASE` outside R83's table selects no operation. -/
theorem decodePhase_unused : ∀ p : PhaseCode, p ∉ phaseTable.map Prod.fst → decodePhase p = none := by
  decide

theorem sequencer_unusedPhase (hb : s.status = .busy) (hp : s.phase ∉ phaseTable.map Prod.fst) :
    sequencer s = .stop .unusedPhase := by
  rw [sequencer, if_pos hb]
  simp only [decodePhase_unused s.phase hp]

theorem step_unusedPhase (hw : HostWaits s) (hb : s.status = .busy)
    (hp : s.phase ∉ phaseTable.map Prod.fst) : step s = .fault .unusedPhase := by
  rw [step_eq, fetch_waits hw, sequencer_unusedPhase (s := { s with host := tickHost s.host }) hb hp]
  rfl

end

/-- Settles O48: each stop from the failed precondition that it names. -/
theorem brokenPreconditionsStop : Obligations.BrokenPreconditionsStop :=
  ⟨fun _ _ _ => memRead_badWidth,
    fun _ _ => memWrite_badWidth,
    fun _ _ _ h1 h8 => ⟨State.memRead_closed h1 h8, State.memRead_pastEnd h1 h8,
      fun hr hd ⟨_, hj, hm⟩ => memRead_missing_of_byteAt h1 h8 hr hd hj hm⟩,
    fun _ => readsNext_closed,
    fun _ => readsNext_pastEnd,
    fun _ => readsNext_missing,
    fun _ => tbMerge_tooFew,
    fun _ => tbTake_nothing,
    fun _ _ _ => bsePut_badCount,
    fun _ => bseFinal_badCount,
    fun _ => bsdBit_noBit,
    fun _ _ => bsdBit_fromLeaf,
    fun _ => step_unusedPhase⟩

/-! ### Parameters and input -/

section
variable {i : Instr} {s t : State}

theorem Effect.cfg_host_offer (e : Effect i s t) :
    t.cfg = s.cfg ∧ t.host = s.host ∧ t.offer = s.offer := by
  cases e with
  | completes _ w | fails w => exact ⟨w.cfg, w.host, w.offer⟩
  | closes | compress | decompress | illegal | resets => exact ⟨rfl, rfl, rfl⟩

/-- Only a command start takes an input stream. -/
theorem Effect.inp (e : Effect i s t) (hs : starts i = false) : t.inp = s.inp := by
  cases e with
  | completes _ w | fails w => exact w.inp
  | closes | illegal | resets => rfl
  | compress | decompress => cases hs

/-- A command start while a command runs does nothing (R190). -/
theorem exec_start_busy (hs : starts i = true) (hb : s.status = .busy) : exec i s = .next s := by
  cases i with
  | compress | decompress => exact congrArg Host.Outcome.next (State.accept_busy hb)
  | _ => cases hs

end

/-- Settles O55: every effect but an accepted command start keeps the input. -/
theorem parametersAndInputAreFixed : Obligations.ParametersAndInputAreFixed := by
  intro i s t h
  have e := exec_effect h
  obtain ⟨hcfg, hhost, hoffer⟩ := e.cfg_host_offer
  refine ⟨hcfg, fun hkept => ?_, hhost, hoffer⟩
  cases hs : starts i with
  | false => exact e.inp hs
  | true =>
    have hb : s.status = .busy := hkept.resolve_left (hs ▸ nofun)
    cases h.symm.trans (exec_start_busy hs hb)
    rfl

end Sys2Proof.Proofs
end

section
/-! The bits of the stream on their way out of `ACC` and into `DWORD` (R63, R64): the flushed bytes give the
accumulator back, and `DWORD` is walked from its first bit on. -/

namespace Sys2Proof.Proofs

open Sys2Proof.Machine Sys2Proof.Claim

/-! ### Walking `DWORD` -/

/-- `BSD.BIT` uses up the first bit, however its walk goes on (R178). -/
theorem bsdBit_drops {s t : State} (h : execBsdBit s = .next t) :
    t.dword = s.dword <<< 1 ∧ t.nbits = s.nbits - 1 := by
  obtain ⟨-, hw | ⟨u, hw, rfl⟩ | hw⟩ := execBsdBit_cases h
  · rw [walkBit_frame hw]
    exact ⟨rfl, rfl⟩
  · rw [walkBit_frame hw]
    exact ⟨rfl, rfl⟩
  · obtain ⟨u, hu, rfl⟩ := walkBit_halt_frame hw
    rw [hu]
    exact ⟨rfl, rfl⟩

/-- A word moved up by one bit: its first bit is gone, a zero has come in last. -/
theorem codeBits_shiftLeft_one (d : Word) :
    codeBits 64 (d <<< 1).toNat = codeBits 63 d.toNat ++ [false] := by
  have hshift : codeBits 64 (d <<< 1).toNat = codeBits 64 (d.toNat * 2 ^ 1 + 0) := by
    rw [BitVec.toNat_shiftLeft, Nat.shiftLeft_eq, codeBits_mod, Nat.add_zero]
  rw [hshift, ← codeBits_append 63 d.toNat (Nat.two_pow_pos 1)]
  rfl

/-- Settles O43: one bit is dropped from the front; the zero that comes in last is not among the bits left. -/
theorem bitsAreWalkedFirstToLast : Obligations.BitsAreWalkedFirstToLast := by
  intro s t h1 h64 h
  obtain ⟨hdword, hnbits⟩ := bsdBit_drops h
  have hleft : t.nbits.toNat + 1 = s.nbits.toNat := by
    rw [hnbits, BitVec.toNat_sub_of_le h1]
    exact Nat.sub_add_cancel h1
  have hwalked : unwalkedBits t = (codeBits 63 s.dword.toNat).take t.nbits.toNat := by
    rw [unwalkedBits, hdword, codeBits_shiftLeft_one,
      List.take_append_of_le_length (by rw [codeBits_length]; omega)]
  rw [hwalked, unwalkedBits, ← hleft]
  rfl

/-! ### Flushing and fetching -/

/-- Where the free bits are zero, `ACC` is its pending bits and then zeros (R166). -/
theorem codeBits_acc {s : State} (hs : FreeBitsZero s) :
    codeBits 64 s.acc.toNat = pendingBits s ++ List.replicate s.free.toNat false := by
  obtain ⟨hf, hz⟩ := hs
  have hlow : codeBits s.free.toNat s.acc.toNat = List.replicate s.free.toNat false := by
    rw [← codeBits_mod, hz, codeBits_zero]
  have hsplit := codeBits_add (64 - s.free.toNat) s.free.toNat s.acc.toNat
  rw [Nat.sub_add_cancel hf, hlow] at hsplit
  rw [pendingBits, hsplit, List.take_left' (codeBits_length _ _)]

theorem pendingBits_length (s : State) : (pendingBits s).length = 64 - s.free.toNat := by
  rw [pendingBits, List.length_take, codeBits_length]
  omega

/-- The bits of the whole bytes that hold the pending bits. -/
theorem take_codeBits_acc {s : State} (hs : FreeBitsZero s) {m : Nat} (hm : 64 - s.free.toNat ≤ m)
    (h64 : m ≤ 64) :
    (codeBits 64 s.acc.toNat).take m =
      pendingBits s ++ List.replicate (m - (64 - s.free.toNat)) false := by
  have hlen := pendingBits_length s
  rw [codeBits_acc hs, List.take_append, List.take_of_length_le (hlen ▸ hm), hlen, List.take_replicate,
    Nat.min_eq_left (by omega)]

/-- The value of the ragged tail, moved back up, is the accumulator: the bits that the tail leaves out are
zero (R63). -/
theorem leftAlign_tail {acc : Word} {k : Nat} (hz : acc.toNat % 2 ^ (8 * (8 - k)) = 0) :
    leftAlign (acc >>> (8 * (8 - k))).toNat k = acc := by
  apply BitVec.eq_of_toNat_eq
  rw [leftAlign, BitVec.ofNat_toNat, BitVec.setWidth_eq, BitVec.toNat_shiftLeft, Nat.shiftLeft_eq,
    BitVec.toNat_ushiftRight, Nat.shiftRight_eq_div_pow,
    Nat.div_mul_cancel (Nat.dvd_of_mod_eq_zero hz), Nat.mod_eq_of_lt acc.isLt]

/-- `deser` undoes the serialisation of the ragged tail. -/
theorem deser_tailBytes (cfg : Config) (acc : Word) {k : Nat} (hk : k ≤ 8) :
    deser (tailBytes cfg acc k) cfg.wordOrder = (acc >>> (8 * (8 - k))).toNat := by
  refine deser_ser _ _ _ ?_
  rw [BitVec.toNat_ushiftRight, Nat.shiftRight_eq_div_pow]
  refine Nat.div_lt_of_lt_mul ?_
  rw [← Nat.pow_add, show 8 * (8 - k) + 8 * k = 64 by omega]
  exact acc.isLt

/-- `BSE.FINAL` with `k` bytes to write appends the ragged tail, where its write passes (R164). -/
theorem bseFinal_pass {s : State} {k : Nat} (hk : ceil8 (64 - s.free.toNat) = k) (h1 : 1 ≤ k)
    (h8 : k ≤ 8) (hf : s.free.toNat ≤ 64) (hd : s.nextDraw = .passes) :
    execBseFinal s =
      .next ((s.afterDraw.appendOut (tailBytes s.cfg s.acc k)).setPhase Phase.close) := by
  have hlen := tailBytes_length s.cfg s.acc k
  have hw := State.memWrite_pass (bs := tailBytes s.cfg s.acc k) (hlen.symm ▸ h1) (hlen.symm ▸ h8) hd
  rw [execBseFinal, if_neg (show ¬ Config.wordBits < s.free.toNat from Nat.not_lt.mpr hf), hk]
  simp only [if_neg (Nat.ne_of_gt h1), hw, Access.andThen_ok]

/-- The last record of a payload is fetched whole. -/
theorem bsdFetch_last {u : State} {k : Nat} {bs : List Byte} (hp : u.prem.toNat = k) (h1 : 1 ≤ k)
    (h8 : k ≤ 8) (hr : Readable u u.inPos.toNat k) (hd : u.nextDraw = .passes)
    (hb : u.inp.bytesAt u.inPos.toNat k = some bs) :
    execBsdFetch u = .next (u.afterDraw.loadWord (deser bs u.cfg.wordOrder) k) := by
  have hp0 : u.prem ≠ 0 := fun h => Nat.ne_of_lt h1 ((congrArg BitVec.toNat h).symm.trans hp)
  rw [execBsdFetch, if_neg hp0]
  simp only [hp, Nat.min_eq_right h8, State.memRead_pass h1 h8 hr.1 hr.2 hd hb, Access.andThen_ok,
    State.afterDraw_cfg]

/-- Settles O40: the tail goes out as bytes, comes back as its value, and is moved up to where it stood. -/
theorem flushedBytesFetchBack : Obligations.FlushedBytesFetchBack := by
  intro s t u hs hfree hd hwf ht k hcfg hprem hread hdu hbytes
  have hk : (64 - s.free.toNat + 7) / 8 = k := rfl
  clear_value k
  have h1 : 1 ≤ k := by omega
  have h8 : k ≤ 8 := by omega
  have hout : t.out = s.out.appendAll (tailBytes s.cfg s.acc k) := by
    cases ht.symm.trans (bseFinal_pass hk h1 h8 hfree.le hd)
    rw [State.setPhase_out, State.appendOut_out, State.afterDraw_out]
  have htail : u.inp.bytesAt u.inPos.toNat k = some (tailBytes s.cfg s.acc k) := by
    refine Memory.bytesAt_eq_some_iff.mpr ⟨tailBytes_length _ _ _, fun j hj => ?_⟩
    rw [hbytes j (by rwa [tailBytes_length] at hj), hout, Memory.byteAt_appendAll hwf, dif_pos hj]
  have hlow : s.acc.toNat % 2 ^ (8 * (8 - k)) = 0 :=
    Nat.mod_eq_zero_of_dvd ((Nat.pow_dvd_pow 2 (by omega)).trans (Nat.dvd_of_mod_eq_zero hs.2))
  have hword : leftAlign (deser (tailBytes s.cfg s.acc k) u.cfg.wordOrder) k = s.acc := by
    rw [hcfg, deser_tailBytes s.cfg s.acc h8, leftAlign_tail hlow]
  have hnbits : (BitVec.ofNat 7 (8 * k)).toNat = 8 * k := by
    rw [BitVec.toNat_ofNat]
    omega
  refine ⟨_, bsdFetch_last hprem h1 h8 hread hdu htail, hword, ?_⟩
  rw [unwalkedBits, State.loadWord, hword, hnbits]
  exact take_codeBits_acc hs (by omega) (by omega)

end Sys2Proof.Proofs
end

section
/-! Encode and decode (R80 to R92): each place's decoder and encoder undo each other, and from that the two
directions over all operations and all bit patterns. A field of a record is a number that fits in its bytes or
bits, so packing it into a register and taking it out again loses nothing. -/

namespace Sys2Proof.Proofs

open Sys2Proof.Machine Sys2Proof.Claim

/-! ### The command byte (R82) -/

/-- Under each row's fixed bits, its free bits are taken out again. -/
theorem decodeCmd_of_cmdByte {i : Instr} {c : Byte} (h : cmdByte i = some c) : decodeCmd c = i := by
  cases i with
  | nop | compress | decompress | illegal03 => cases h; rfl
  | illegal04 x | illegal08 x | illegal10 x | illegal20 x | illegal40 x | illegal80 x =>
    cases h
    revert x
    decide
  | _ => cases h

theorem cmdByte_decodeCmd : ∀ c : Byte, cmdByte (decodeCmd c) = some c := by decide

theorem isIllegal_decodeCmd : ∀ c : Byte, 3 ≤ c.toNat → isIllegal (decodeCmd c) = true := by decide

theorem encode_of_cmdByte {i : Instr} {c : Byte} (cfg : Config) (h : cmdByte i = some c) :
    WellFormed i = true ∧ encode cfg i = some (.cmd c) := by
  cases i <;> cases h <;> exact ⟨rfl, rfl⟩

/-! ### The phase codes (R83) -/

theorem decodePhase_of_phaseCode {i : Instr} {p : PhaseCode} (h : phaseCode i = some p) :
    decodePhase p = some i := by
  cases i <;> cases h <;> rfl

theorem encode_of_phaseCode {i : Instr} {p : PhaseCode} (cfg : Config) (h : phaseCode i = some p) :
    WellFormed i = true ∧ encode cfg i = some (.phase p) := by
  cases i <;> cases h <;> exact ⟨rfl, rfl⟩

theorem decode_phase_eq_ok {cfg : Config} {p : PhaseCode} {i : Instr} :
    decode cfg (.phase p) = .ok i ↔ decodePhase p = some i := by
  cases h : decodePhase p <;> simp [decode, h]

theorem decode_phase_eq_error {cfg : Config} {p : PhaseCode} (h : decodePhase p = none) :
    decode cfg (.phase p) = .error (.unusedPhase p) := by
  simp only [decode, h]

/-! ### The fields of the records (R85 to R89) -/

/-- A legal width fits in its register. -/
theorem fieldWidth_le {n : Nat} (h : n ∈ Config.fieldWidths) : 1 ≤ n ∧ n ≤ 8 := by
  rw [Config.fieldWidths_eq] at h
  revert n
  decide

theorem toNat_ofNat_length {w : Nat} {α : Type} {l : List α} (h : l.length < 2 ^ w) :
    (BitVec.ofNat w l.length).toNat = l.length := by
  rw [BitVec.toNat_ofNat, Nat.mod_eq_of_lt h]

/-- The value of at most 8 bytes, in a word. -/
theorem toNat_ofNat_deser {bs : List Byte} (o : ByteOrder) (h : bs.length ≤ 8) :
    (BitVec.ofNat 64 (deser bs o)).toNat = deser bs o := by
  rw [BitVec.toNat_ofNat, Nat.mod_eq_of_lt (deser_lt_word bs o h)]

/-- A word is its own serialisation, read back. -/
theorem ofNat_deser_ser {v : Word} {k : Nat} (o : ByteOrder) (h : fitsBytes v k = true) :
    BitVec.ofNat 64 (deser (ser v.toNat k o) o) = v := by
  rw [deser_ser _ _ _ (of_decide_eq_true h), BitVec.ofNat_toNat, BitVec.setWidth_eq]

theorem fitsBytes_deser {bs : List Byte} (o : ByteOrder) (h : bs.length ≤ 8) :
    fitsBytes (BitVec.ofNat 64 (deser bs o)) bs.length = true :=
  decide_eq_true ((toNat_ofNat_deser o h).trans_lt (deser_lt bs o))

theorem wellFormed_pair_iff {sym : Byte} {f : FieldWidth} {freq : Word} :
    WellFormed (.pair sym f freq) = true ↔
      f.toNat ∈ Config.fieldWidths ∧ fitsBytes freq f.toNat = true := by
  simp only [WellFormed, Bool.and_eq_true, decide_eq_true_iff]

theorem wellFormed_tail_iff {k : BitVec 4} {t : Word} :
    WellFormed (.tail k t) = true ↔
      (1 ≤ k.toNat ∧ k.toNat ≤ 7) ∧ fitsBytes t k.toNat = true := by
  simp only [WellFormed, Bool.and_eq_true, decide_eq_true_iff]

theorem wellFormed_code_iff {c : Word} {len : Len} :
    WellFormed (.code c len) = true ↔ len.toNat ≤ 64 ∧ c.toNat < 2 ^ len.toNat := codeFits_iff

/-! ### Encoding and decoding a record -/

section
variable {cfg : Config} {s : Byte} {bs : List Byte} {bits : List Bool}

theorem encode_pair (f : FieldWidth) (freq : Word) :
    encode cfg (.pair s f freq) = some (.pair (s :: ser freq.toNat f.toNat cfg.freqOrder)) := rfl

theorem encode_word (w : Word) :
    encode cfg (.word w) = some (.payload (ser w.toNat 8 cfg.wordOrder)) := rfl

theorem encode_tail (k : BitVec 4) (t : Word) :
    encode cfg (.tail k t) = some (.payload (ser t.toNat k.toNat cfg.wordOrder)) := rfl

theorem encode_code (c : Word) (len : Len) :
    encode cfg (.code c len) = some (.code (codeBits len.toNat c.toNat)) := rfl

theorem decode_pair (h : bs.length ∈ Config.fieldWidths) :
    decode cfg (.pair (s :: bs)) =
      .ok (.pair s (BitVec.ofNat 4 bs.length) (BitVec.ofNat 64 (deser bs cfg.freqOrder))) := if_pos h

theorem decode_word (h : bs.length = 8) :
    decode cfg (.payload bs) = .ok (.word (BitVec.ofNat 64 (deser bs cfg.wordOrder))) := if_pos h

theorem decode_tail (h1 : 1 ≤ bs.length) (h7 : bs.length ≤ 7) :
    decode cfg (.payload bs) =
      .ok (.tail (BitVec.ofNat 4 bs.length) (BitVec.ofNat 64 (deser bs cfg.wordOrder))) :=
  (if_neg (by omega)).trans (if_pos ⟨h1, h7⟩)

theorem decode_code (h : bits.length ≤ 64) :
    decode cfg (.code bits) =
      .ok (.code (BitVec.ofNat 64 (bitsValue bits)) (BitVec.ofNat 7 bits.length)) := if_pos h

/-- What a pair that decodes is. -/
theorem decode_pair_eq_ok {i : Instr} (h : decode cfg (.pair bs) = .ok i) :
    ∃ s cs, bs = s :: cs ∧ cs.length ∈ Config.fieldWidths := by
  cases bs with
  | nil => cases h
  | cons s cs =>
    refine ⟨s, cs, rfl, ?_⟩
    by_contra hn
    cases h.symm.trans (if_neg hn)

theorem decode_payload_eq_ok {i : Instr} (h : decode cfg (.payload bs) = .ok i) :
    bs.length = 8 ∨ (1 ≤ bs.length ∧ bs.length ≤ 7) := by
  by_contra hn
  rw [not_or] at hn
  cases h.symm.trans ((if_neg hn.1).trans (if_neg hn.2))

theorem decode_code_eq_ok {i : Instr} (h : decode cfg (.code bits) = .ok i) : bits.length ≤ 64 := by
  by_contra hn
  cases h.symm.trans (if_neg hn)

/-! ### What a record's bits decode to encodes back to them -/

theorem encode_decoded_pair (h : bs.length ∈ Config.fieldWidths) {i : Instr}
    (hi : decode cfg (.pair (s :: bs)) = .ok i) :
    WellFormed i = true ∧ encode cfg i = some (.pair (s :: bs)) := by
  cases hi.symm.trans (decode_pair h)
  have h8 := (fieldWidth_le h).2
  have hlen := toNat_ofNat_length (w := 4) (l := bs) (by omega)
  rw [wellFormed_pair_iff, hlen]
  refine ⟨⟨h, fitsBytes_deser _ h8⟩, ?_⟩
  rw [encode_pair, hlen, toNat_ofNat_deser _ h8, ser_deser]

theorem encode_decoded_word (h : bs.length = 8) {i : Instr}
    (hi : decode cfg (.payload bs) = .ok i) :
    WellFormed i = true ∧ encode cfg i = some (.payload bs) := by
  cases hi.symm.trans (decode_word h)
  refine ⟨rfl, ?_⟩
  rw [encode_word, toNat_ofNat_deser _ h.le, ← h, ser_deser]

theorem encode_decoded_tail (h1 : 1 ≤ bs.length) (h7 : bs.length ≤ 7) {i : Instr}
    (hi : decode cfg (.payload bs) = .ok i) :
    WellFormed i = true ∧ encode cfg i = some (.payload bs) := by
  cases hi.symm.trans (decode_tail h1 h7)
  have h8 : bs.length ≤ 8 := by omega
  have hlen := toNat_ofNat_length (w := 4) (l := bs) (by omega)
  rw [wellFormed_tail_iff, hlen]
  refine ⟨⟨⟨h1, h7⟩, fitsBytes_deser _ h8⟩, ?_⟩
  rw [encode_tail, hlen, toNat_ofNat_deser _ h8, ser_deser]

theorem encode_decoded_code (h : bits.length ≤ 64) {i : Instr}
    (hi : decode cfg (.code bits) = .ok i) :
    WellFormed i = true ∧ encode cfg i = some (.code bits) := by
  cases hi.symm.trans (decode_code h)
  have hlen := toNat_ofNat_length (w := 7) (l := bits) (by omega)
  have hlt := bitsValue_lt bits
  have hval : (BitVec.ofNat 64 (bitsValue bits)).toNat = bitsValue bits := by
    rw [BitVec.toNat_ofNat, Nat.mod_eq_of_lt (hlt.trans_le (Nat.pow_le_pow_right (by decide) h))]
  rw [wellFormed_code_iff, hlen, hval]
  refine ⟨⟨h, hlt⟩, ?_⟩
  rw [encode_code, hlen, hval, codeBits_bitsValue]

end

/-! ### The encoding of a record decodes to it -/

theorem decode_encoded_pair {cfg : Config} {sym : Byte} {f : FieldWidth} {freq : Word}
    (h : WellFormed (.pair sym f freq) = true) :
    decode cfg (.pair (sym :: ser freq.toNat f.toNat cfg.freqOrder)) = .ok (.pair sym f freq) := by
  obtain ⟨hf, hfit⟩ := wellFormed_pair_iff.mp h
  rw [decode_pair (by rwa [ser_length]), ser_length, ofNat_deser_ser _ hfit, BitVec.ofNat_toNat,
    BitVec.setWidth_eq]

theorem decode_encoded_word (cfg : Config) (w : Word) :
    decode cfg (.payload (ser w.toNat 8 cfg.wordOrder)) = .ok (.word w) := by
  rw [decode_word (ser_length _ _ _), ofNat_deser_ser _ (decide_eq_true w.isLt)]

theorem decode_encoded_tail {cfg : Config} {k : BitVec 4} {t : Word}
    (h : WellFormed (.tail k t) = true) :
    decode cfg (.payload (ser t.toNat k.toNat cfg.wordOrder)) = .ok (.tail k t) := by
  obtain ⟨⟨h1, h7⟩, hfit⟩ := wellFormed_tail_iff.mp h
  rw [decode_tail (by rwa [ser_length]) (by rwa [ser_length]), ser_length, ofNat_deser_ser _ hfit,
    BitVec.ofNat_toNat, BitVec.setWidth_eq]

theorem decode_encoded_code {cfg : Config} {c : Word} {len : Len}
    (h : WellFormed (.code c len) = true) :
    decode cfg (.code (codeBits len.toNat c.toNat)) = .ok (.code c len) := by
  obtain ⟨hlen, hlt⟩ := wellFormed_code_iff.mp h
  rw [decode_code (by rwa [codeBits_length]), codeBits_length, bitsValue_codeBits _ _ hlt]
  simp only [BitVec.ofNat_toNat, BitVec.setWidth_eq]

/-! ### The obligations -/

/-- Settles O1: a command byte, a phase code, or a record's own field round trip. -/
theorem everyEncodingDecodesBack : Obligations.EveryEncodingDecodesBack := by
  intro cfg i r hwf h
  cases i with
  | nop | compress | decompress | illegal03 | illegal04 | illegal08 | illegal10 | illegal20
  | illegal40 | illegal80 =>
    cases h
    exact congrArg Except.ok (decodeCmd_of_cmdByte rfl)
  | hdrCount | hdrWidth => cases h; rfl
  | pair => cases h; exact decode_encoded_pair hwf
  | word => cases h; exact decode_encoded_word cfg _
  | tail => cases h; exact decode_encoded_tail hwf
  | code => cases h; exact decode_encoded_code hwf
  | tbTake | bsePut | bsdLeaf | reset => cases h
  | _ =>
    cases h
    exact decode_phase_eq_ok.mpr (decodePhase_of_phaseCode rfl)

/-- Settles O2: each place's decoder is undone by the encoder. -/
theorem everyDecodingEncodesBack : Obligations.EveryDecodingEncodesBack := by
  intro cfg i r h
  cases r with
  | cmd c =>
    cases h
    exact encode_of_cmdByte cfg (cmdByte_decodeCmd c)
  | phase p => exact encode_of_phaseCode cfg (phaseCode_of_decodePhase p i (decode_phase_eq_ok.mp h))
  | hdrCount | hdrWidth => cases h; exact ⟨rfl, rfl⟩
  | pair bs =>
    obtain ⟨s, cs, rfl, hcs⟩ := decode_pair_eq_ok h
    exact encode_decoded_pair hcs h
  | payload bs =>
    rcases decode_payload_eq_ok h with h8 | ⟨h1, h7⟩
    · exact encode_decoded_word h8 h
    · exact encode_decoded_tail h1 h7 h
  | code bits => exact encode_decoded_code (decode_code_eq_ok h) h

/-- Settles O3: the table, and the codes outside it. -/
theorem phaseCodesSelectTheirOperations : Obligations.PhaseCodesSelectTheirOperations :=
  ⟨by decide, fun p hp _ => decode_phase_eq_error (decodePhase_unused p hp)⟩

/-- Settles O4: the three commands, and the bytes of the illegal rows. -/
theorem commandBytesDecode : Obligations.CommandBytesDecode :=
  ⟨rfl, rfl, rfl, fun c hc => ⟨isIllegal_decodeCmd c hc, cmdByte_decodeCmd c⟩⟩

end Sys2Proof.Proofs
end

section
/-! The container records as operations (R84 to R90, log 7), and the pair of the header on its way out and in
(R87, R148, R151): what a record's reader stores is what its writer appended. -/

namespace Sys2Proof.Proofs

open Sys2Proof.Machine Sys2Proof.Claim

@[simp] theorem nodeAt_afterDraw (s : State) (i : Idx) : s.afterDraw.nodeAt i = s.nodeAt i := by
  rw [State.nodeAt, State.afterDraw_node, State.nodeAt]

/-! ### A pair stored (R86, R151) -/

section
variable {s : State} {e : NodeEntry}

theorem storePair_nodeAt (sym : Byte) (freq : Word) (f : FieldWidth) (he : s.nodeAt s.hcI = some e) :
    (s.storePair sym freq f).nodeAt s.hcI = some (e.asLeaf sym freq) := by
  have h := s.nodeAt_setNode s.hcI s.hcI fun e => e.asLeaf sym freq
  rwa [if_pos rfl, he] at h

theorem storePair_nodeAt_of_ne (sym : Byte) (freq : Word) (f : FieldWidth) {i : Idx} (hi : i ≠ s.hcI) :
    (s.storePair sym freq f).nodeAt i = s.nodeAt i := by
  have h := s.nodeAt_setNode s.hcI i fun e => e.asLeaf sym freq
  rwa [if_neg hi] at h

theorem execPair_stores (sym : Byte) (f : FieldWidth) (freq : Word) (he : s.nodeAt s.hcI = some e) :
    execPair sym f freq s = .next (s.storePair sym freq f) := by
  simp only [execPair, he]

/-! ### A pair written and read (R148, R151) -/

/-- The frequency field of a pair, read back (R87). -/
theorem freqOfBytes_freqBytes (cfg : Config) {freq : Word} {f : FieldWidth}
    (h : freq.toNat < 2 ^ (8 * f.toNat)) : freqOfBytes cfg (freqBytes cfg freq f) = freq := by
  rw [freqOfBytes, freqBytes, Nat.mod_eq_of_lt h, deser_ser _ _ _ h, BitVec.ofNat_toNat,
    BitVec.setWidth_eq]

/-- A pair whose two accesses pass goes out whole (R148). -/
theorem execHcPutpair_pass (hc : s.hcI.toNat ≠ s.n.toNat) (he : s.nodeAt s.hcI = some e)
    (hf1 : 1 ≤ s.f.toNat) (hf8 : s.f.toNat ≤ 8) (hd : s.nextDraw = .passes)
    (hd' : s.afterDraw.nextDraw = .passes) :
    execHcPutpair s =
      .next { (s.afterDraw.appendOut [e.sym]).afterDraw.appendOut (freqBytes s.cfg e.freq s.f) with
        hcI := s.hcI + 1, phase := Phase.hcPutpair } := by
  have hsym := State.memWrite_pass (bs := [e.sym]) le_rfl (Nat.le_add_left 1 7) hd
  have hfreq := State.memWrite_pass (s := s.afterDraw.appendOut [e.sym])
    (bs := freqBytes s.cfg e.freq s.f) (by rwa [freqBytes_length]) (by rwa [freqBytes_length])
    ((State.nextDraw_appendOut _ _).trans hd')
  rw [execHcPutpair, if_neg hc]
  simp only [he, hsym, Access.andThen_ok, State.appendOut_cfg, State.afterDraw_cfg, State.appendOut_f,
    State.afterDraw_f, hfreq, State.appendOut_hcI, State.afterDraw_hcI]

/-- A pair whose two accesses pass is stored (R151). -/
theorem execHcGetpair_pass {sym : Byte} {bs : List Byte} (hc : s.hcI.toNat ≠ s.n.toNat)
    (he : s.nodeAt s.hcI = some e) (hf1 : 1 ≤ s.f.toNat) (hf8 : s.f.toNat ≤ 8)
    (hr : Readable s s.inPos.toNat (1 + s.f.toNat)) (hd : s.nextDraw = .passes)
    (hd' : s.afterDraw.nextDraw = .passes)
    (hsym : s.inp.byteAt s.inPos.toNat = some sym)
    (hbs : s.inp.bytesAt (s.inPos.toNat + 1) s.f.toNat = some bs) :
    execHcGetpair s = .next (s.afterDraw.afterDraw.storePair sym (freqOfBytes s.cfg bs) s.f) := by
  obtain ⟨ho, hl⟩ := hr
  have hread := State.memRead_pass le_rfl (by decide) ho (by omega) hd
    (Memory.bytesAt_one_eq_some.mpr ⟨sym, hsym, rfl⟩)
  have hread' := State.memRead_pass (s := s.afterDraw) (a := s.inPos.toNat + 1) hf1 hf8
    (by rwa [State.afterDraw_flags]) (by rw [State.afterDraw_inLen]; omega) hd'
    (by rwa [State.afterDraw_inp])
  rw [execHcGetpair, if_neg hc]
  simp only [hread, Access.andThen_ok, State.afterDraw_inPos, State.afterDraw_f, hread', nodeAt_afterDraw,
    State.afterDraw_hcI, State.afterDraw_cfg, he, List.headD_cons]

end

/-- A byte and the bytes after it, copied from where they were appended. -/
theorem bytes_of_copied {m c : Memory} {a : Nat} {b : Byte} {bs : List Byte}
    (hwf : m.wf = true)
    (h : ∀ j < 1 + bs.length, c.byteAt (a + j) = (m.appendAll (b :: bs)).byteAt (m.endOff + j)) :
    c.byteAt a = some b ∧ c.bytesAt (a + 1) bs.length = some bs := by
  have hcopy : ∀ j (hj : j < (b :: bs).length), c.byteAt (a + j) = some (b :: bs)[j] := by
    intro j hj
    rw [h j (by rw [List.length_cons] at hj; omega), Memory.byteAt_appendAll hwf, dif_pos hj]
  refine ⟨hcopy 0 (Nat.succ_pos _), Memory.bytesAt_eq_some_iff.mpr ⟨rfl, fun j hj => ?_⟩⟩
  rw [Nat.add_right_comm, Nat.add_assoc]
  exact hcopy (j + 1) (Nat.succ_lt_succ hj)

/-- Settles O31: the bytes that were appended are read, and the field gives the frequency back. -/
theorem writtenPairReadsBack : Obligations.WrittenPairReadsBack := by
  intro s t u e hc he hf hfit hd hd' hwf ht hcfg huf huc hnode hr hdu hdu' hbytes
  obtain ⟨hf1, hf8⟩ := fieldWidth_le hf
  obtain ⟨d, hnode⟩ := Option.isSome_iff_exists.mp hnode
  have hout : t.out = s.out.appendAll (e.sym :: freqBytes s.cfg e.freq s.f) := by
    cases ht.symm.trans (execHcPutpair_pass hc he hf1 hf8 hd hd')
    rw [State.appendOut_out, State.afterDraw_out, State.appendOut_out, State.afterDraw_out]
    rfl
  have hcopied := bytes_of_copied (c := u.inp) (a := u.inPos.toNat) hwf fun j hj => by
    rw [hbytes j (by rwa [freqBytes_length] at hj), hout]
  rw [freqBytes_length] at hcopied
  obtain ⟨hsym, hbs⟩ := hcopied
  have hget := execHcGetpair_pass huc hnode (huf ▸ hf1) (huf ▸ hf8) hr hdu hdu' hsym (huf ▸ hbs)
  rw [hcfg, huf, freqOfBytes_freqBytes s.cfg hfit] at hget
  have hstored := storePair_nodeAt (s := u.afterDraw.afterDraw) e.sym e.freq s.f (e := d)
    (by simpa using hnode)
  refine ⟨_, d.asLeaf e.sym e.freq, hget, ?_, rfl, rfl, rfl, rfl⟩
  simpa using hstored

/-! ### A record of the payload taken up (R88, R177) -/

/-- A value of `k` bytes, moved up to the top of the word. -/
theorem leftAlign_toNat {v : Word} {k : Nat} (hk : k ≤ 8) (hv : v.toNat < 2 ^ (8 * k)) :
    (leftAlign v.toNat k).toNat = v.toNat * 2 ^ (8 * (8 - k)) := by
  rw [leftAlign, BitVec.ofNat_toNat, BitVec.setWidth_eq, toNat_shiftLeft_of_lt hv (by omega)]

/-- A whole word stands as it is. -/
theorem leftAlign_word (w : Word) : leftAlign w.toNat 8 = w :=
  BitVec.eq_of_toNat_eq ((leftAlign_toNat le_rfl w.isLt).trans (Nat.mul_one _))

/-- Where the payload holds the record, `PREM` falls by its bytes. -/
theorem loadWord_prem_toNat {s : State} (v : Nat) {k : Nat} (h : k ≤ s.prem.toNat) :
    (s.loadWord v k).prem.toNat = s.prem.toNat - k ∧ (s.loadWord v k).unstated = s.unstated :=
  ⟨State.setPrem_prem_toNat h, State.setPrem_unstated h⟩

theorem loadWord_eq (s : State) {v k : Nat} {d p : Word} (hd : leftAlign v k = d)
    (hp : BitVec.ofNat 64 k = p) :
    s.loadWord v k = { s with
      dword := d, nbits := BitVec.ofNat 7 (8 * k), inPos := s.inPos + p
      prem := (s.loadWord v k).prem, unstated := (s.loadWord v k).unstated, phase := 42 } := by
  subst hd hp
  rfl

/-! ### The header bytes (R84, R85, R150) -/

section
variable {s : State} {n f : Byte}

theorem hdrCount_zero (h : n = 0) : exec (.hdrCount n) s =
    .next (State.raise { s with inPos := s.inPos + 1 } .malformedHeader 1) := if_pos h

theorem hdrCount_sets (h : n ≠ 0) : exec (.hdrCount n) s =
    .next { s with inPos := s.inPos + 1, n := n } := if_neg h

theorem hdrWidth_illegal (hf : f.toNat ∉ Config.fieldWidths) : exec (.hdrWidth f) s =
    .next (State.raise { s with inPos := s.inPos + 1 } .malformedHeader 2) := if_pos hf

theorem hdrWidth_short (hf : f.toNat ∈ Config.fieldWidths)
    (hl : s.inLen.toNat < headerLen s.n.toNat f.toNat) : exec (.hdrWidth f) s =
    .next (State.raise { s with inPos := s.inPos + 1 } .malformedHeader 3) :=
  (if_neg (not_not.mpr hf)).trans (if_pos hl)

theorem hdrWidth_sets (hf : f.toNat ∈ Config.fieldWidths)
    (hl : headerLen s.n.toNat f.toNat ≤ s.inLen.toNat) : exec (.hdrWidth f) s =
    .next { s with inPos := s.inPos + 1, f := f.setWidth 4, hcI := 0, phase := 28 } :=
  (if_neg (not_not.mpr hf)).trans (if_neg (Nat.not_lt.mpr hl))

end

/-- Settles O44: the tests of the header bytes, the leaf that a pair stores, and what `loadWord` leaves for a word
and a tail. -/
theorem recordsActAsTheirReaders : Obligations.RecordsActAsTheirReaders := by
  refine ⟨fun s n => ⟨hdrCount_zero, hdrCount_sets⟩,
    fun s f => ⟨hdrWidth_illegal, hdrWidth_short, hdrWidth_sets⟩, ?_, ?_, ?_⟩
  · intro s sym f freq e he
    exact ⟨_, execPair_stores sym f freq he, storePair_nodeAt sym freq f he,
      fun i hi => storePair_nodeAt_of_ne sym freq f hi, rfl⟩
  · intro s w
    exact ⟨_, rfl, loadWord_prem_toNat w.toNat, loadWord_eq s (leftAlign_word w) rfl⟩
  · intro s k v h1 h7 hv
    refine ⟨_, rfl, leftAlign_toNat (by omega) hv, ?_, loadWord_prem_toNat v.toNat,
      loadWord_eq s rfl (BitVec.ofNat_toNat 64 k)⟩
    rw [State.loadWord_nbits, BitVec.toNat_ofNat]
    omega

/-! ### A code walked (R89, R90) -/

/-- One branch of a descent. -/
theorem descend_cons_eq_some {v : Vector NodeEntry 509} {i l : Idx} {b : Bool} {bs : List Bool} :
    descend v i (b :: bs) = some l ↔
      ∃ e, v[i.toNat]? = some e ∧ e.kind = .internal ∧
        descend v (if b then e.right else e.left) bs = some l := by
  rw [descend]
  cases v[i.toNat]? <;> simp

/-- Bits that lead to a leaf act as `BSD.LEAF` does there: every edge before the last only moves `CUR`. -/
theorem walkBits_of_descend {b : Bool} {bs : List Bool} {s t : State} {l : Idx} {d : NodeEntry}
    {stop : Bool} (hl : descend s.node s.cur (b :: bs) = some l) (hd : s.nodeAt l = some d)
    (hk : d.kind = .leaf) (ht : emitLeaf { s with cur := l } = .ok stop t) :
    walkBits (b :: bs) s = .ok () t := by
  obtain ⟨e, he, hek, hrest⟩ := descend_cons_eq_some.mp hl
  induction bs generalizing b s e with
  | nil =>
    cases hrest
    rw [walkBits, walkBit_leaf he hek hd hk, ht]
    cases stop <;> rfl
  | cons b' bs ih =>
    obtain ⟨e', he', hek', hrest'⟩ := descend_cons_eq_some.mp hrest
    rw [walkBits, walkBit_inner he hek he' hek']
    exact ih (s := { s with cur := if b then e.right else e.left }) hrest hd ht e' he' hek' hrest'

/-- `BSD.LEAF` on the sentinel, or with an access that passes, goes on or stops. -/
theorem emitLeaf_completes {s : State} {d : NodeEntry} (hd : s.nodeAt s.cur = some d)
    (h : d.sym = 0 ∨ s.nextDraw = .passes) : ∃ stop t, emitLeaf s = .ok stop t := by
  by_cases h0 : d.sym = 0
  · exact ⟨_, _, emitLeaf_sentinel hd h0⟩
  · exact ⟨_, _, emitLeaf_pass hd h0 (h.resolve_left h0)⟩

/-- Settles O45: the bits of a code that is not empty are walked to the leaf, where both act alike. -/
theorem codeRecordActsAsItsLeaf : Obligations.CodeRecordActsAsItsLeaf := by
  refine ⟨fun s c => rfl, fun s c len l d h1 hl hd hk hpass => ?_⟩
  obtain ⟨stop, t, ht⟩ := emitLeaf_completes (s := { s with cur := l }) hd hpass
  obtain ⟨b, bs, hbits⟩ : ∃ b bs, codeBits len.toNat c.toNat = b :: bs :=
    List.exists_cons_of_length_pos (by rwa [codeBits_length])
  rw [hbits] at hl
  refine ⟨t, ?_, ?_⟩
  · show (emitLeaf { s with cur := l }).andThen _ = _
    rw [ht, Access.andThen_ok]
  · show (walkBits (codeBits len.toNat c.toNat) s).finish = _
    rw [hbits, walkBits_of_descend hl hd hk ht, Access.finish_ok]

end Sys2Proof.Proofs
end

section
/-! The FrequencyScanner (R110 to R113): each operation's answer on each of its paths, with the counters and
the entries of the node store that it writes. -/

namespace Sys2Proof.Proofs

open Sys2Proof.Machine Sys2Proof.Claim

/-- Every symbol has a counter, so to count it is to write that counter (R33). -/
theorem countSym_eq (s : State) {b : Byte} (h : b.toNat < 128) :
    s.countSym b = { s with cnt := s.cnt.set b.toNat (s.cnt[b.toNat] + 1) } := by
  have hset : s.cnt.setIfInBounds b.toNat (s.cnt[b.toNat] + 1) =
      s.cnt.set b.toNat (s.cnt[b.toNat] + 1) :=
    Vector.ext fun i _ => by rw [Vector.getElem_setIfInBounds, Vector.getElem_set]
  rw [State.countSym, Vector.getElem?_eq_getElem h, Option.getD_some, hset]

/-- Settles O14: the counters are all replaced, and the sentinel's is written. -/
theorem countersStartAtZeroAndTheSentinelIsAdded :
    Obligations.CountersStartAtZeroAndTheSentinelIsAdded := by
  refine fun s => ⟨⟨_, rfl, fun i h => Vector.getElem_replicate h, rfl⟩, ?_⟩
  show Host.Outcome.next ((s.countSym Config.sentinel).setPhase Phase.fsCollect) = _
  rw [countSym_eq s (by decide)]
  rfl

/-! ### `FS.COUNT` (R111) -/

section
variable {s : State}

theorem fsCount_atEnd (hp : s.inPos = s.inLen) : exec .fsCount s = .next { s with phase := 3 } :=
  if_pos hp

theorem fsCount_fail (hp : s.inPos ≠ s.inLen) (hr : Readable s s.inPos.toNat 1) {p : Nat}
    (hd : s.nextDraw = .fails p) : exec .fsCount s = .next (s.afterDraw.raise .ioError 0) :=
  (exec_of_memRead_halt hp (State.memRead_fail le_rfl (by decide) hr.1 hr.2 hd)).1

/-- With the byte read, only the range test is left. -/
theorem fsCount_pass (hp : s.inPos ≠ s.inLen) (hr : Readable s s.inPos.toNat 1) {b : Byte}
    (hd : s.nextDraw = .passes) (hb : s.inp.byteAt s.inPos.toNat = some b) :
    exec .fsCount s =
      if 127 < b.toNat then .next (s.afterDraw.raise .symbolOutOfRange s.inPos)
      else .next { s.afterDraw.countSym b with inPos := s.inPos + 1, phase := 2 } := by
  have hread := State.memRead_pass le_rfl (by decide) hr.1 hr.2 hd
    (Memory.bytesAt_one_eq_some.mpr ⟨b, hb, rfl⟩)
  show execFsCount s = _
  rw [execFsCount, if_neg hp, hread, Access.andThen_ok, State.afterDraw_inPos]
  rfl

end

/-- Settles O15: the end of the input, the draw, and the range test. -/
theorem scanCountsEachByte : Obligations.ScanCountsEachByte := by
  refine fun s => ⟨fsCount_atEnd, fun hp hr => ⟨fun b hd hb => ⟨fun h => ?_, fun h => ?_⟩,
    fun p hd => fsCount_fail hp hr hd⟩⟩
  · rw [fsCount_pass hp hr hd hb, if_neg (by omega), countSym_eq _ h]
    simp only [State.afterDraw_cnt]
  · rw [fsCount_pass hp hr hd hb, if_pos h]

/-! ### `FS.COLLECT` (R113) -/

/-- The symbols whose counter is not zero, ascending. -/
def countedSyms (cnt : Vector Word 128) : List Nat :=
  (List.range 128).filter fun i => cnt[i]? ≠ some 0

section
variable {cnt : Vector Word 128}

/-- The leaf list of the scan has one leaf per counted symbol. -/
theorem scanLeaves_eq_map_countedSyms :
    scanLeaves cnt = (countedSyms cnt).map fun i => (BitVec.ofNat 8 i, (cnt[i]?).getD 0) :=
  scanLeaves_eq cnt

theorem scanLeaves_eq_nil_iff : scanLeaves cnt = [] ↔ countedSyms cnt = [] := by
  rw [scanLeaves_eq_map_countedSyms, List.map_eq_nil_iff]

theorem scanLeaves_length : (scanLeaves cnt).length = (countedSyms cnt).length := by
  rw [scanLeaves_eq_map_countedSyms, List.length_map]

/-- There are at most as many counted symbols as symbols, so each has an entry in the node store. -/
theorem lt_128_of_countedSyms {j sym : Nat} (h : (countedSyms cnt)[j]? = some sym) :
    j < 128 ∧ sym < 128 := by
  have hle := scanLeaves_length_le cnt
  rw [scanLeaves_length] at hle
  obtain ⟨hj, rfl⟩ := List.getElem?_eq_some_iff.mp h
  exact ⟨by omega, List.mem_range.mp (List.mem_filter.mp (List.getElem_mem hj)).1⟩

/-- Entry `j` becomes the leaf of the `j`-th counted symbol. -/
theorem placeLeaves_scan_of_counted (v : Vector NodeEntry 509) {j sym : Nat}
    (h : (countedSyms cnt)[j]? = some sym) :
    (placeLeaves (scanLeaves cnt) 0 v)[j]? =
      v[j]?.map fun e => e.asLeaf (BitVec.ofNat 8 sym) ((cnt[sym]?).getD 0) := by
  rw [placeLeaves_getElem?, if_neg (Nat.not_lt_zero j), Nat.sub_zero, scanLeaves_eq_map_countedSyms,
    List.getElem?_map, h]
  rfl

/-- Entries behind the collected leaves stay. -/
theorem placeLeaves_scan_behind (v : Vector NodeEntry 509) {j : Nat}
    (h : (countedSyms cnt).length ≤ j) : (placeLeaves (scanLeaves cnt) 0 v)[j]? = v[j]? := by
  have hnone : (scanLeaves cnt)[j]? = none := List.getElem?_eq_none (scanLeaves_length.trans_le h)
  rw [placeLeaves_getElem?, if_neg (Nat.not_lt_zero j), Nat.sub_zero, hnone]

end

/-- Both outcomes leave the leaves in the node store: without a counted symbol there are none. -/
theorem execFsCollect_node {s t : State} (h : execFsCollect s = .next t) :
    t.node = placeLeaves (scanLeaves s.cnt) 0 s.node := by
  rcases execFsCollect_cases h with ⟨h0, rfl⟩ | ⟨-, -, rfl⟩
  · rw [h0, State.raise_node, placeLeaves]
  · rfl

/-- Settles O16: the entries from the leaf list, the outcome from whether it is empty. -/
theorem collectListsTheCountedSymbols : Obligations.CollectListsTheCountedSymbols := by
  intro s
  obtain ⟨t, ht⟩ : ∃ t, execFsCollect s = .next t := ⟨_, rfl⟩
  have hnode := execFsCollect_node ht
  refine ⟨t, ht, fun j sym hj => ?_, fun j hj => ?_, fun h0 => ?_, fun h0 => ?_⟩
  · obtain ⟨hj128, hsym⟩ := lt_128_of_countedSyms hj
    have he : s.node[j]? = some s.node[j] := Vector.getElem?_eq_getElem (by omega)
    have hleaf := placeLeaves_scan_of_counted s.node hj
    rw [← hnode, he, Vector.getElem?_eq_getElem hsym] at hleaf
    exact ⟨_, _, he, hleaf, (Vector.getElem?_eq_getElem hsym).symm, rfl⟩
  · rw [hnode]
    exact placeLeaves_scan_behind s.node hj
  · rcases execFsCollect_cases ht with ⟨-, rfl⟩ | ⟨h, -, -⟩
    · rfl
    · exact absurd (scanLeaves_eq_nil_iff.mpr h0) h
  · rcases execFsCollect_cases ht with ⟨h, -⟩ | ⟨-, -, rfl⟩
    · exact absurd (scanLeaves_eq_nil_iff.mp h) h0
    · rw [scanLeaves_length]
      rfl

end Sys2Proof.Proofs
end

section
/-! The TreeBuilder (R120 to R127): the sorted leaves, the merge from its start to its last node, and the
root. -/

namespace Sys2Proof.Proofs

open Sys2Proof.Machine

/-! ### `TB.SORT` (R121, R122) -/

/-- R122's order in the words of the rule: unsigned `freq` first, then signed `sym`. -/
theorem before_iff (x y : NodeEntry) :
    before x y = true ↔ y.freq < x.freq ∨ (y.freq = x.freq ∧ x.sym.toInt < y.sym.toInt) := by
  rw [before_eq_true_iff, s8_eq_toInt, s8_eq_toInt, BitVec.lt_def, eq_comm (a := y.freq),
    BitVec.toNat_inj]

/-- The order does not tell apart two entries equal in `freq` and `sym`. -/
theorem before_eq_false_of_same {x y : NodeEntry} (hf : x.freq = y.freq) (hs : x.sym = y.sym) :
    before x y = false := by
  rw [Bool.eq_false_iff, Ne, before_iff, hf, hs]
  rintro (h | ⟨-, h⟩)
  · exact absurd h (BitVec.lt_irrefl _)
  · exact absurd h (Int.lt_irrefl _)

/-- The first `N` entries become the sorted leaves, the entries behind them stay. -/
theorem execTbSort_leaves {s t : State} (h : execTbSort s = .next t) :
    t.leaves = sortEntries s.leaves ∧ ∀ i, s.n.toNat ≤ i → t.node[i]? = s.node[i]? := by
  obtain rfl := execTbSort_cases h
  exact placeEntries_leaves s _ ((sortEntries_length _).trans s.leaves_length)

/-- Settles O17: the leaves become their insertion sort, which is a permutation, ordered and stable. -/
theorem sortIsTheStableDescendingSort : Obligations.SortIsTheStableDescendingSort := by
  intro s
  obtain ⟨t, ht⟩ : ∃ t, execTbSort s = .next t := ⟨_, rfl⟩
  obtain ⟨hleaves, hbehind⟩ := execTbSort_leaves ht
  refine ⟨t, ht, ?_, ?_, ?_, fun freq sym => ?_, hbehind⟩
  · obtain rfl := execTbSort_cases ht
    rfl
  · rw [hleaves]
    exact sortEntries_perm _
  · rw [hleaves]
    refine (sortEntries_pairwise _).imp fun {x y} hxy => ?_
    rwa [Bool.eq_false_iff, Ne, before_iff] at hxy
  · rw [hleaves]
    refine sortEntries_filter _ _ fun x y hx hy => ?_
    simp only [Bool.and_eq_true, beq_iff_eq] at hx hy
    obtain ⟨hxf, hxs⟩ := hx
    obtain ⟨hyf, hys⟩ := hy
    exact before_eq_false_of_same (hyf.trans hxf.symm) (hys.trans hxs.symm)

/-! ### `TB.INIT` (R123) -/

/-- Settles O18: an index holds `N` whole, and the phase is the rule's test. -/
theorem mergeStartsWithAllLeaves : Obligations.MergeStartsWithAllLeaves := by
  intro s
  have hn : (s.n.setWidth 9).toNat = s.n.toNat := BitVec.toNat_setWidth_of_le (by decide)
  exact ⟨_, rfl, hn, hn, hn, fun h => if_pos h, fun h => if_neg (Nat.not_le_of_lt h), rfl⟩

/-! ### `TB.TAKE` (R124) -/

theorem exec_tbTake {s t : State} (h : takeItem s = .ok () t) : exec .tbTake s = .next t := by
  show (takeItem s).finish = _
  rw [h, Access.finish_ok]

/-- Settles O19: the only item there is, or the lighter of two. -/
theorem takeIsTheLighterItem : Obligations.TakeIsTheLighterItem := by
  refine fun s => ⟨fun hl hq => exec_tbTake (takeItem_leaf_only hl hq),
    fun hl hq => exec_tbTake (takeItem_pending_only hl hq), fun x y hl hq hx hy => ?_⟩
  have htake := takeItem_compare hl hq hx hy
  refine ⟨fun hle => ?_, fun hlt => ?_⟩
  · rw [if_pos (BitVec.le_def.mpr hle)] at htake
    exact exec_tbTake htake
  · rw [if_neg (BitVec.not_le.mpr (BitVec.lt_def.mpr hlt))] at htake
    exact exec_tbTake htake

/-! ### The cursors of the merge (R124, R125) -/

/-- The untaken leaves lie below the pending subtrees, these below `NT`, and `NT` in the node store. -/
structure CursorsOk (s : State) : Prop where
  leaves : s.lrem.toNat ≤ s.qh.toNat
  pending : s.qh.toNat ≤ s.nt.toNat
  store : s.nt.toNat < 509

/-- One `TB.TAKE` by its cursors: the item's index is the one that a cursor has passed. -/
structure Takes (s t : State) : Prop where
  frame : t = { s with sel := t.sel, lrem := t.lrem, qh := t.qh }
  cursors : CursorsOk t
  lrem_le : t.lrem.toNat ≤ s.lrem.toNat
  qh_le : s.qh.toNat ≤ t.qh.toNat
  items : t.items + 1 = s.items
  passed : (t.lrem.toNat ≤ t.sel.toNat ∧ t.sel.toNat < s.lrem.toNat) ∨
    (s.qh.toNat ≤ t.sel.toNat ∧ t.sel.toNat < t.qh.toNat)

section
variable {s s1 s2 t : State}

/-- With two items or more, at most `2N-2` entries are in use, so there is room for one more (R126). -/
theorem cursorsOk_of_mergeOk (h : MergeOk s) (hi : 2 ≤ s.items) : CursorsOk s := by
  obtain ⟨-, hleft, ⟨hqueue, hpending⟩, hcount, -⟩ := h
  have hn := s.n.isLt
  rw [State.items] at hi
  exact ⟨by omega, hpending, by omega⟩

theorem takes_takeLeaf (hc : CursorsOk s) (hl : s.lrem ≠ 0) : Takes s s.takeLeaf := by
  obtain ⟨hleaves, hpending, hstore⟩ := hc
  have hlrem : (s.lrem - 1).toNat + 1 = s.lrem.toNat := by bv_omega
  refine ⟨rfl, ⟨?_, hpending, hstore⟩, ?_, le_rfl, ?_, .inl ⟨le_rfl, ?_⟩⟩
  all_goals
    simp only [State.items, State.takeLeaf_lrem, State.takeLeaf_qh, State.takeLeaf_nt,
      State.takeLeaf_sel]
    omega

theorem takes_takePending (hc : CursorsOk s) (hq : s.qh < s.nt) : Takes s s.takePending := by
  obtain ⟨hleaves, hpending, hstore⟩ := hc
  have hlt : s.qh.toNat < s.nt.toNat := BitVec.lt_def.mp hq
  have hqh : (s.qh + 1).toNat = s.qh.toNat + 1 := by bv_omega
  refine ⟨rfl, ⟨?_, ?_, hstore⟩, le_rfl, ?_, ?_, .inr ⟨le_rfl, ?_⟩⟩
  all_goals
    simp only [State.items, State.takePending_lrem, State.takePending_qh, State.takePending_nt,
      State.takePending_sel]
    omega

/-- Where there is an item, one is taken. -/
theorem exists_takes (hc : CursorsOk s) (hi : 1 ≤ s.items) :
    ∃ t, takeItem s = .ok () t ∧ Takes s t := by
  have hin (i : Idx) (h : i.toNat < 509) : (s.nodeAt i).isSome := (s.nodeAt_isSome i).mpr h
  obtain ⟨t, ht⟩ : ∃ t, takeItem s = .ok () t := by
    obtain ⟨hleaves, hpending, hstore⟩ := hc
    rw [State.items] at hi
    refine takeItem_total ?_ (fun hl => hin _ ?_) fun hq => hin _ ?_ <;> bv_omega
  refine ⟨t, ht, ?_⟩
  rcases takeItem_eq_ok ht with ⟨rfl, hl⟩ | ⟨rfl, hq⟩
  · exact takes_takeLeaf hc hl
  · exact takes_takePending hc hq

theorem Takes.nt (h : Takes s t) : t.nt = s.nt := by
  rw [h.frame]

theorem Takes.nodeAt (h : Takes s t) (i : Idx) : t.nodeAt i = s.nodeAt i := by
  rw [h.frame]
  rfl

/-- An item taken is an entry below `NT`. -/
theorem Takes.sel_lt (h : Takes s t) (hc : CursorsOk s) : t.sel < s.nt := by
  have hleaves := hc.leaves
  have hpending := h.cursors.pending
  have hqh := h.qh_le
  have hpassed := h.passed
  rw [h.nt] at hpending
  rw [BitVec.lt_def]
  omega

theorem Takes.exists_item (h : Takes s t) (hc : CursorsOk s) : ∃ x, s.nodeAt t.sel = some x :=
  s.exists_nodeAt (Nat.lt_trans (BitVec.lt_def.mp (h.sel_lt hc)) hc.store)

/-- An item taken is not taken again: the cursors have passed it. -/
theorem Takes.sel_ne (h1 : Takes s s1) (h2 : Takes s1 s2) (hc : CursorsOk s) : s1.sel ≠ s2.sel := by
  obtain ⟨hleaves, -, -⟩ := hc
  have hpassed1 := h1.passed
  have hpassed2 := h2.passed
  have hlrem := h1.lrem_le
  have hqh := h1.qh_le
  intro heq
  rw [heq] at hpassed1
  omega

/-! ### The join (R125) -/

/-- Three entries are written, the two items' and the new node's. -/
theorem nodeAt_afterJoin_join {a b : Idx} (x y : Word) (hab : a ≠ b) (ha : a ≠ s.nt) (hb : b ≠ s.nt)
    (i : Idx) :
    (s.join a b x y).afterJoin.nodeAt i =
      if i = s.nt then (s.nodeAt i).map fun e => e.asInternal (x + y) a b
      else if i = a ∨ i = b then (s.nodeAt i).map fun e => { e with parent := s.nt }
      else s.nodeAt i := by
  show (s.join a b x y).nodeAt i = _
  simp only [State.join, State.nodeAt_setNode]
  by_cases hnt : i = s.nt
  · subst hnt
    simp [hb.symm, ha.symm]
  · by_cases hia : i = a
    · subst hia
      simp [hab, hnt]
    · by_cases hib : i = b
      · subst hib
        simp [hab.symm, hnt]
      · simp [hnt, hia, hib]

/-- Two takes in a row yield two entries, neither of them the new node's. -/
theorem nodeAt_afterJoin_of_takes (h1 : Takes s s1) (h2 : Takes s1 s2) (hc : CursorsOk s) (x y : Word)
    (i : Idx) :
    (s2.join s1.sel s2.sel x y).afterJoin.nodeAt i =
      if i = s.nt then (s.nodeAt i).map fun e => e.asInternal (x + y) s1.sel s2.sel
      else if i = s1.sel ∨ i = s2.sel then (s.nodeAt i).map fun e => { e with parent := s.nt }
      else s.nodeAt i := by
  have hn1 : s1.sel ≠ s2.nt := (h2.nt.trans h1.nt).symm ▸ BitVec.ne_of_lt (h1.sel_lt hc)
  have hn2 : s2.sel ≠ s2.nt := h2.nt.symm ▸ BitVec.ne_of_lt (h2.sel_lt h1.cursors)
  rw [nodeAt_afterJoin_join x y (h1.sel_ne h2 hc) hn1 hn2, h2.nodeAt, h1.nodeAt, h2.nt, h1.nt]

/-- `TB.MERGE` where the two items and the new node have entries. -/
theorem execTbMerge_joins {x y e : NodeEntry} (hi : 2 ≤ s.items) (h1 : takeItem s = .ok () s1)
    (h2 : takeItem s1 = .ok () s2) (hx : s2.nodeAt s1.sel = some x) (hy : s2.nodeAt s2.sel = some y)
    (he : s2.nodeAt s2.nt = some e) :
    execTbMerge s = .next (s2.join s1.sel s2.sel x.freq y.freq).afterJoin := by
  rw [execTbMerge, if_neg (Nat.not_lt_of_le hi), h1, Access.andThen_ok, h2, Access.andThen_ok]
  simp only [hx, hy, he]

/-- The join itself writes the node store alone. -/
theorem join_eq (s : State) (a b : Idx) (x y : Word) : ∃ v, s.join a b x y = { s with node := v } :=
  ⟨_, rfl⟩

/-- From any state that differs from `s` in the node store alone: `NT` and the phase follow. -/
theorem afterJoin_frame {v : Vector NodeEntry 509} (h : t = { s with node := v }) :
    t.afterJoin = { s with
      node := t.afterJoin.node
      nt := s.nt + 1
      phase := if 2 ≤ t.afterJoin.items then 10 else 11 } := by
  subst h
  rfl

/-- The node made is one more pending item. -/
theorem items_afterJoin {v : Vector NodeEntry 509} (hc : CursorsOk s) (h : t = { s with node := v }) :
    t.afterJoin.items = s.items + 1 := by
  obtain ⟨-, hpending, hstore⟩ := hc
  have hnt : (s.nt + 1).toNat = s.nt.toNat + 1 := by bv_omega
  subst h
  show s.lrem.toNat + (s.nt + 1).toNat - s.qh.toNat = s.lrem.toNat + s.nt.toNat - s.qh.toNat + 1
  omega

end

/-- Settles O20: two takes from cursors in order yield two entries below `NT`, joined at `NT`. -/
theorem mergeJoinsTheTwoTakenItems : Obligations.MergeJoinsTheTwoTakenItems := by
  intro s hm hi
  have hc := cursorsOk_of_mergeOk hm hi
  obtain ⟨s1, ht1, h1⟩ := exists_takes hc (Nat.le_of_succ_le hi)
  have hitems1 := h1.items
  obtain ⟨s2, ht2, h2⟩ := exists_takes h1.cursors (by omega)
  have hitems2 := h2.items
  have hnt : s2.nt = s.nt := h2.nt.trans h1.nt
  have hnode (i : Idx) : s2.nodeAt i = s.nodeAt i := (h2.nodeAt i).trans (h1.nodeAt i)
  have hn1 : s1.sel ≠ s.nt := BitVec.ne_of_lt (h1.sel_lt hc)
  have hn2 : s2.sel ≠ s.nt := BitVec.ne_of_lt (h1.nt ▸ h2.sel_lt h1.cursors)
  obtain ⟨x, hx⟩ := h1.exists_item hc
  obtain ⟨y, hy⟩ := h2.exists_item h1.cursors
  obtain ⟨e, he⟩ := s.exists_nodeAt hc.store
  rw [h1.nodeAt] at hy
  have hmerge := execTbMerge_joins hi ht1 ht2 ((hnode _).trans hx) ((hnode _).trans hy)
    ((hnode _).trans (hnt ▸ he))
  have hjoin := nodeAt_afterJoin_of_takes h1 h2 hc x.freq y.freq
  obtain ⟨v, hv⟩ := join_eq s2 s1.sel s2.sel x.freq y.freq
  have hitems := items_afterJoin h2.cursors hv
  refine ⟨s1, s2, x, y, e, _, exec_tbTake ht1, exec_tbTake ht2, h1.sel_ne h2 hc, hx, hy, he, hmerge,
    ?_, ?_, ?_, fun i hin hia hib => ?_, by omega, ?_⟩
  · rw [hjoin, if_pos rfl, he]
    rfl
  · rw [hjoin, if_neg hn1, if_pos (.inl rfl), hx]
    rfl
  · rw [hjoin, if_neg hn2, if_pos (.inr rfl), hy]
    rfl
  · rw [hjoin, if_neg hin, if_neg (not_or.mpr ⟨hia, hib⟩)]
  · rw [← hnt]
    exact afterJoin_frame hv

/-! ### `TB.ROOT` (R127) -/

/-- Settles O21: the test of `N` reads the same on the register and on its number. -/
theorem rootIsTheLastNode : Obligations.RootIsTheLastNode := by
  intro s
  have hone : s.n = 1 ↔ s.n.toNat = 1 := BitVec.toNat_inj.symm
  show execTbRoot s = _
  simp only [execTbRoot, hone]
  rfl

end Sys2Proof.Proofs
end

section
/-! The CodeAssigner (R136 to R140). The idea: `CA.WALK` and `ancestor` go up the same chain of parents, so the
walk's bits are the turns of that chain, and the chain read from its far end is the way down to the leaf. -/

namespace Sys2Proof.Proofs

open Sys2Proof.Machine Sys2Proof.Claim

/-! ### `CA.CLEAR` (R136) -/

/-- Settles O22: every entry is mapped, and the map writes `valid` alone. -/
theorem codeTableIsCleared : Obligations.CodeTableIsCleared := by
  intro s
  exact ⟨_, rfl, fun i hi => Vector.getElem_map _ hi, rfl⟩

/-! ### The chain of parents (R34) -/

section
variable {v : Vector NodeEntry 509} {i r : Idx} {e p : NodeEntry} {k len : Nat}

/-- One edge at the near end of the chain. -/
theorem ancestor_succ (he : v[i.toNat]? = some e) (hp : e.parent ≠ Config.none) (k : Nat) :
    ancestor v (k + 1) i = ancestor v k e.parent := by
  rw [ancestor, he]
  exact if_neg hp

theorem exists_parent_of_ancestor_succ (h : ancestor v (k + 1) i = some r) :
    ∃ e, v[i.toNat]? = some e ∧ e.parent ≠ Config.none ∧ ancestor v k e.parent = some r := by
  rw [ancestor] at h
  split at h
  next e he =>
    split at h
    · cases h
    next hp => exact ⟨e, he, hp, h⟩
  · cases h

/-- One edge at the far end of the chain. -/
theorem exists_child_of_ancestor_succ (h : ancestor v (k + 1) i = some r) :
    ∃ m, ancestor v k i = some m ∧ (v[m.toNat]?).isSome := by
  induction k generalizing i with
  | zero =>
    obtain ⟨e, he, -, -⟩ := exists_parent_of_ancestor_succ h
    exact ⟨i, rfl, Option.isSome_of_eq_some he⟩
  | succ k ih =>
    obtain ⟨e, he, hp, h⟩ := exists_parent_of_ancestor_succ h
    rw [ancestor_succ he hp]
    exact ih h

/-- A node on a chain to an entry of the store is itself an entry. -/
theorem isSome_of_ancestor (h : ancestor v k i = some r) (hr : (v[r.toNat]?).isSome) :
    (v[i.toNat]?).isSome := by
  cases k with
  | zero =>
    cases h
    exact hr
  | succ k =>
    obtain ⟨e, he, -, -⟩ := exists_parent_of_ancestor_succ h
    exact Option.isSome_of_eq_some he

theorem isSome_of_rootAbove (h : RootAbove v i len r) : (v[r.toNat]?).isSome := by
  obtain ⟨-, e, he, -⟩ := h
  exact Option.isSome_of_eq_some he

theorem exists_parent_of_rootAbove (h : RootAbove v i (len + 1) r) :
    ∃ e, v[i.toNat]? = some e ∧ e.parent ≠ Config.none ∧ RootAbove v e.parent len r := by
  obtain ⟨hup, hroot⟩ := h
  obtain ⟨e, he, hp, hup⟩ := exists_parent_of_ancestor_succ hup
  exact ⟨e, he, hp, hup, hroot⟩

theorem rootAbove_succ (he : v[i.toNat]? = some e) (hp : e.parent ≠ Config.none)
    (h : RootAbove v e.parent len r) : RootAbove v i (len + 1) r :=
  ⟨(ancestor_succ he hp len).trans h.1, h.2⟩

/-! ### The turns of the chain (R89, R137) -/

/-- The node `k` edges above `i` is the right child of the next node on the way up. -/
def TurnsRight (v : Vector NodeEntry 509) (i : Idx) (k : Nat) : Prop :=
  ∃ m p q, ancestor v k i = some m ∧ ancestor v (k + 1) i = some p ∧ v[p.toNat]? = some q ∧ q.right = m

theorem turnsRight_iff {m j : Idx} (hm : ancestor v k i = some m) (hj : ancestor v (k + 1) i = some j)
    (hp : v[j.toNat]? = some p) : TurnsRight v i k ↔ p.right = m := by
  constructor
  · rintro ⟨m', j', p', hm', hj', hp', hright⟩
    cases hm.symm.trans hm'
    cases hj.symm.trans hj'
    cases hp.symm.trans hp'
    exact hright
  · exact fun hright => ⟨m, j, p, hm, hj, hp, hright⟩

theorem turnsRight_succ (he : v[i.toNat]? = some e) (hp : e.parent ≠ Config.none) (k : Nat) :
    TurnsRight v i (k + 1) ↔ TurnsRight v e.parent k := by
  simp only [TurnsRight, ancestor_succ he hp]

/-! ### `CA.WALK` (R137, R140) -/

/-- Bit `l` of the code after one branch is set. -/
theorem getLsbD_or_branch {l : Nat} (hl : l < 64) (acc : Word) (c : Prop) [Decidable c] (k : Nat) :
    (acc ||| (if c then 1#64 <<< l else 0#64)).getLsbD k = true ↔
      acc.getLsbD k = true ∨ (k = l ∧ c) := by
  have hbit : (1#64 <<< l).getLsbD k = decide (k = l) := by
    rw [← BitVec.twoPow_eq, BitVec.getLsbD_twoPow]
    simp [hl, eq_comm]
  rw [BitVec.getLsbD_or, Bool.or_eq_true]
  by_cases hc : c <;> simp [hc, hbit]

/-- A walk from bit `l` on adds the turns of the chain to the bits it began with. -/
theorem walkUp_of_rootAbove {room l : Nat} (acc : Word) (h : RootAbove v i len r) (hlen : len ≤ room)
    (hroom : l + room ≤ 64) :
    ∃ c, walkUp v room i acc l = .code c (l + len) ∧
      ∀ k, c.getLsbD k = true ↔
        acc.getLsbD k = true ∨ ∃ j < len, k = l + j ∧ TurnsRight v i j := by
  induction len generalizing i room acc l with
  | zero =>
    obtain ⟨hup, e, he, hnone⟩ := h
    cases hup
    exact ⟨acc, walkUp_root he hnone, by simp⟩
  | succ len ih =>
    obtain ⟨e, he, hp, h⟩ := exists_parent_of_rootAbove h
    obtain ⟨p, hpe⟩ := Option.isSome_iff_exists.mp (isSome_of_ancestor h.1 (isSome_of_rootAbove h))
    obtain ⟨room, rfl⟩ := Nat.exists_eq_add_one_of_ne_zero (n := room) (by omega)
    obtain ⟨c, hwalk, hbits⟩ := ih (room := room) (l := l + 1)
      (acc ||| (if p.right = i then 1#64 <<< l else 0#64)) h (by omega) (by omega)
    have hzero : TurnsRight v i 0 ↔ p.right = i := turnsRight_iff rfl (ancestor_succ he hp 0) hpe
    refine ⟨c, (walkUp_edge he hp hpe).trans (by rw [hwalk, Nat.add_right_comm, Nat.add_assoc]),
      fun k => ?_⟩
    rw [hbits, getLsbD_or_branch (by omega), Nat.exists_lt_succ_left]
    simp only [turnsRight_succ he hp, hzero, or_assoc, Nat.add_zero, Nat.add_right_comm l 1,
      Nat.add_assoc]

theorem walkUp_tooDeep {room l : Nat} {acc : Word} (h : ancestor v (room + 1) i = some r)
    (hr : (v[r.toNat]?).isSome) : walkUp v room i acc l = .tooDeep := by
  induction room generalizing i acc l with
  | zero =>
    obtain ⟨e, he, hp, h⟩ := exists_parent_of_ancestor_succ h
    obtain ⟨p, hpe⟩ := Option.isSome_iff_exists.mp (isSome_of_ancestor h hr)
    exact walkUp_full he hp hpe
  | succ room ih =>
    obtain ⟨e, he, hp, h⟩ := exists_parent_of_ancestor_succ h
    obtain ⟨p, hpe⟩ := Option.isSome_iff_exists.mp (isSome_of_ancestor h hr)
    rw [walkUp_edge he hp hpe]
    exact ih h

end

/-- A write at an index that there is. -/
theorem setIfInBounds_eq_set {α : Type} {n j : Nat} (v : Vector α n) (hj : j < n) (x : α) :
    v.setIfInBounds j x = v.set j x := by
  simp [Vector.setIfInBounds, Vector.set, Array.setIfInBounds, hj]

/-- `CA.WALK` on a leaf at most 64 edges deep stores the turns of its chain as its code. -/
theorem execCaWalk_assigns {s : State} {e : NodeEntry} {len : Nat} {r : Idx}
    (hn : s.caI.toNat ≠ s.n.toNat) (he : s.nodeAt s.caI = some e) (h : RootAbove s.node s.caI len r)
    (hlen : len ≤ 64) (hsym : e.sym.toNat < 128) :
    ∃ c : Word, execCaWalk s = .next (s.assignCode e.sym c (BitVec.ofNat 7 len)) ∧
      c.toNat < 2 ^ len ∧ ∀ k, c.getLsbD k = true ↔ k < len ∧ TurnsRight s.node s.caI k := by
  obtain ⟨c, hwalk, hbits⟩ := walkUp_of_rootAbove 0 h hlen (l := 0) le_rfl
  rw [Nat.zero_add] at hwalk
  obtain ⟨-, -, hlt⟩ := walkUp_code hwalk Nat.one_pos
  refine ⟨c, ?_, hlt, fun k => ?_⟩
  · rw [execCaWalk, if_neg hn, he]
    simp only [Config.codeBits_eq, hwalk]
    exact if_pos hsym
  · simp [hbits]

/-- Settles O23: the code's bits are the turns of the chain, and `assignCode` writes the entry, the table and
the cursor. -/
theorem walkGivesTheBranchesToTheRoot : Obligations.WalkGivesTheBranchesToTheRoot := by
  refine ⟨fun s hn => if_pos hn, fun s e len r hn he h hlen hsym => ?_⟩
  obtain ⟨c, hexec, -, hbits⟩ := execCaWalk_assigns hn he h hlen hsym
  have hnode (i : Idx) := s.nodeAt_setNode s.caI i fun e => { e with code := c, len := BitVec.ofNat 7 len }
  refine ⟨c, _, hexec, hbits, ?_, fun i hi => ?_, ?_, rfl⟩
  · exact (hnode s.caI).trans (by rw [if_pos rfl, he]; rfl)
  · exact (hnode i).trans (if_neg hi)
  · exact setIfInBounds_eq_set s.lut hsym _

/-- Settles O24: the walk's 64 edges of room are used up where a 65th is there. -/
theorem leafTooDeepOverflows : Obligations.LeafTooDeepOverflows := by
  intro s e j hn he h hj
  show execCaWalk s = _
  rw [execCaWalk, if_neg hn, he]
  simp only [Config.codeBits_eq, walkUp_tooDeep h hj]

/-! ### The way down (R138) -/

section
variable {v : Vector NodeEntry 509} {i r : Idx} {e p : NodeEntry} {k len : Nat}

/-- A code whose bits are the turns of a linked chain leads back down it. -/
theorem descend_codeBits {c : Nat} (hlinked : PathLinked v i len) (hup : ancestor v len i = some r)
    (hr : (v[r.toNat]?).isSome) (hc : ∀ k < len, c.testBit k = true ↔ TurnsRight v i k) :
    descend v r (codeBits len c) = some i := by
  induction len generalizing r with
  | zero => exact hup.symm
  | succ len ih =>
    obtain ⟨q, hq⟩ := Option.isSome_iff_exists.mp hr
    obtain ⟨m, hm, hms⟩ := exists_child_of_ancestor_succ hup
    obtain ⟨hkind, hne, hchild⟩ := hlinked len (Nat.lt_succ_self len) m r q hm hup hq
    have hturn : c.testBit len = true ↔ q.right = m :=
      (hc len (Nat.lt_succ_self len)).trans (turnsRight_iff hm hup hq)
    have hbranch : (if c.testBit len then q.right else q.left) = m := by
      split
      next hbit => exact hturn.mp hbit
      next hbit => exact hchild.resolve_right fun hright => hbit (hturn.mpr hright)
    have hrest := ih (fun k hk => hlinked k (by omega)) hm hms fun k hk => hc k (by omega)
    exact descend_cons_eq_some.mpr ⟨q, hq, hkind, hbranch ▸ hrest⟩

theorem pathLinked_succ (he : v[i.toNat]? = some e) (hp : e.parent ≠ Config.none)
    (hpe : v[e.parent.toNat]? = some p)
    (hlink : p.kind = .internal ∧ p.left ≠ p.right ∧ (p.left = i ∨ p.right = i))
    (h : PathLinked v e.parent len) : PathLinked v i (len + 1) := by
  intro k hk m j q hm hj hq
  rw [ancestor_succ he hp] at hj
  cases k with
  | zero =>
    cases hm
    cases hj
    cases hpe.symm.trans hq
    exact hlink
  | succ k =>
    rw [ancestor_succ he hp] at hm
    exact h k (by omega) m j q hm hj hq

end

/-- In the finished tree every entry's chain is linked and ends at `ROOT`: parents have the greater index. -/
theorem exists_path_of_treeOk {s : State} (h : TreeOk s) (i : Idx) (hi : i.toNat ≤ 2 * s.n.toNat - 2) :
    ∃ len, RootAbove s.node i len s.root ∧ PathLinked s.node i len := by
  have hn := s.n.isLt
  obtain ⟨-, -, hroot, htop, hjoined⟩ := h
  induction hd : 2 * s.n.toNat - 2 - i.toNat using Nat.strong_induction_on generalizing i with
  | _ d ih =>
    rcases Nat.eq_or_lt_of_le hi with hlast | hlt
    · obtain rfl : i = s.root := BitVec.toNat_inj.mp (hlast.trans hroot.symm)
      rw [← hroot] at htop
      exact ⟨0, ⟨rfl, htop⟩, fun k hk => absurd hk (Nat.not_lt_zero k)⟩
    · obtain ⟨e, p, he, hup, hbelow, hpe, hkind, hne, hchild⟩ := hjoined i.toNat hlt
      have hp : e.parent ≠ Config.none := by
        intro hnone
        have hvalue : e.parent.toNat = 511 := congrArg BitVec.toNat hnone
        omega
      obtain ⟨len, habove, hlinked⟩ := ih _ (by omega) e.parent (by omega) rfl
      exact ⟨len + 1, rootAbove_succ he hp habove,
        pathLinked_succ he hp hpe
          ⟨hkind, hne, hchild.imp BitVec.toNat_inj.mp BitVec.toNat_inj.mp⟩ hlinked⟩

/-- Settles O25: the bits are the turns of a linked chain, and `TreeOk` links the chain of every leaf. -/
theorem codeIsTheRootToLeafPath : Obligations.CodeIsTheRootToLeafPath := by
  refine ⟨fun s t e len r hlinked hn he hsym h hlen hexec => ?_, fun s htree hi =>
    exists_path_of_treeOk htree s.caI (by have := htree.some; omega)⟩
  obtain ⟨c, hassign, hlt, hbits⟩ := execCaWalk_assigns hn he h hlen hsym
  obtain rfl := Host.Outcome.next.inj (hassign.symm.trans hexec)
  refine ⟨_, Vector.getElem?_setIfInBounds_self_of_lt hsym, rfl, ?_, hlt, ?_⟩
  · exact (BitVec.toNat_ofNat len 7).trans (Nat.mod_eq_of_lt (by omega))
  · refine descend_codeBits hlinked h.1 (isSome_of_rootAbove h) fun k hk => ?_
    rw [BitVec.testBit_toNat, hbits, and_iff_right hk]

end Sys2Proof.Proofs
end

section
/-! The HeaderCodec (R146 to R151): the width of the frequency fields, and the header and its pairs on their
way out and in. Each of these operations makes two accesses, so each has three outcomes: the first access
fails, the second does, or both pass. -/

namespace Sys2Proof.Proofs

open Sys2Proof.Machine Sys2Proof.Claim

/-! ### `HC.WIDTH` (R146) -/

theorem toNat_widthFor (m : Word) : (widthFor m).toNat =
    if m.toNat ≤ 0xFF then 1 else if m.toNat ≤ 0xFFFF then 2
    else if m.toNat ≤ 0xFFFFFFFF then 4 else 8 := by
  simp only [widthFor, apply_ite BitVec.toNat]
  rfl

theorem widthFor_mem (m : Word) : (widthFor m).toNat ∈ Config.fieldWidths := by
  rw [toNat_widthFor]
  split_ifs <;> decide

/-- The chosen width is at most a legal one exactly where that one holds the frequency. -/
theorem widthFor_le_iff (m : Word) {k : Nat} (hk : k ∈ Config.fieldWidths) :
    (widthFor m).toNat ≤ k ↔ m.toNat < 2 ^ (8 * k) := by
  have hm := m.isLt
  simp only [Config.fieldWidths_eq, List.mem_cons, List.not_mem_nil, or_false] at hk
  rw [toNat_widthFor]
  rcases hk with rfl | rfl | rfl | rfl
  all_goals split_ifs <;> omega

/-- Settles O26: a legal width is at least the chosen one just when it holds the frequency. -/
theorem widthIsTheSmallestThatHolds : Obligations.WidthIsTheSmallestThatHolds := by
  intro s
  have hmem := widthFor_mem s.node[0].freq
  exact ⟨_, rfl, rfl, hmem, (widthFor_le_iff _ hmem).mp le_rfl, fun k hk => (widthFor_le_iff _ hk).mpr⟩

/-! ### A byte and then bytes appended (R69) -/

section
variable {s : State} {b : Byte} {bs : List Byte} {p : Nat}

theorem memWrite_byte_pass (hd : s.nextDraw = .passes) :
    s.memWrite [b] = .ok () (s.afterDraw.appendOut [b]) :=
  State.memWrite_pass le_rfl (Nat.le_add_left 1 7) hd

/-- A failed write of one byte appends nothing. -/
theorem memWrite_byte_fail (hd : s.nextDraw = .fails p) :
    s.memWrite [b] = .halt (.next (s.afterDraw.raise .ioError 1)) := by
  have hnone : landedBytes p [b].length = 0 := Nat.min_zero p
  rw [State.memWrite_fail (bs := [b]) le_rfl (Nat.le_add_left 1 7) hd, hnone, List.take_zero,
    afterDraw_appendOut_eq, Memory.appendAll_nil, List.length_nil, BitVec.add_zero,
    ← State.afterDraw_out s, ← State.afterDraw_outLen s]

/-- The second access draws from what the first left of the oracle. -/
theorem nextDraw_after_byte : (s.afterDraw.appendOut [b]).nextDraw = s.afterDraw.nextDraw :=
  State.nextDraw_appendOut _ _

theorem afterDraw_after_byte : (s.afterDraw.appendOut [b]).afterDraw =
    { s.afterDraw.afterDraw with out := s.out.append b, outLen := s.outLen + 1 } := by
  rw [State.afterDraw_appendOut, afterDraw_appendOut_eq, State.afterDraw_out, State.afterDraw_outLen]
  rfl

theorem appendOut_after_byte : (s.afterDraw.appendOut [b]).afterDraw.appendOut bs =
    { s.afterDraw.afterDraw with
      out := (s.out.append b).appendAll bs, outLen := s.outLen + 1 + BitVec.ofNat 64 bs.length } := by
  rw [afterDraw_after_byte, State.appendOut]

end

/-! ### `HC.PUTHDR` (R147) -/

section
variable {s : State} {p : Nat}

theorem hcPuthdr_pass (hd : s.nextDraw = .passes) (hd' : s.afterDraw.nextDraw = .passes) :
    exec .hcPuthdr s = .next { s.afterDraw.afterDraw with
      out := (s.out.append s.n).append (s.f.setWidth 8), outLen := s.outLen + 1 + 1
      hcI := 0, phase := 26 } := by
  show execHcPuthdr s = _
  rw [execHcPuthdr, memWrite_byte_pass hd, Access.andThen_ok,
    memWrite_byte_pass (nextDraw_after_byte.trans hd'), Access.andThen_ok, appendOut_after_byte,
    State.appendOut_f, State.afterDraw_f]
  rfl

theorem hcPuthdr_first_fails (hd : s.nextDraw = .fails p) :
    exec .hcPuthdr s = .next (s.afterDraw.raise .ioError 1) := by
  show execHcPuthdr s = _
  rw [execHcPuthdr, memWrite_byte_fail hd, Access.andThen_halt]

theorem hcPuthdr_second_fails (hd : s.nextDraw = .passes) (hd' : s.afterDraw.nextDraw = .fails p) :
    exec .hcPuthdr s = .next (State.raise { s.afterDraw.afterDraw with
      out := s.out.append s.n, outLen := s.outLen + 1 } .ioError 1) := by
  show execHcPuthdr s = _
  rw [execHcPuthdr, memWrite_byte_pass hd, Access.andThen_ok,
    memWrite_byte_fail (nextDraw_after_byte.trans hd'), Access.andThen_halt, afterDraw_after_byte]

end

/-- Settles O27: the three outcomes of two accesses of one byte each. -/
theorem headerBytesGoOut : Obligations.HeaderBytesGoOut :=
  fun _ => ⟨hcPuthdr_pass, fun _ => hcPuthdr_first_fails, fun _ => hcPuthdr_second_fails⟩

/-! ### `HC.PUTPAIR` (R148) -/

section
variable {s : State} {e : NodeEntry} {p : Nat}

theorem hcPutpair_atEnd (hc : s.hcI.toNat = s.n.toNat) :
    exec .hcPutpair s = .next { s with phase := 32 } := if_pos hc

theorem hcPutpair_pass (hc : s.hcI.toNat ≠ s.n.toNat) (he : s.nodeAt s.hcI = some e)
    (hf : s.f.toNat ∈ Config.fieldWidths) (hd : s.nextDraw = .passes)
    (hd' : s.afterDraw.nextDraw = .passes) :
    exec .hcPutpair s = .next { s.afterDraw.afterDraw with
      out := (s.out.append e.sym).appendAll (freqBytes s.cfg e.freq s.f)
      outLen := s.outLen + 1 + s.f.setWidth 64, hcI := s.hcI + 1, phase := 26 } := by
  obtain ⟨hf1, hf8⟩ := fieldWidth_le hf
  show execHcPutpair s = _
  rw [execHcPutpair_pass hc he hf1 hf8 hd hd', appendOut_after_byte, freqBytes_length,
    BitVec.ofNat_toNat]
  rfl

theorem hcPutpair_first_fails (hc : s.hcI.toNat ≠ s.n.toNat) (he : s.nodeAt s.hcI = some e)
    (hd : s.nextDraw = .fails p) : exec .hcPutpair s = .next (s.afterDraw.raise .ioError 1) := by
  show execHcPutpair s = _
  rw [execHcPutpair, if_neg hc]
  simp only [he, memWrite_byte_fail hd, Access.andThen_halt]

theorem hcPutpair_second_fails (hc : s.hcI.toNat ≠ s.n.toNat) (he : s.nodeAt s.hcI = some e)
    (hf : s.f.toNat ∈ Config.fieldWidths) (hd : s.nextDraw = .passes)
    (hd' : s.afterDraw.nextDraw = .fails p) :
    ∃ k < s.f.toNat, k ≤ p ∧ exec .hcPutpair s = .next (State.raise { s.afterDraw.afterDraw with
      out := (s.out.append e.sym).appendAll ((freqBytes s.cfg e.freq s.f).take k)
      outLen := s.outLen + 1 + BitVec.ofNat 64 k } .ioError 1) := by
  obtain ⟨hf1, hf8⟩ := fieldWidth_le hf
  have hk : landedBytes p s.f.toNat < s.f.toNat := landedBytes_lt hf1
  have hfreq := State.memWrite_fail (s := s.afterDraw.appendOut [e.sym])
    (bs := freqBytes s.cfg e.freq s.f) (by rwa [freqBytes_length]) (by rwa [freqBytes_length])
    (nextDraw_after_byte.trans hd')
  rw [freqBytes_length, appendOut_after_byte,
    List.length_take_of_le (by rw [freqBytes_length]; exact hk.le)] at hfreq
  refine ⟨landedBytes p s.f.toNat, hk, landedBytes_le p _, ?_⟩
  show execHcPutpair s = _
  rw [execHcPutpair, if_neg hc]
  simp only [he, memWrite_byte_pass hd, Access.andThen_ok, State.appendOut_cfg, State.afterDraw_cfg,
    State.appendOut_f, State.afterDraw_f, hfreq, Access.andThen_halt]

end

/-- Settles O28: the end of the pairs, and the three outcomes of the two accesses of a pair. -/
theorem pairGoesOut : Obligations.PairGoesOut :=
  ⟨fun _ => hcPutpair_atEnd, fun _ _ hc he hf => ⟨hcPutpair_pass hc he hf,
    fun _ => hcPutpair_first_fails hc he, fun _ => hcPutpair_second_fails hc he hf⟩⟩

/-! ### A byte and then bytes read (R68) -/

section
variable {s : State} {a n p : Nat} {b : Byte}

theorem memRead_byte_pass (hr : Readable s a 1) (hd : s.nextDraw = .passes)
    (hb : s.inp.byteAt a = some b) : s.memRead a 1 = .ok [b] s.afterDraw :=
  State.memRead_pass le_rfl (by decide) hr.1 hr.2 hd
    (Memory.bytesAt_one_eq_some.mpr ⟨b, hb, rfl⟩)

theorem memRead_byte_fail (hr : Readable s a 1) (hd : s.nextDraw = .fails p) :
    s.memRead a 1 = .halt (.next (s.afterDraw.raise .ioError 0)) :=
  State.memRead_fail le_rfl (by decide) hr.1 hr.2 hd

/-- What is readable as one access is readable as two, with a draw in between. -/
theorem readable_split (hr : Readable s a (1 + n)) :
    Readable s a 1 ∧ Readable s.afterDraw (a + 1) n := by
  obtain ⟨ho, hl⟩ := hr
  refine ⟨⟨ho, by omega⟩, by rwa [State.afterDraw_flags], ?_⟩
  rw [State.afterDraw_inLen]
  omega

end

/-! ### `HC.GETHDR` (R150) -/

section
variable {n f : Byte} {l : Word}

theorem headerFault_noSymbols (hn : n = 0) : headerFault n f l = some 1 := if_pos hn

theorem headerFault_illegalWidth (hn : n ≠ 0) (hf : f.toNat ∉ Config.fieldWidths) :
    headerFault n f l = some 2 := (if_neg hn).trans (if_pos hf)

theorem headerFault_short (hn : n ≠ 0) (hf : f.toNat ∈ Config.fieldWidths)
    (hl : l.toNat < headerLen n.toNat f.toNat) : headerFault n f l = some 3 :=
  (if_neg hn).trans ((if_neg (not_not.mpr hf)).trans (if_pos hl))

theorem headerFault_none (hn : n ≠ 0) (hf : f.toNat ∈ Config.fieldWidths)
    (hl : headerLen n.toNat f.toNat ≤ l.toNat) : headerFault n f l = none :=
  (if_neg hn).trans ((if_neg (not_not.mpr hf)).trans (if_neg (Nat.not_lt.mpr hl)))

end

theorem hcGethdr_noHeader {s : State} (h : s.inLen.toNat < 2) :
    exec .hcGethdr s = .next (s.raise .malformedHeader 0) := if_pos h

section
variable {s : State} {n f : Byte} {p : Nat} (hr : Readable s 0 (1 + 1))
include hr

theorem hcGethdr_first_fails (hd : s.nextDraw = .fails p) :
    exec .hcGethdr s = .next (s.afterDraw.raise .ioError 0) := by
  show execHcGethdr s = _
  rw [execHcGethdr, if_neg (Nat.not_lt.mpr hr.2), memRead_byte_fail (readable_split hr).1 hd,
    Access.andThen_halt]

theorem hcGethdr_second_fails (hd : s.nextDraw = .passes) (hn : s.inp.byteAt 0 = some n)
    (hd' : s.afterDraw.nextDraw = .fails p) :
    exec .hcGethdr s = .next (s.afterDraw.afterDraw.raise .ioError 0) := by
  obtain ⟨hr0, hr1⟩ := readable_split hr
  show execHcGethdr s = _
  rw [execHcGethdr, if_neg (Nat.not_lt.mpr hr.2), memRead_byte_pass hr0 hd hn, Access.andThen_ok,
    memRead_byte_fail hr1 hd', Access.andThen_halt]

/-- With both bytes read, only the tests of them are left. -/
theorem hcGethdr_pass (hd : s.nextDraw = .passes) (hn : s.inp.byteAt 0 = some n)
    (hd' : s.afterDraw.nextDraw = .passes) (hf : s.inp.byteAt 1 = some f) :
    (∀ info, headerFault n f s.inLen = some info → exec .hcGethdr s =
      .next (State.raise { s.afterDraw.afterDraw with inPos := 2 } .malformedHeader info)) ∧
    (headerFault n f s.inLen = none → exec .hcGethdr s = .next { s.afterDraw.afterDraw with
      inPos := 2, n := n, f := f.setWidth 4, hcI := 0, phase := 28 }) := by
  obtain ⟨hr0, hr1⟩ := readable_split hr
  have hread1 := memRead_byte_pass hr1 hd' (b := f) (by rwa [State.afterDraw_inp])
  show (∀ info, _ → execHcGethdr s = _) ∧ (_ → execHcGethdr s = _)
  rw [execHcGethdr, if_neg (Nat.not_lt.mpr hr.2), memRead_byte_pass hr0 hd hn, Access.andThen_ok,
    hread1, Access.andThen_ok]
  simp only [List.headD_cons, State.afterDraw_inLen]
  constructor
  · intro info h
    rw [h]
  · intro h
    rw [h]
    rfl

end

/-- Settles O29: the length, the two accesses, and then the tests of `headerFault` in their order. -/
theorem headerIsCheckedInOrder : Obligations.HeaderIsCheckedInOrder := by
  refine fun s => ⟨hcGethdr_noHeader, fun hl ho => ?_⟩
  have hr : Readable s 0 (1 + 1) := ⟨ho, hl⟩
  refine ⟨fun p => hcGethdr_first_fails hr, fun n f hd hn => ⟨fun p => hcGethdr_second_fails hr hd hn,
    fun hd' hf => ?_⟩⟩
  obtain ⟨hfault, hsets⟩ := hcGethdr_pass hr hd hn hd' hf
  exact ⟨fun h0 => hfault 1 (headerFault_noSymbols h0),
    fun h0 hw => hfault 2 (headerFault_illegalWidth h0 hw),
    fun h0 hw hs => hfault 3 (headerFault_short h0 hw hs),
    fun h0 hw hs => hsets (headerFault_none h0 hw hs)⟩

/-! ### `HC.GETPAIR` (R151) -/

section
variable {s : State} {sym : Byte} {p : Nat}

theorem hcGetpair_atEnd (hc : s.hcI.toNat = s.n.toNat) :
    exec .hcGetpair s = .next { s with phase := 8 } := if_pos hc

variable (hc : s.hcI.toNat ≠ s.n.toNat) (hr : Readable s s.inPos.toNat (1 + s.f.toNat))
include hc hr

theorem hcGetpair_first_fails (hd : s.nextDraw = .fails p) :
    exec .hcGetpair s = .next (s.afterDraw.raise .ioError 0) := by
  show execHcGetpair s = _
  rw [execHcGetpair, if_neg hc, memRead_byte_fail (readable_split hr).1 hd, Access.andThen_halt]

theorem hcGetpair_second_fails (hf : s.f.toNat ∈ Config.fieldWidths) (hd : s.nextDraw = .passes)
    (hsym : s.inp.byteAt s.inPos.toNat = some sym) (hd' : s.afterDraw.nextDraw = .fails p) :
    exec .hcGetpair s = .next (s.afterDraw.afterDraw.raise .ioError 0) := by
  obtain ⟨hf1, hf8⟩ := fieldWidth_le hf
  obtain ⟨hr0, hr1⟩ := readable_split hr
  show execHcGetpair s = _
  rw [execHcGetpair, if_neg hc, memRead_byte_pass hr0 hd hsym, Access.andThen_ok, State.afterDraw_inPos,
    State.afterDraw_f, State.memRead_fail hf1 hf8 hr1.1 hr1.2 hd', Access.andThen_halt]

end

/-- What a stored pair leaves in the node store and in the cursors, with the draws of its two accesses. -/
theorem storePair_afterDraws {s : State} {e : NodeEntry} (sym : Byte) (freq : Word) (f : FieldWidth)
    (he : s.nodeAt s.hcI = some e) :
    let t := s.afterDraw.afterDraw.storePair sym freq f
    t.nodeAt s.hcI = some (e.asLeaf sym freq) ∧ (∀ i, i ≠ s.hcI → t.nodeAt i = s.nodeAt i) ∧
      t = { s.afterDraw.afterDraw with
        node := t.node, inPos := s.inPos + 1 + f.setWidth 64, hcI := s.hcI + 1, phase := 28 } := by
  have hcursor : s.afterDraw.afterDraw.hcI = s.hcI := by simp only [State.afterDraw_hcI]
  refine ⟨?_, fun i hi => ?_, ?_⟩
  · rw [← hcursor]
    exact storePair_nodeAt sym freq f (by simpa using he)
  · rw [storePair_nodeAt_of_ne sym freq f (hcursor ▸ hi), nodeAt_afterDraw, nodeAt_afterDraw]
  · rw [← hcursor, ← State.afterDraw_inPos s, ← State.afterDraw_inPos s.afterDraw]
    rfl

/-- Settles O30: the end of the pairs, the two accesses that can fail, and the leaf stored when both pass. -/
theorem pairIsRead : Obligations.PairIsRead := by
  refine ⟨fun s => hcGetpair_atEnd, fun s hc hf hr => ⟨fun p => hcGetpair_first_fails hc hr,
    fun sym hd hsym => ⟨fun p => hcGetpair_second_fails hc hr hf hd hsym,
      fun bs e hd' hbs he => ?_⟩⟩⟩
  obtain ⟨hf1, hf8⟩ := fieldWidth_le hf
  exact ⟨_, execHcGetpair_pass hc he hf1 hf8 hr hd hd' hsym hbs, storePair_afterDraws sym _ s.f he⟩

end Sys2Proof.Proofs
end

section
/-! The BitStreamEncoder (R160 to R164, R168). `BSE.PUT` on a legal code has three outcomes: the code fits,
the full word goes out, or its write fails. `BSE.SYM` and `BSE.EOS` go on from the first two and end as the
third does. -/

namespace Sys2Proof.Proofs

open Sys2Proof.Machine Sys2Proof.Claim

/-- Settles O32: the four assignments are the definition's own. -/
theorem encoderStartsEmpty : Obligations.EncoderStartsEmpty := fun _ => rfl

/-- What a failed write leaves in `OUT`, `k` of its bytes landed. -/
theorem afterDraw_appendOut_take {s : State} {bs : List Byte} {k : Nat} (hk : k ≤ bs.length) :
    s.afterDraw.appendOut (bs.take k) = { s.afterDraw with
      out := s.out.appendAll (bs.take k), outLen := s.outLen + BitVec.ofNat 64 k } := by
  rw [afterDraw_appendOut_eq, List.length_take_of_le hk]

/-! ### `BSE.PUT` (R163) -/

section
variable {s : State} {v : Word} {l : Len} {p : Nat} (hf : s.free.toNat ≤ 64) (hv : codeFits v l = true)
include hf hv

theorem bsePut_fit (hl : l.toNat ≤ s.free.toNat) :
    exec (.bsePut v l) s = .next (s.putFit v l) := by
  rw [exec_bsePut, putCode_fit hf hv hl, Access.finish_ok]

theorem bsePut_split_pass (hl : s.free.toNat < l.toNat) (hd : s.nextDraw = .passes) :
    exec (.bsePut v l) s = .next (({ s.afterDraw with
      out := s.out.appendAll (wordBytes s.cfg (s.fullWord v l)), outLen := s.outLen + 8 } : State).putRest v
        (l.toNat - s.free.toNat)) := by
  rw [exec_bsePut, putCode_split_pass hf hv hl hd, Access.finish_ok, afterDraw_appendOut_eq,
    wordBytes_length]
  rfl

/-- The accumulator is filled before the write fails (R220). -/
theorem bsePut_split_fail (hl : s.free.toNat < l.toNat) (hd : s.nextDraw = .fails p) :
    exec (.bsePut v l) s = .next (State.raise { s.afterDraw with
      acc := s.fullWord v l
      out := s.out.appendAll ((wordBytes s.cfg (s.fullWord v l)).take (landedBytes p 8))
      outLen := s.outLen + BitVec.ofNat 64 (landedBytes p 8) } .ioError 1) := by
  have hk : landedBytes p 8 ≤ (wordBytes s.cfg (s.fullWord v l)).length := by
    rw [wordBytes_length]
    exact (landedBytes_lt (by decide)).le
  rw [exec_bsePut, putCode_split_fail hf hv hl hd, Access.finish_halt, afterDraw_appendOut_take hk,
    State.putFull_afterDraw]
  rfl

/-- A legal code always has a next state: the rest of the operation starts from it where the code fits or
the word goes out, and the operation ends in it where the word's write fails. -/
theorem exists_bsePut_next : ∃ t : State, exec (.bsePut v l) s = .next t ∧
    (l.toNat ≤ s.free.toNat ∨ s.nextDraw = .passes → putCode v l s = .ok () t) ∧
    (∀ p, s.free.toNat < l.toNat → s.nextDraw = .fails p → putCode v l s = .halt (.next t)) := by
  rcases putCode_total hf hv with ⟨t, ht⟩ | ⟨t, ht⟩
  · refine ⟨t, by rw [exec_bsePut, ht, Access.finish_ok], fun _ => ht, fun p hl hd => ?_⟩
    cases ht.symm.trans (putCode_split_fail hf hv hl hd)
  · refine ⟨t, by rw [exec_bsePut, ht, Access.finish_halt], fun hgo => ?_, fun _ _ _ => ht⟩
    have hl : s.free.toNat < l.toNat := (putCode_eq_halt ht).1
    have hd : s.nextDraw = .passes := hgo.resolve_left (Nat.not_le.mpr hl)
    cases ht.symm.trans (putCode_split_pass hf hv hl hd)

end

/-- Settles O35: the three outcomes of one put, with the rest of a split code as numbers. -/
theorem putShiftsOrSplits : Obligations.PutShiftsOrSplits := by
  intro s v l hf hl64 hlt
  have hv : codeFits v l = true := codeFits_iff.mpr ⟨hl64, hlt⟩
  refine ⟨bsePut_fit hf hv, fun hl => ⟨fun hd => ?_, fun p hd => ?_⟩⟩
  · exact ⟨_, bsePut_split_pass hf hv hl hd, putRest_acc_toNat (by omega), putRest_free_toNat _, rfl⟩
  · exact ⟨landedBytes p 8, landedBytes_lt (by decide), landedBytes_le p 8,
      bsePut_split_fail hf hv hl hd⟩

/-! ### `BSE.EOS` (R162) -/

theorem exec_bseEos (s : State) : exec .bseEos s =
    (putCode s.lut[0].code s.lut[0].len s).andThen fun _ t => .next { t with phase := 35 } := rfl

/-- Settles O34: the flush follows a put that went on, and a put that ended ends the operation. -/
theorem sentinelCodeEndsTheStream : Obligations.SentinelCodeEndsTheStream := by
  intro s hf hv
  obtain ⟨t, hput, hgoes, hends⟩ := exists_bsePut_next hf hv
  refine ⟨t, hput, fun hgo => ?_, fun p hl hd => ?_⟩
  · rw [exec_bseEos, hgoes hgo, Access.andThen_ok]
  · rw [exec_bseEos, hends p hl hd, Access.andThen_halt]

/-! ### `BSE.SYM` (R161, R168) -/

/-- A byte above 127 has no entry in the table. -/
theorem lutFor_eq_none_of_gt {s : State} {b : Byte} (hb : 127 < b.toNat) : s.lutFor b = none := by
  rw [State.lutFor, Vector.getElem?_eq_none hb]

theorem lutFor_eq_none_of_invalid {s : State} {b : Byte} (hb : b.toNat < 128)
    (hv : s.lut[b.toNat].valid = false) : s.lutFor b = none := by
  simp [State.lutFor, hb, hv]

theorem lutFor_eq_some_of_valid {s : State} {b : Byte} (hb : b.toNat < 128)
    (hv : s.lut[b.toNat].valid = true) : s.lutFor b = some s.lut[b.toNat] :=
  State.lutFor_eq_some.mpr ⟨Vector.getElem?_eq_getElem hb, hv⟩

theorem lutFor_afterDraw (s : State) (b : Byte) : s.afterDraw.lutFor b = s.lutFor b := by
  rw [State.lutFor, State.afterDraw_lut, State.lutFor]

section
variable {s : State} {b : Byte} {e : LutEntry} {p : Nat}

theorem bseSym_atEnd (hp : s.inPos = s.inLen) : exec .bseSym s = .next { s with phase := 34 } := if_pos hp

variable (hp : s.inPos ≠ s.inLen) (hr : Readable s s.inPos.toNat 1)
include hp hr

theorem bseSym_read_fails (hd : s.nextDraw = .fails p) :
    exec .bseSym s = .next (s.afterDraw.raise .ioError 0) :=
  (exec_of_memRead_halt hp (memRead_byte_fail hr hd)).2

theorem bseSym_noCode (hd : s.nextDraw = .passes) (hb : s.inp.byteAt s.inPos.toNat = some b)
    (hnone : s.lutFor b = none) : exec .bseSym s = .next (s.afterDraw.raise .lookupMiss s.inPos) := by
  show execBseSym s = _
  rw [execBseSym, if_neg hp, memRead_byte_pass hr hd hb, Access.andThen_ok]
  simp only [List.headD_cons, lutFor_afterDraw, hnone, State.afterDraw_inPos]

/-- A byte with a code has it put once the cursor is past the byte. -/
theorem bseSym_code (hd : s.nextDraw = .passes) (hb : s.inp.byteAt s.inPos.toNat = some b)
    (he : s.lutFor b = some e) : exec .bseSym s =
      (putCode e.code e.len { s.afterDraw with inPos := s.inPos + 1 }).andThen fun _ t =>
        .next { t with phase := if b = 0 then 35 else 33 } := by
  show execBseSym s = _
  rw [execBseSym, if_neg hp, memRead_byte_pass hr hd hb, Access.andThen_ok]
  simp only [List.headD_cons, lutFor_afterDraw, he, State.afterDraw_inPos]
  rfl

end

/-- Settles O33: the read, the lookup, and then the put, which the operation goes on or ends with. -/
theorem symbolIsLookedUpAndPut : Obligations.SymbolIsLookedUpAndPut := by
  refine ⟨fun s => bseSym_atEnd, fun s hp hr => ⟨fun p => bseSym_read_fails hp hr, fun b hd hb => ?_⟩⟩
  refine ⟨fun hgt => bseSym_noCode hp hr hd hb (lutFor_eq_none_of_gt hgt), fun hlt => ?_⟩
  refine ⟨fun hinv => bseSym_noCode hp hr hd hb (lutFor_eq_none_of_invalid hlt hinv),
    fun hval hf hfits => ?_⟩
  have hsym := bseSym_code hp hr hd hb (lutFor_eq_some_of_valid hlt hval)
  rw [← State.afterDraw_free s] at hf ⊢
  obtain ⟨t, hput, hgoes, hends⟩ :=
    exists_bsePut_next (s := { s.afterDraw with inPos := s.inPos + 1 }) hf hfits
  refine ⟨t, hput, fun hgo => ?_, fun p hl hd' => ?_⟩
  · rw [hsym, hgoes hgo, Access.andThen_ok]
  · rw [hsym, hends p hl hd', Access.andThen_halt]

/-! ### `BSE.FINAL` (R164) -/

/-- The ragged tail is the accumulator without its low bytes (R63). -/
theorem tailBytes_eq (cfg : Config) (acc : Word) (k : Nat) :
    tailBytes cfg acc k = ser (acc.toNat / 2 ^ (8 * (8 - k))) k cfg.wordOrder := by
  rw [tailBytes, BitVec.toNat_ushiftRight, Nat.shiftRight_eq_div_pow]

section
variable {s : State} {k p : Nat} (hf : s.free.toNat ≤ 64) (hk : ceil8 (64 - s.free.toNat) = k)
include hf hk

theorem bseFinal_nothing (h0 : k = 0) : exec .bseFinal s = .next { s with phase := 48 } := by
  show execBseFinal s = _
  rw [execBseFinal, if_neg (show ¬ Config.wordBits < s.free.toNat from Nat.not_lt.mpr hf), hk]
  exact if_pos h0

theorem bseFinal_fail (h1 : 1 ≤ k) (h8 : k ≤ 8) (hd : s.nextDraw = .fails p) :
    exec .bseFinal s = .next (State.raise { s.afterDraw with
      out := s.out.appendAll ((tailBytes s.cfg s.acc k).take (landedBytes p k))
      outLen := s.outLen + BitVec.ofNat 64 (landedBytes p k) } .ioError 1) := by
  have hlen := tailBytes_length s.cfg s.acc k
  have hw := State.memWrite_fail (bs := tailBytes s.cfg s.acc k) (hlen.symm ▸ h1) (hlen.symm ▸ h8) hd
  rw [hlen, afterDraw_appendOut_take (hlen.symm ▸ (landedBytes_lt h1).le)] at hw
  show execBseFinal s = _
  rw [execBseFinal, if_neg (show ¬ Config.wordBits < s.free.toNat from Nat.not_lt.mpr hf), hk]
  simp only [if_neg (Nat.ne_of_gt h1), hw, Access.andThen_halt]

end

/-- Settles O37: nothing to write, and the two outcomes of the write of at most 8 bytes. -/
theorem finalFlushWritesWholeBytes : Obligations.FinalFlushWritesWholeBytes := by
  intro s hf k
  have hk : ceil8 (64 - s.free.toNat) = k := rfl
  have h8 : k ≤ 8 := by omega
  simp only [← tailBytes_eq]
  refine ⟨bseFinal_nothing hf hk, fun h1 hd => ?_, fun p h1 hd => ?_⟩
  · show execBseFinal s = _
    rw [bseFinal_pass hk h1 h8 hf hd, afterDraw_appendOut_eq, tailBytes_length]
    rfl
  · exact ⟨landedBytes p k, landedBytes_lt h1, landedBytes_le p k, bseFinal_fail hf hk h1 h8 hd⟩

end Sys2Proof.Proofs
end

section
/-! The BitStreamDecoder (R175 to R178, R181). A leaf goes on, stops, or fails to append its byte; one bit of the
walk ends as the leaf that it reaches does, or stands at an inner node. -/

namespace Sys2Proof.Proofs

open Sys2Proof.Machine Sys2Proof.Claim

/-! ### `BSD.INIT` (R175) -/

/-- Where the rule states `PREM`, it is what the header leaves of the input. -/
theorem startDecoder_prem_toNat {s : State} (h : headerLen s.n.toNat s.f.toNat ≤ s.inLen.toNat) :
    s.startDecoder.prem.toNat = s.inLen.toNat - headerLen s.n.toNat s.f.toNat ∧
      s.startDecoder.unstated = s.unstated :=
  ⟨State.setPrem_prem_toNat h, State.setPrem_unstated h⟩

section
variable {s : State} {e : NodeEntry} (he : s.nodeAt s.root = some e)
include he

theorem bsdInit_internal (hk : e.kind = .internal) :
    exec .bsdInit s = .next (s.startDecoder.setPhase Phase.bsdFetch) := by
  show execBsdInit s = _
  simp only [execBsdInit, he, hk, reduceCtorEq, if_false]

theorem bsdInit_sentinel (hk : e.kind = .leaf) (hs : e.sym = 0) :
    exec .bsdInit s = .next (s.startDecoder.setPhase Phase.close) := by
  show execBsdInit s = _
  simp only [execBsdInit, he, hk, if_true]
  exact if_pos hs

theorem bsdInit_symbol (hk : e.kind = .leaf) (hs : e.sym ≠ 0) :
    exec .bsdInit s = .next (s.startDecoder.raise .unexpectedEndOfStream 0) := by
  show execBsdInit s = _
  simp only [execBsdInit, he, hk, if_true]
  exact if_neg hs

end

/-- Settles O38: the three kinds of root, each from the same `startDecoder`. -/
theorem decoderStartsAtTheRoot : Obligations.DecoderStartsAtTheRoot := by
  intro s e he header
  cases hk : e.kind with
  | internal =>
    exact ⟨_, bsdInit_internal he hk, startDecoder_prem_toNat, fun _ => rfl, nofun, nofun⟩
  | leaf =>
    by_cases hs : e.sym = 0
    · exact ⟨_, bsdInit_sentinel he hk hs, startDecoder_prem_toNat, nofun, fun _ _ => rfl,
        fun _ h => absurd hs h⟩
    · exact ⟨_, bsdInit_symbol he hk hs, startDecoder_prem_toNat, nofun, fun _ h => absurd h hs,
        fun _ _ => rfl⟩

/-! ### `BSD.FETCH` (R177) -/

theorem bsdFetch_exhausted {s : State} (hp : s.prem = 0) :
    exec .bsdFetch s = .next (s.raise .unexpectedEndOfStream 0) := if_pos hp

section
variable {s : State} {k : Nat} (hp : s.prem ≠ 0) (hk : min 8 s.prem.toNat = k)
include hp hk

/-- With payload left, a record is 1 to 8 bytes. -/
theorem fetchWidth_bounds : 1 ≤ k ∧ k ≤ 8 ∧ k ≤ s.prem.toNat := by
  have h0 : s.prem.toNat ≠ 0 := fun h => hp (BitVec.eq_of_toNat_eq h)
  omega

variable (hr : Readable s s.inPos.toNat k)
include hr

theorem bsdFetch_pass {bs : List Byte} (hd : s.nextDraw = .passes)
    (hb : s.inp.bytesAt s.inPos.toNat k = some bs) :
    exec .bsdFetch s = .next (s.afterDraw.loadWord (deser bs s.cfg.wordOrder) k) := by
  obtain ⟨h1, h8, -⟩ := fetchWidth_bounds hp hk
  show execBsdFetch s = _
  rw [execBsdFetch, if_neg hp]
  simp only [hk, State.memRead_pass h1 h8 hr.1 hr.2 hd hb, Access.andThen_ok, State.afterDraw_cfg]

theorem bsdFetch_fail {p : Nat} (hd : s.nextDraw = .fails p) :
    exec .bsdFetch s = .next (s.afterDraw.raise .ioError 0) := by
  obtain ⟨h1, h8, -⟩ := fetchWidth_bounds hp hk
  show execBsdFetch s = _
  rw [execBsdFetch, if_neg hp]
  simp only [hk, State.memRead_fail h1 h8 hr.1 hr.2 hd, Access.andThen_halt]

end

/-- The bytes of a record, moved up to the top of the word. -/
theorem leftAlign_deser_toNat {bs : List Byte} {k : Nat} (o : ByteOrder) (hn : bs.length = k)
    (hk : k ≤ 8) : (leftAlign (deser bs o) k).toNat = deser bs o * 2 ^ (8 * (8 - k)) := by
  have hlt : deser bs o < 2 ^ (8 * k) := hn ▸ deser_lt bs o
  have hword : (BitVec.ofNat 64 (deser bs o)).toNat = deser bs o := toNat_ofNat_deser o (hn ▸ hk)
  have halign := leftAlign_toNat (v := BitVec.ofNat 64 (deser bs o)) hk (hword.symm ▸ hlt)
  rwa [hword] at halign

/-- The cursor does not wrap over bytes that are readable. -/
theorem inPos_add_toNat {s : State} {k : Nat} (hr : Readable s s.inPos.toNat k) :
    (s.inPos + BitVec.ofNat 64 k).toNat = s.inPos.toNat + k := by
  have hlen := s.inLen.isLt
  obtain ⟨-, hl⟩ := hr
  rw [BitVec.toNat_add, BitVec.toNat_ofNat]
  omega

/-- Settles O39: the exhaustion test, the failed read, and what `loadWord` leaves for the bytes read. -/
theorem fetchLeftAligns : Obligations.FetchLeftAligns := by
  intro s
  refine ⟨bsdFetch_exhausted, fun hp hr => ?_⟩
  intro k
  obtain ⟨-, h8, hleft⟩ := fetchWidth_bounds hp (k := k) rfl
  refine ⟨fun bs hd hb => ?_, fun p => bsdFetch_fail hp rfl hr⟩
  have hrecord : k ≤ s.afterDraw.prem.toNat := by rwa [State.afterDraw_prem]
  obtain ⟨hprem, hunstated⟩ := loadWord_prem_toNat (deser bs s.cfg.wordOrder) hrecord
  refine ⟨_, bsdFetch_pass hp rfl hr hd hb,
    leftAlign_deser_toNat _ (Memory.length_of_bytesAt hb) h8, ?_, ?_, ?_, ?_⟩
  · rw [State.loadWord_nbits, BitVec.toNat_ofNat]
    omega
  · rw [State.loadWord_inPos, State.afterDraw_inPos, inPos_add_toNat hr]
  · rw [hprem, State.afterDraw_prem]
  · have hframe := loadWord_eq s.afterDraw (v := deser bs s.cfg.wordOrder) (k := k) rfl rfl
    rwa [hunstated] at hframe

/-! ### `BSD.LEAF` (R176) -/

section
variable {s : State} {e : NodeEntry}

/-- The byte appended and the walk back at the root, as fields. -/
theorem emitLeaf_appends (he : s.nodeAt s.cur = some e) (hs : e.sym ≠ 0) (hd : s.nextDraw = .passes) :
    emitLeaf s = .ok false { s.afterDraw with
      out := s.out.append e.sym, outLen := s.outLen + 1, cur := s.root } := by
  rw [emitLeaf_pass he hs hd, afterDraw_appendOut_eq]
  rfl

/-- A failed append leaves `OUT` as it was. -/
theorem emitLeaf_raises {p : Nat} (he : s.nodeAt s.cur = some e) (hs : e.sym ≠ 0)
    (hd : s.nextDraw = .fails p) :
    emitLeaf s = .halt (.next (s.afterDraw.raise .ioError 1)) := by
  rw [emitLeaf_symbol he hs, memWrite_byte_fail hd, Access.bind_halt]

theorem bsdLeaf_of_ok {b : Bool} {t : State} (h : emitLeaf s = .ok b t) :
    exec .bsdLeaf s = .next t := by
  show (emitLeaf s).andThen _ = _
  rw [h, Access.andThen_ok]

theorem bsdLeaf_of_halt {r : Result} (h : emitLeaf s = .halt r) : exec .bsdLeaf s = r := by
  show (emitLeaf s).andThen _ = _
  rw [h, Access.andThen_halt]

end

/-- Settles O41: the operation ends as its leaf does. -/
theorem leafEmitsOrStops : Obligations.LeafEmitsOrStops := fun _ _ he =>
  ⟨fun hs => bsdLeaf_of_ok (emitLeaf_sentinel he hs),
    fun hs hd => bsdLeaf_of_ok (emitLeaf_appends he hs hd),
    fun _ hs hd => bsdLeaf_of_halt (emitLeaf_raises he hs hd)⟩

/-! ### `BSD.BIT` (R178) -/

section
variable {s t : State} (hn : s.nbits ≠ 0)
include hn

theorem exec_bsdBit : exec .bsdBit s =
    (walkBit (s.dword.getLsbD 63) s.dropBit).andThen fun stop u =>
      if stop then .next u
      else .next (u.setPhase (if u.nbits = 0 then Phase.bsdFetch else Phase.bsdBit)) := if_neg hn

/-- A walk that goes on: the next word is due when the bit was the last. -/
theorem bsdBit_goesOn (h : walkBit (s.dword.getLsbD 63) s.dropBit = .ok false t) :
    exec .bsdBit s = .next { t with phase := if s.nbits = 1 then 41 else 42 } := by
  have hnbits : t.nbits = s.nbits - 1 := by rw [walkBit_frame h, State.dropBit_nbits]
  have hlast : t.nbits = 0 ↔ s.nbits = 1 := by rw [hnbits, sub_eq_zero]
  rw [exec_bsdBit hn, h, Access.andThen_ok]
  simp only [hlast]
  rfl

theorem bsdBit_stops (h : walkBit (s.dword.getLsbD 63) s.dropBit = .ok true t) :
    exec .bsdBit s = .next t := by
  rw [exec_bsdBit hn, h, Access.andThen_ok, if_pos rfl]

theorem bsdBit_of_halt {r : Result} (h : walkBit (s.dword.getLsbD 63) s.dropBit = .halt r) :
    exec .bsdBit s = r := by
  rw [exec_bsdBit hn, h, Access.andThen_halt]

end

/-- Settles O42: the edge ends at an inner node, or as `BSD.LEAF` does at the leaf below it. -/
theorem bitWalksOneEdge : Obligations.BitWalksOneEdge := by
  intro s e d hn he hk c u p hd
  have hleaf (hdk : d.kind = .leaf) : walkBit (s.dword.getLsbD 63) s.dropBit = emitLeaf u :=
    walkBit_leaf (s := s.dropBit) he hk hd hdk
  exact ⟨fun hdk => bsdBit_goesOn hn (walkBit_inner (s := s.dropBit) he hk hd hdk),
    fun hdk hs => bsdBit_stops hn ((hleaf hdk).trans (emitLeaf_sentinel hd hs)),
    fun hdk hs hpass => bsdBit_goesOn hn ((hleaf hdk).trans (emitLeaf_appends hd hs hpass)),
    fun q hdk hs hfail => bsdBit_of_halt hn ((hleaf hdk).trans (emitLeaf_raises hd hs hfail))⟩

end Sys2Proof.Proofs
end

section
/-! Steps, commands and host reads (R22 to R25, R190 to R200). While the host waits a step is the sequencer's:
the operation of `PHASE`, or nothing; how that operation ends (`exec_effect`) is a transfer of R200's table or
fault entry. A command byte is accepted or ignored; and the host reads what stands in the registers. -/

namespace Sys2Proof.Proofs

open Sys2Proof.Machine Sys2Proof.Claim

/-! ### Steps (R199) -/

section
variable {s t : State} {i : Instr} {e : HostEvent} {rest : List HostEvent}

theorem sequencer_busy (hb : s.status = .busy) (hd : decodePhase s.phase = some i) :
    sequencer s = .run i s := by
  rw [sequencer, if_pos hb]
  simp only [hd]

theorem sequencer_resting (hb : s.status ≠ .busy) : sequencer s = .run .pIdle s := if_neg hb

theorem step_busy (hw : HostWaits s) (hb : s.status = .busy) (hd : decodePhase s.phase = some i) :
    step s = exec i { s with host := tickHost s.host } := by
  rw [step_eq, fetch_waits hw, sequencer_busy (s := { s with host := tickHost s.host }) hb hd]
  rfl

theorem step_resting (hw : HostWaits s) (hb : s.status ≠ .busy) :
    step s = .next { s with host := tickHost s.host } := by
  rw [step_eq, fetch_waits hw, sequencer_resting (s := { s with host := tickHost s.host }) hb]
  rfl

theorem step_due (hh : s.host = e :: rest) (hd : e.due s = true) :
    step s = (deliver e.act { s with host := rest }).outcome := by
  rw [step_eq, fetch, hh]
  simp only [hd, if_true]

theorem decodePhase_isSome : ∀ p ∈ phaseTable.map Prod.fst, (decodePhase p).isSome := by decide

/-- A running command's step that does not stop has run the operation of its phase. -/
theorem exec_of_step_busy (hw : HostWaits s) (hb : s.status = .busy) (h : step s = .next t) :
    ∃ i, decodePhase s.phase = some i ∧ exec i { s with host := tickHost s.host } = .next t := by
  by_cases hp : s.phase ∈ phaseTable.map Prod.fst
  · obtain ⟨i, hd⟩ := Option.isSome_iff_exists.mp (decodePhase_isSome s.phase hp)
    exact ⟨i, hd, step_busy hw hb hd ▸ h⟩
  · cases (step_unusedPhase hw hb hp).symm.trans h

/-- An operation of a phase completes in a phase of R200's table, closes the command, or ends in fault entry. -/
theorem Effect.transfer {p : PhaseCode} (x : Effect i s t) (hi : phaseCode i = some p)
    (hp : p ≠ Phase.idle) : t.phase ∈ successors p ∨ (t.phase = Phase.idle ∧ t.status = .failed) := by
  cases x with
  | completes q _ _ hq hf =>
    obtain ⟨hmem, -⟩ := hf p hi hp
    exact .inl (hq ▸ hmem)
  | closes =>
    cases hi
    exact .inl (List.mem_singleton_self Phase.idle)
  | fails | illegal => exact .inr ⟨rfl, rfl⟩
  | compress | decompress | resets => cases hi

end

/-- Settles O52: the transfer of the operation that the phase selects. -/
theorem phaseTransfersAreListed : Obligations.PhaseTransfersAreListed := by
  intro s t hw hb hp h
  obtain ⟨i, hd, hx⟩ := exec_of_step_busy hw hb h
  exact (exec_effect hx).transfer (phaseCode_of_decodePhase s.phase i hd) hp

/-- Settles O5: the sequencer's operation while the host waits, and the host's own two acts. -/
theorem stepRunsTheDecodedOperation : Obligations.StepRunsTheDecodedOperation := by
  refine ⟨fun s i => step_busy, fun s e rest c m len hh hd ha => ?_, fun s e rest hh hd ha => ?_⟩
  · rw [step_due hh hd, ha]
    rfl
  · rw [step_due hh hd, ha]
    rfl

/-! ### Commands (R190 to R198) -/

section
variable {s : State} {i : Instr} {c : Byte}

theorem illegalCommand_busy (hb : s.status = .busy) : illegalCommand c s = .next s :=
  congrArg Host.Outcome.next (State.accept_busy hb)

theorem illegalCommand_free (hb : s.status ≠ .busy) : illegalCommand c s = .next (s.illegal c) :=
  congrArg Host.Outcome.next (State.accept_free hb)

theorem compress_free (hb : s.status ≠ .busy) :
    exec .compress s = .next (s.startCommand .compress) :=
  congrArg Host.Outcome.next (State.accept_free hb)

theorem decompress_free (hb : s.status ≠ .busy) :
    exec .decompress s = .next (s.startCommand .decompress) :=
  congrArg Host.Outcome.next (State.accept_free hb)

/-- The seven illegal rows are one operation on the byte they stand for (R94, R197). -/
theorem exec_illegal (hi : isIllegal i = true) (hc : cmdByte i = some c) :
    exec i s = illegalCommand c s := by
  cases i with
  | illegal03 | illegal04 | illegal08 | illegal10 | illegal20 | illegal40 | illegal80 => cases hc; rfl
  | _ => cases hi

/-- The rows of the reserved bytes are the illegal ones (R82). -/
theorem isIllegal_of_cmdByte (hc : cmdByte i = some c) (h3 : 3 ≤ c.toNat) : isIllegal i = true :=
  decodeCmd_of_cmdByte hc ▸ isIllegal_decodeCmd c h3

end

/-- Settles O7: neither operation touches the state. -/
theorem nopAndIdleChangeNothing : Obligations.NopAndIdleChangeNothing := fun _ => ⟨rfl, rfl⟩

/-- Settles O8: an accepted command byte is a command start. -/
theorem commandStartSetsTheRegisters : Obligations.CommandStartSetsTheRegisters := fun _ hb =>
  ⟨compress_free hb, decompress_free hb⟩

/-- Settles O9: whatever the byte decodes to is turned away. -/
theorem writeWhileBusyIsIgnored : Obligations.WriteWhileBusyIsIgnored := by
  intro s c hb
  rcases decodeCmd_cases c with hc | hc | hc | ⟨b, hc⟩
  · rw [hc]
    rfl
  · rw [hc, exec_start_busy rfl hb]
  · rw [hc, exec_start_busy rfl hb]
  · rw [hc, illegalCommand_busy hb]

/-- Settles O10: an operation with a reserved byte is an illegal command, accepted. -/
theorem illegalCommandFails : Obligations.IllegalCommandFails := by
  intro s i c hc h3 hb
  rw [exec_illegal (isIllegal_of_cmdByte hc h3) hc, illegalCommand_free hb]
  rfl

/-- Settles O11: the close is these four writes. -/
theorem closeEndsTheCommand : Obligations.CloseEndsTheCommand := fun _ => rfl

/-! ### What the host reads (R19, R22 to R25) -/

theorem status_code_of_table :
    ∀ x ∈ statusTable, x.1.code.setWidth 64 = BitVec.ofNat 64 x.2 := by decide

theorem cause_code_of_table :
    ∀ x ∈ causeTable, x.1.code.setWidth 64 = BitVec.ofNat 64 x.2 := by decide

/-- The word the host reads of `FLAGS` has the three flags at their bits, and no other bit (R25). -/
theorem flags_word (fl : Flags) :
    (fl.bits.setWidth 64).toNat < 8 ∧ (fl.bits.setWidth 64).getLsbD 0 = fl.emptyInput ∧
      (fl.bits.setWidth 64).getLsbD 1 = fl.inOpen ∧ (fl.bits.setWidth 64).getLsbD 2 = fl.outOpen := by
  obtain ⟨emptyInput, inOpen, outOpen⟩ := fl
  revert emptyInput inOpen outOpen
  decide

/-- A space holds no more bytes than there are offsets below its end. -/
theorem length_le_endFrom {lo : Nat} {m : Memory} (hm : m.wfFrom lo = true) :
    lo + m.length ≤ m.endFrom lo := by
  induction m generalizing lo with
  | nil => exact Nat.le_refl _
  | cons c rest ih =>
    simp only [Memory.wfFrom, Bool.and_eq_true, decide_eq_true_eq] at hm
    obtain ⟨hlo, hrest⟩ := hm
    have := ih hrest
    simp only [List.length_cons, Memory.endFrom]
    omega

/-- In a space with as many bytes as offsets, byte `j` stands at offset `j`, both counted from the start: the
first cell cannot stand above the lower bound, since the cells after it would then reach past the end. -/
theorem bytes_getElem?_of_dense {lo : Nat} {m : Memory} (hm : m.wfFrom lo = true)
    (hd : m.endFrom lo = lo + m.length) (j : Nat) : m.bytes[j]? = m.byteAt (lo + j) := by
  induction m generalizing lo j with
  | nil => rfl
  | cons c rest ih =>
    obtain ⟨k, b⟩ := c
    simp only [Memory.wfFrom, Bool.and_eq_true, decide_eq_true_eq] at hm
    obtain ⟨hlo, hrest⟩ := hm
    have hend := length_le_endFrom hrest
    simp only [Memory.endFrom, List.length_cons] at hd
    obtain rfl : k = lo := by omega
    cases j with
    | zero => simp [Memory.bytes, Memory.byteAt]
    | succ j =>
      have htail := ih hrest (by omega) j
      rw [show k + 1 + j = k + (j + 1) by omega] at htail
      simpa [Memory.bytes, Memory.byteAt] using htail

section
variable {s : State}

/-- While a command runs, `STATUS` alone can be read (D36). -/
theorem hostRead_busy (hb : s.status = .busy) {r : HostReg} (hr : r ≠ .status) :
    s.hostRead r = none := by
  cases r with
  | status => exact absurd rfl hr
  | cause | info | flags | n | f | outLen => exact if_pos hb

theorem hostOut_free_getElem? (hb : s.status ≠ .busy) (hwf : s.out.wf = true)
    (hd : s.out.endOff = s.out.length) :
    ∃ bs, s.hostOut = some bs ∧ ∀ j, bs[j]? = s.out.byteAt j := by
  refine ⟨s.out.bytes, if_neg hb, fun j => ?_⟩
  have h := bytes_getElem?_of_dense (lo := 0) hwf (hd.trans (Nat.zero_add _).symm) j
  rwa [Nat.zero_add] at h

end

/-- Settles O6: the step at rest, then each register and `OUT` as the host reads them. -/
theorem idleCoreKeepsWhatTheHostReads : Obligations.IdleCoreKeepsWhatTheHostReads := by
  refine ⟨fun s => step_resting, fun s x hx hs => ?_,
    fun s hb => ⟨fun _ => hostRead_busy hb, if_pos hb⟩, fun s hb => ?_⟩
  · rw [State.hostRead, hs, status_code_of_table x hx]
  · refine ⟨fun x hx hc => ?_, if_neg hb, ⟨_, if_neg hb, flags_word s.flags⟩, if_neg hb, if_neg hb,
      if_neg hb, hostOut_free_getElem? hb⟩
    rw [State.hostRead, if_neg hb, hc, cause_code_of_table x hx]

end Sys2Proof.Proofs
end

section
/-! Fault entry (R220, O13). -/

namespace Sys2Proof.Proofs

open Sys2Proof.Machine

/-- Settles O13: the fields that `raise` writes are those the rule names. -/
theorem faultEntryKeepsTheRest : Obligations.FaultEntryKeepsTheRest := fun _ _ _ => rfl

end Sys2Proof.Proofs
end

section
/-! What a running command needs in the phase it is in (`RunOk`, R225) and how many steps it has left
(`State.stepsLeft`, R250): `PhaseOk` clause by clause, what its clauses see of a state, and R250's counts
phase by phase. -/

namespace Sys2Proof.Machine

open Sys2Proof.Claim Sys2Proof.Proofs

/-! ### The clause of one phase -/

/-- `PhaseOk` says something of the present phase only: the clause of phase `p`. -/
inductive Ready (s : State) : PhaseCode → Prop
  | plain {p : PhaseCode} (hp : p ∈ [Phase.fsClear, Phase.fsCount, Phase.fsSent, Phase.fsCollect,
      Phase.hcGethdr, Phase.bseInit, Phase.close]) : Ready s p
  | getpair (h : 1 ≤ s.n.toNat ∧ s.hcI.toNat ≤ s.n.toNat ∧ WidthOk s ∧
      headerLen s.n.toNat s.f.toNat ≤ s.inLen.toNat ∧
      s.inPos.toNat = headerLen s.hcI.toNat s.f.toNat ∧ ∀ i < s.hcI.toNat, LeafOk s 0 i) :
      Ready s Phase.hcGetpair
  | sort (h : 1 ≤ s.n.toNat ∧ (∀ i < s.n.toNat, LeafOk s 0 i) ∧ HeaderRead s) : Ready s Phase.tbSort
  | sorted (h : 1 ≤ s.n.toNat ∧ (∀ i < s.n.toNat, LeafOk s 0 i) ∧ HeaderRead s) :
      Ready s Phase.tbInit
  | merge (h : MergeOk s ∧ MergeLinked s ∧ 2 ≤ s.items ∧ HeaderRead s) : Ready s Phase.tbMerge
  | rooting (h : MergeOk s ∧ MergeLinked s ∧ s.items = 1 ∧ HeaderRead s) : Ready s Phase.tbRoot
  | clearing (h : TreeOk s) : Ready s Phase.caClear
  | walking (h : TreeOk s ∧ s.caI.toNat ≤ s.n.toNat) : Ready s Phase.caWalk
  | coded (h : TreeOk s) : Ready s Phase.hcWidth
  | header (h : WidthOk s) : Ready s Phase.hcPuthdr
  | putpair (h : WidthOk s ∧ s.hcI.toNat ≤ s.n.toNat) : Ready s Phase.hcPutpair
  | packing (h : FreeBitsZero s) : Ready s Phase.bseSym
  | packed (h : FreeBitsZero s) : Ready s Phase.bseEos
  | flushing (h : FreeBitsZero s) : Ready s Phase.bseFinal
  | decoding (h : TreeOk s ∧ HeaderRead s) : Ready s Phase.bsdInit
  | fetching (h : WalkOk s) : Ready s Phase.bsdFetch
  | bit (h : WalkOk s ∧ 1 ≤ s.nbits.toNat) : Ready s Phase.bsdBit

theorem Ready.phaseOk {s : State} (h : Ready s s.phase) : PhaseOk s := by
  generalize hp : s.phase = p at h
  cases h
  case plain hplain =>
    simp only [List.mem_cons, List.not_mem_nil, or_false] at hplain
    rcases hplain with rfl | rfl | rfl | rfl | rfl | rfl | rfl <;> constructor <;> intro hq <;>
      exact absurd (hp ▸ hq) (by decide)
  all_goals constructor <;> intro hq
  case getpair.getpair h => exact h
  case sort.sort h => exact h
  case sorted.sort h => exact h
  case merge.merge h => exact h
  case rooting.rooting h => exact h
  case clearing.coded h => exact h
  case walking.walking h => exact h
  case coded.coded h => exact h
  case header.header h => exact h
  case putpair.putpair h => exact h
  case packing.packing h => exact h
  case packed.packing h => exact h
  case flushing.packing h => exact h
  case decoding.decoding h => exact h
  case fetching.fetching h => exact h
  case bit.bit h => exact h
  all_goals exact absurd (hp ▸ hq) (by decide)

/-! ### The tree carried over -/

/-- `t` has the entries of `s`, up to the fields that the shape of the tree does not read (R34, R35), and its
`N` and `OP`. -/
structure SameTree (s t : State) : Prop where
  n : t.n = s.n
  op : t.op = s.op
  entry : ∀ (i : Nat) (e : NodeEntry), s.node[i]? = some e → ∃ e' : NodeEntry, t.node[i]? = some e' ∧
    e'.kind = e.kind ∧ e'.parent = e.parent ∧ e'.sym = e.sym ∧ e'.left = e.left ∧ e'.right = e.right

section
variable {s t : State} {top i : Nat}

theorem SameTree.of_node (hn : t.n = s.n) (hop : t.op = s.op) (hnode : t.node = s.node) :
    SameTree s t :=
  ⟨hn, hop, fun _ e he => ⟨e, hnode ▸ he, rfl, rfl, rfl, rfl, rfl⟩⟩

theorem SameTree.leafOk (h : SameTree s t) (hl : LeafOk s top i) : LeafOk t top i := by
  obtain ⟨e, he, hk, hp, hsym⟩ := hl
  obtain ⟨e', he', hk', hp', hsym', -, -⟩ := h.entry i e he
  exact ⟨e', he', by rw [hk', hk], by rwa [hp'], by rwa [h.op, hsym']⟩

theorem SameTree.internalOk (h : SameTree s t) (hi : InternalOk s top i) : InternalOk t top i := by
  obtain ⟨e, he, hk, hleft, hright, hp⟩ := hi
  obtain ⟨e', he', hk', hp', -, hleft', hright'⟩ := h.entry i e he
  exact ⟨e', he', by rw [hk', hk], by rwa [hleft'], by rwa [hright'], by rwa [hp']⟩

theorem SameTree.loose (h : SameTree s t) (hl : Loose s i) : Loose t i := by
  obtain ⟨e, he, hp⟩ := hl
  obtain ⟨e', he', -, hp', -⟩ := h.entry i e he
  exact ⟨e', he', by rw [hp', hp]⟩

theorem SameTree.joined (h : SameTree s t) (hj : Joined s top i) : Joined t top i := by
  obtain ⟨e, p, he, hup, hbelow, hpe, hk, hne, hchild⟩ := hj
  obtain ⟨e', he', -, hp', -⟩ := h.entry i e he
  obtain ⟨p', hpe', hk', -, -, hleft', hright'⟩ := h.entry _ p hpe
  exact ⟨e', p', he', by rwa [hp'], by rwa [hp'], by rwa [hp'], by rw [hk', hk],
    by rwa [hleft', hright'], by rwa [hleft', hright']⟩

theorem SameTree.forestOk (h : SameTree s t) (hf : ForestOk s top) : ForestOk t top where
  leaves j hj := h.leafOk (hf.leaves j (h.n ▸ hj))
  internals j hj hlt := h.internalOk (hf.internals j (h.n ▸ hj) hlt)

theorem SameTree.treeOk (h : SameTree s t) (hroot : t.root = s.root) (ht : TreeOk s) : TreeOk t where
  some := h.n ▸ ht.some
  forest := h.n ▸ h.forestOk ht.forest
  root := by rw [hroot, h.n, ht.root]
  top := h.n ▸ h.loose ht.top
  joined j hj := h.n ▸ h.joined (ht.joined j (h.n ▸ hj))

/-- The header that has been read stays read where its registers and the cursor stay. -/
theorem headerRead_of_eq (hh : HeaderRead s) (hop : t.op = s.op) (hn : t.n = s.n) (hf : t.f = s.f)
    (hlen : t.inLen = s.inLen) (hpos : t.inPos = s.inPos) : HeaderRead t := by
  rw [HeaderRead, WidthOk, hop, hn, hf, hlen, hpos]
  exact hh

/-- The needs of a phase do not depend on what the host plans and holds out. -/
theorem PhaseOk.withHost (h : PhaseOk s) (plan : List HostEvent) (o : Offer) :
    PhaseOk { s with host := plan, offer := o } :=
  have same : SameTree s { s with host := plan, offer := o } := .of_node rfl rfl rfl
  have merged (hm : MergeOk s) : MergeOk { s with host := plan, offer := o } :=
    { hm with forest := same.forestOk hm.forest }
  have linked (hl : MergeLinked s) : MergeLinked { s with host := plan, offer := o } := { hl with }
  have walks (hw : WalkOk s) : WalkOk { s with host := plan, offer := o } :=
    { hw with tree := same.treeOk rfl hw.tree }
  { h with
    merge := fun hp => ⟨merged (h.merge hp).1, linked (h.merge hp).2.1, (h.merge hp).2.2⟩
    rooting := fun hp => ⟨merged (h.rooting hp).1, linked (h.rooting hp).2.1, (h.rooting hp).2.2⟩
    coded := fun hp => same.treeOk rfl (h.coded hp)
    walking := fun hp => (h.walking hp).imp_left (same.treeOk rfl)
    decoding := fun hp => (h.decoding hp).imp_left (same.treeOk rfl)
    fetching := fun hp => walks (h.fetching hp)
    bit := fun hp => (h.bit hp).imp_left walks }

end

/-! ### The steps left, phase by phase (R250) -/

/-- The steps from `TB.ROOT` on (R194, R195). -/
def State.treeSteps (s : State) (n f : Nat) : Nat :=
  if s.op = .compress then 2 * n + s.inLen.toNat + 11
  else payloadSteps (s.inLen.toNat - headerLen n f) + 2

section
variable {s : State} {n f : Nat}

theorem stepsLeft_fsClear (hp : s.phase = Phase.fsClear) :
    s.stepsLeft n f = 2 * s.inLen.toNat + 3 * n + 16 := by rw [State.stepsLeft, hp]; rfl

theorem stepsLeft_fsCount (hp : s.phase = Phase.fsCount) :
    s.stepsLeft n f = (s.inLen.toNat - s.inPos.toNat) + s.inLen.toNat + 3 * n + 15 := by
  rw [State.stepsLeft, hp]; rfl

theorem stepsLeft_fsSent (hp : s.phase = Phase.fsSent) :
    s.stepsLeft n f = s.inLen.toNat + 3 * n + 14 := by rw [State.stepsLeft, hp]; rfl

theorem stepsLeft_fsCollect (hp : s.phase = Phase.fsCollect) :
    s.stepsLeft n f = s.inLen.toNat + 3 * n + 13 := by rw [State.stepsLeft, hp]; rfl

theorem stepsLeft_hcGethdr (hp : s.phase = Phase.hcGethdr) :
    s.stepsLeft n f = 2 * n + payloadSteps (s.inLen.toNat - headerLen n f) + 5 := by
  rw [State.stepsLeft, hp]; rfl

theorem stepsLeft_hcGetpair (hp : s.phase = Phase.hcGetpair) :
    s.stepsLeft n f =
      (n - s.hcI.toNat) + n + payloadSteps (s.inLen.toNat - headerLen n f) + 4 := by
  rw [State.stepsLeft, hp]; rfl

theorem stepsLeft_tbSort (hp : s.phase = Phase.tbSort) :
    s.stepsLeft n f = n + s.treeSteps n f + 1 := by rw [State.stepsLeft, hp]; rfl

theorem stepsLeft_tbInit (hp : s.phase = Phase.tbInit) : s.stepsLeft n f = n + s.treeSteps n f := by
  rw [State.stepsLeft, hp]; rfl

theorem stepsLeft_tbMerge (hp : s.phase = Phase.tbMerge) :
    s.stepsLeft n f = s.items - 1 + s.treeSteps n f := by rw [State.stepsLeft, hp]; rfl

theorem stepsLeft_tbRoot (hp : s.phase = Phase.tbRoot) : s.stepsLeft n f = s.treeSteps n f := by
  rw [State.stepsLeft, hp]; rfl

theorem stepsLeft_caClear (hp : s.phase = Phase.caClear) :
    s.stepsLeft n f = 2 * n + s.inLen.toNat + 10 := by rw [State.stepsLeft, hp]; rfl

theorem stepsLeft_caWalk (hp : s.phase = Phase.caWalk) :
    s.stepsLeft n f = (n - s.caI.toNat) + n + s.inLen.toNat + 9 := by rw [State.stepsLeft, hp]; rfl

theorem stepsLeft_hcWidth (hp : s.phase = Phase.hcWidth) :
    s.stepsLeft n f = n + s.inLen.toNat + 8 := by rw [State.stepsLeft, hp]; rfl

theorem stepsLeft_hcPuthdr (hp : s.phase = Phase.hcPuthdr) :
    s.stepsLeft n f = n + s.inLen.toNat + 7 := by rw [State.stepsLeft, hp]; rfl

theorem stepsLeft_hcPutpair (hp : s.phase = Phase.hcPutpair) :
    s.stepsLeft n f = (n - s.hcI.toNat) + s.inLen.toNat + 6 := by rw [State.stepsLeft, hp]; rfl

theorem stepsLeft_bseInit (hp : s.phase = Phase.bseInit) : s.stepsLeft n f = s.inLen.toNat + 5 := by
  rw [State.stepsLeft, hp]; rfl

theorem stepsLeft_bseSym (hp : s.phase = Phase.bseSym) :
    s.stepsLeft n f = (s.inLen.toNat - s.inPos.toNat) + 4 := by rw [State.stepsLeft, hp]; rfl

theorem stepsLeft_bseEos (hp : s.phase = Phase.bseEos) : s.stepsLeft n f = 3 := by
  rw [State.stepsLeft, hp]; rfl

theorem stepsLeft_bseFinal (hp : s.phase = Phase.bseFinal) : s.stepsLeft n f = 2 := by
  rw [State.stepsLeft, hp]; rfl

theorem stepsLeft_bsdInit (hp : s.phase = Phase.bsdInit) :
    s.stepsLeft n f = payloadSteps (s.inLen.toNat - headerLen n f) + 1 := by
  rw [State.stepsLeft, hp]; rfl

theorem stepsLeft_bsdFetch (hp : s.phase = Phase.bsdFetch) :
    s.stepsLeft n f = payloadSteps s.prem.toNat := by rw [State.stepsLeft, hp]; rfl

theorem stepsLeft_bsdBit (hp : s.phase = Phase.bsdBit) :
    s.stepsLeft n f = s.nbits.toNat + payloadSteps s.prem.toNat := by rw [State.stepsLeft, hp]; rfl

theorem stepsLeft_close (hp : s.phase = Phase.close) : s.stepsLeft n f = 1 := by
  rw [State.stepsLeft, hp]; rfl

end

end Sys2Proof.Machine
end

section
/-! The step of a running command in a state that meets `RunOk` (R225, R250), phase by phase: the operation
answers a next state; if the command runs on there, what the next phase needs is there, and there is a step
less to go. -/

namespace Sys2Proof.Machine

open Sys2Proof.Claim Sys2Proof.Proofs

/-! ### What a step must come to -/

/-- The phases before the operation that finds `N` (R113, R150). -/
def uncountedPhases : List PhaseCode :=
  [Phase.fsClear, Phase.fsCount, Phase.fsSent, Phase.fsCollect, Phase.hcGethdr]

/-- `n` and `f` can be the `N` and, in a DECOMPRESS, the `F` at the end of the run: they are the state's own
once the command has found them. -/
def MayEndWith (s : State) (n : Byte) (f : FieldWidth) : Prop :=
  s.phase ∈ uncountedPhases ∨ (n = s.n ∧ (s.op = .compress ∨ f = s.f))

/-- The next state of a running command that runs on. -/
structure GoesOn (s t : State) : Prop where
  ready : Ready t t.phase
  nearer : ∀ n f, MayEndWith s n f →
    t.stepsLeft n.toNat f.toNat + 1 ≤ s.stepsLeft n.toNat f.toNat

/-- An operation that does not stop, and after which a command that runs on is nearer to its end. -/
def Advances (s : State) (r : Result) : Prop :=
  ∃ t, r = .next t ∧ (t.status = .busy → GoesOn s t)

theorem GoesOn.of_phase {s t : State} (q : PhaseCode) (hq : t.phase = q) (hr : Ready t q)
    (hc : ∀ n f, MayEndWith s n f →
      t.stepsLeft n.toNat f.toNat + 1 ≤ s.stepsLeft n.toNat f.toNat) : GoesOn s t :=
  ⟨hq ▸ hr, hc⟩

theorem MayEndWith.counted {s : State} {n : Byte} {f : FieldWidth} (h : MayEndWith s n f)
    (hp : s.phase ∉ uncountedPhases) : n = s.n ∧ (s.op = .compress ∨ f = s.f) :=
  h.resolve_left hp

/-! ### Parts of operations -/

section
variable {s t : State}

/-- A read below `IN_LEN` of an input that covers it does not stop. -/
theorem memRead_andThen_total {a n : Nat} {k : List Byte → State → Result} (h1 : 1 ≤ n) (h8 : n ≤ 8)
    (ho : s.flags.inOpen = true) (hin : s.inp.covers s.inLen) (hl : a + n ≤ s.inLen.toNat)
    (hk : ∀ bs, ∃ t, k bs s.afterDraw = .next t) : ∃ t, (s.memRead a n).andThen k = .next t := by
  rcases State.memRead_total h1 h8 ho hl fun j hj => hin _ (by omega) with ⟨bs, -, -, h⟩ | h
  · rw [h]
    exact hk bs
  · rw [h]
    exact ⟨_, rfl⟩

theorem memWrite_andThen_total {bs : List Byte} {k : Unit → State → Result} (h1 : 1 ≤ bs.length)
    (h8 : bs.length ≤ 8) (hk : ∃ t, k () (s.afterDraw.appendOut bs) = .next t) :
    ∃ t, (s.memWrite bs).andThen k = .next t := by
  rcases State.memWrite_total h1 h8 with h | ⟨u, h⟩
  · rw [h]
    exact hk
  · rw [h]
    exact ⟨_, rfl⟩

theorem putCode_andThen_total {v : Word} {l : Len} {k : Unit → State → Result}
    (hf : s.free.toNat ≤ 64) (hv : codeFits v l = true) (hk : ∀ u, ∃ t, k () u = .next t) :
    ∃ t, (putCode v l s).andThen k = .next t := by
  rcases putCode_total hf hv with ⟨u, h⟩ | ⟨u, h⟩
  · rw [h]
    exact hk u
  · rw [h]
    exact ⟨_, rfl⟩

/-- An index below a count of symbols has a successor. -/
theorem idx_succ_toNat {i : Idx} {n : Byte} (h : i.toNat < n.toNat) :
    (i + 1).toNat = i.toNat + 1 := by
  have := n.isLt
  bv_omega

/-- The cursor does not wrap below `IN_LEN`. -/
theorem inPos_succ_toNat {p l : Word} (h : p.toNat + 1 ≤ l.toNat) : (p + 1).toNat = p.toNat + 1 := by
  bv_omega

/-- A phase that no DECOMPRESS has is one of a COMPRESS. -/
theorem op_eq_compress {op : Op} {p : PhaseCode} (h : p ∈ op.phases) (hd : p ∉ Op.decompress.phases) :
    op = .compress := by
  cases op with
  | none => cases h
  | compress => rfl
  | decompress => exact absurd h hd

theorem op_eq_decompress {op : Op} {p : PhaseCode} (h : p ∈ op.phases)
    (hc : p ∉ Op.compress.phases) : op = .decompress := by
  cases op with
  | none => cases h
  | compress => exact absurd h hc
  | decompress => rfl

/-- Between the ends of the input there is a byte to read. -/
theorem RunOk.inPos_succ_le (hs : RunOk s) (hp : s.inPos ≠ s.inLen) :
    s.inPos.toNat + 1 ≤ s.inLen.toNat :=
  Nat.lt_of_le_of_ne hs.control.cursor fun h => hp (BitVec.eq_of_toNat_eq h)

theorem RunOk.inOpen (hs : RunOk s) (hb : s.status = .busy) : s.flags.inOpen = true :=
  (hs.control.running hb).2.1

theorem RunOk.phase_mem (hs : RunOk s) (hb : s.status = .busy) {p : PhaseCode} (hp : s.phase = p) :
    p ∈ s.op.phases := hp ▸ (hs.control.running hb).1

/-! ### FrequencyScanner (R110 to R113) -/

theorem fsClear_advances (hp : s.phase = Phase.fsClear) : Advances s (execFsClear s) :=
  ⟨_, rfl, fun _ => .of_phase Phase.fsCount rfl (.plain (by decide)) fun n f _ => by
    rw [stepsLeft_fsClear hp, stepsLeft_fsCount rfl]
    dsimp only [BitVec.toNat_ofNat, Nat.zero_mod]
    omega⟩

theorem execFsCount_total (hs : RunOk s) (hb : s.status = .busy) : ∃ t, execFsCount s = .next t := by
  unfold execFsCount
  split
  · exact ⟨_, rfl⟩
  next hp =>
    refine memRead_andThen_total le_rfl (by decide) (hs.inOpen hb) (hs.input hb)
      (hs.inPos_succ_le hp) fun bs => ?_
    dsimp only
    split <;> exact ⟨_, rfl⟩

theorem fsCount_advances (hs : RunOk s) (hb : s.status = .busy) (hp : s.phase = Phase.fsCount) :
    Advances s (execFsCount s) := by
  obtain ⟨t, ht⟩ := execFsCount_total hs hb
  refine ⟨t, ht, fun htb => ?_⟩
  rcases execFsCount_cases ht with ⟨hend, rfl⟩ | ⟨-, rfl⟩ | ⟨b, -, -, hl, ⟨-, rfl⟩ | ⟨-, rfl⟩⟩
  · refine .of_phase Phase.fsSent rfl (.plain (by decide)) fun n f _ => ?_
    rw [stepsLeft_fsCount hp, stepsLeft_fsSent rfl, State.setPhase_inLen]
    omega
  · cases htb
  · cases htb
  · refine .of_phase Phase.fsCount rfl (.plain (by decide)) fun n f _ => ?_
    rw [stepsLeft_fsCount hp, stepsLeft_fsCount rfl]
    simp only [State.countSym_inLen, State.afterDraw_inLen, inPos_succ_toNat hl]
    omega

theorem fsSent_advances (hp : s.phase = Phase.fsSent) : Advances s (execFsSent s) :=
  ⟨_, rfl, fun _ => .of_phase Phase.fsCollect rfl (.plain (by decide)) fun n f _ => by
    rw [stepsLeft_fsSent hp, stepsLeft_fsCollect rfl]
    exact le_rfl⟩

/-- What the scan lists becomes leaves without a parent, of symbols of at most 127. -/
theorem leafOk_placeLeaves {l : List (Byte × Word)} (hsym : ∀ x ∈ l, x.1.toNat < 128)
    (ht : t.node = placeLeaves l 0 s.node) {i : Nat} (hi : i < l.length) (hi' : i < 509) :
    LeafOk t 0 i := by
  obtain ⟨x, hx⟩ : ∃ x, l[i]? = some x := ⟨l[i], List.getElem?_eq_getElem hi⟩
  obtain ⟨e, he⟩ : ∃ e, s.node[i]? = some e := ⟨s.node[i], Vector.getElem?_eq_getElem hi'⟩
  have hnode : t.node[i]? = some (e.asLeaf x.1 x.2) := by
    rw [ht, placeLeaves_getElem?, if_neg (Nat.not_lt_zero i), Nat.sub_zero, hx, he]
    rfl
  exact ⟨_, hnode, rfl, .inl rfl, fun _ => Nat.le_of_lt_succ (hsym x (List.mem_of_getElem? hx))⟩

theorem fsCollect_advances (hs : RunOk s) (hb : s.status = .busy) (hp : s.phase = Phase.fsCollect) :
    Advances s (execFsCollect s) := by
  have hop : s.op = .compress := op_eq_compress (hs.phase_mem hb hp) (by decide)
  obtain ⟨t, ht⟩ : ∃ t, execFsCollect s = .next t := ⟨_, rfl⟩
  refine ⟨t, ht, fun htb => ?_⟩
  rcases execFsCollect_cases ht with ⟨-, rfl⟩ | ⟨hne, hle, htd⟩
  · cases htb
  · have hn : t.n.toNat = (scanLeaves s.cnt).length := by
      rw [htd, BitVec.toNat_ofNat, Nat.mod_eq_of_lt (by omega)]
    have hsome := List.length_pos_iff.mpr hne
    have htop : t.op = .compress := by rw [htd, hop]
    refine .of_phase Phase.tbSort (by rw [htd])
      (.sort ⟨by omega, fun i hi => ?_, fun hd => nomatch htop.symm.trans hd⟩) fun n f _ => ?_
    · exact leafOk_placeLeaves (fun _ => scanLeaves_sym_lt) (by rw [htd]) (hn ▸ hi) (by omega)
    · rw [stepsLeft_fsCollect hp, stepsLeft_tbSort (by rw [htd]), State.treeSteps, if_pos htop, htd]
      dsimp only
      omega

/-! ### `TB.SORT` and `TB.INIT` (R121, R123) -/

/-- The sort moves the leaves among themselves. -/
theorem leafOk_sorted (ht : execTbSort s = .next t) {top : Nat}
    (hl : ∀ i < s.n.toNat, LeafOk s top i) {i : Nat} (hi : i < s.n.toNat) : LeafOk t top i := by
  obtain ⟨hleaves, -⟩ := execTbSort_leaves ht
  obtain rfl := execTbSort_cases ht
  obtain ⟨e, he⟩ : ∃ e, (sortEntries s.leaves)[i]? = some e :=
    ⟨_, List.getElem?_eq_getElem (by rwa [sortEntries_length, State.leaves_length])⟩
  obtain ⟨j, hj⟩ := List.mem_iff_getElem?.mp (mem_sortEntries.mp (List.mem_of_getElem? he))
  rw [State.leaves_getElem?] at hj
  split at hj
  next hjn =>
    obtain ⟨e', he', hrest⟩ := hl j hjn
    obtain rfl : e = e' := Option.some.inj (hj.symm.trans he')
    rw [← hleaves, State.leaves_getElem?, if_pos hi] at he
    exact ⟨e, he, hrest⟩
  · cases hj

theorem tbSort_advances (hs : RunOk s) (hb : s.status = .busy) (hp : s.phase = Phase.tbSort) :
    Advances s (execTbSort s) := by
  obtain ⟨hn, hl, hh⟩ := (hs.phases hb).sort (.inl hp)
  obtain ⟨t, ht⟩ : ∃ t, execTbSort s = .next t := ⟨_, rfl⟩
  refine ⟨t, ht, fun _ => ?_⟩
  have hleaves (i : Nat) (hi : i < s.n.toNat) := leafOk_sorted ht hl hi
  obtain rfl := execTbSort_cases ht
  refine .of_phase Phase.tbInit rfl (.sorted ⟨hn, hleaves, hh⟩) fun n f _ => ?_
  rw [stepsLeft_tbSort hp, stepsLeft_tbInit rfl]
  exact le_rfl

theorem loose_of_leafOk {i : Nat} (h : LeafOk s 0 i) : Loose s i := by
  obtain ⟨e, he, -, hp, -⟩ := h
  exact ⟨e, he, hp.resolve_right (Nat.not_lt_zero _)⟩

theorem leafOk_mono {top top' i : Nat} (h : LeafOk s top i) (hle : top ≤ top') : LeafOk s top' i := by
  obtain ⟨e, he, hk, hp, hsym⟩ := h
  exact ⟨e, he, hk, hp.imp_right (Nat.lt_of_lt_of_le · hle), hsym⟩

/-- A merge of leaves that has joined none of them. -/
theorem mergeOk_start (hn : 1 ≤ s.n.toNat) (hl : ∀ i < s.n.toNat, LeafOk s 0 i)
    (hlrem : s.lrem.toNat = s.n.toNat) (hqh : s.qh.toNat = s.n.toNat) (hnt : s.nt.toNat = s.n.toNat) :
    MergeOk s where
  some := hn
  left := hlrem.le
  queue := ⟨hqh.ge, by omega⟩
  count := by omega
  forest := ⟨fun i hi => leafOk_mono (hl i hi) (Nat.zero_le _), fun i _ _ => by omega⟩

theorem mergeLinked_start (hl : ∀ i < s.n.toNat, LeafOk s 0 i) (hlrem : s.lrem.toNat = s.n.toNat)
    (hqh : s.qh.toNat = s.n.toNat) (hnt : s.nt.toNat = s.n.toNat) : MergeLinked s where
  untaken i hi := loose_of_leafOk (hl i (hlrem ▸ hi))
  taken i _ _ := by omega
  attached i _ _ := by omega
  pending i _ _ := by omega
  last _ := by omega

theorem tbInit_advances (hs : RunOk s) (hb : s.status = .busy) (hp : s.phase = Phase.tbInit) :
    Advances s (execTbInit s) := by
  obtain ⟨hn, hl, hh⟩ := (hs.phases hb).sort (.inr hp)
  have hwide : (s.n.setWidth 9).toNat = s.n.toNat := BitVec.toNat_setWidth_of_le (by decide)
  obtain ⟨t, ht⟩ : ∃ t, execTbInit s = .next t := ⟨_, rfl⟩
  refine ⟨t, ht, fun _ => ?_⟩
  have htd := execTbInit_cases ht
  have hlrem : t.lrem.toNat = t.n.toNat := by rw [htd, hwide]
  have hqh : t.qh.toNat = t.n.toNat := by rw [htd, hwide]
  have hnt : t.nt.toNat = t.n.toNat := by rw [htd, hwide]
  have hitems : t.items = s.n.toNat := by rw [State.items, hlrem, hqh, hnt, htd, Nat.add_sub_cancel]
  have hl' : ∀ i < t.n.toNat, LeafOk t 0 i := by rw [htd]; exact hl
  have hm : MergeOk t := mergeOk_start (by rw [htd]; exact hn) hl' hlrem hqh hnt
  have hk : MergeLinked t := mergeLinked_start hl' hlrem hqh hnt
  have hh' : HeaderRead t := by rw [htd]; exact hh
  have htree (n f : Nat) : t.treeSteps n f = s.treeSteps n f := by rw [htd]; rfl
  by_cases h2 : 2 ≤ s.n.toNat
  · have hq : t.phase = Phase.tbMerge := by rw [htd]; exact if_pos h2
    refine .of_phase _ hq (.merge ⟨hm, hk, by omega, hh'⟩) fun n f hend => ?_
    obtain ⟨rfl, -⟩ := hend.counted (by rw [hp]; decide)
    rw [stepsLeft_tbInit hp, stepsLeft_tbMerge hq, hitems, htree]
    omega
  · have hq : t.phase = Phase.tbRoot := by rw [htd]; exact if_neg h2
    refine .of_phase _ hq (.rooting ⟨hm, hk, by omega, hh'⟩) fun n f hend => ?_
    obtain ⟨rfl, -⟩ := hend.counted (by rw [hp]; decide)
    rw [stepsLeft_tbInit hp, stepsLeft_tbRoot hq, htree]
    omega

end

end Sys2Proof.Machine
end

section
/-! `TB.MERGE` and `TB.ROOT` in a running command (R125 to R127, R35): one merge gives the two items it takes
their parent, the new node, and leaves every other entry; so what has been joined stays joined, and with one
item left the entries are the finished tree. -/

namespace Sys2Proof.Machine

open Sys2Proof.Claim Sys2Proof.Proofs

/-! ### What an operation of a phase keeps -/

section
variable {i : Instr} {p : PhaseCode} {s t : State}

/-- An operation with a phase is no command and no `RESET`. -/
theorem no_command_of_phaseCode (hi : phaseCode i = some p) :
    starts i = false ∧ i ≠ .reset ∧ isIllegal i = false := by
  cases i with
  | compress | decompress | reset | illegal03 | illegal04 | illegal08 | illegal10 | illegal20
  | illegal40 | illegal80 => cases hi
  | _ => exact ⟨rfl, nofun, rfl⟩

theorem phase_keeps_op (h : exec i s = .next t) (hi : phaseCode i = some p) : t.op = s.op := by
  obtain ⟨hs, hr, hill⟩ := no_command_of_phaseCode hi
  exact (exec_effect h).op hs hr hill

theorem phase_keeps_inLen (h : exec i s = .next t) (hi : phaseCode i = some p) : t.inLen = s.inLen := by
  obtain ⟨hs, hr, -⟩ := no_command_of_phaseCode hi
  exact ((exec_effect h).inLen_emptyInput hs hr).1

theorem phase_keeps_tree (h : exec i s = .next t) (hi : phaseCode i = some p)
    (hn : writesN i = false) (hnode : writesNode i = false) : SameTree s t :=
  .of_node ((exec_effect h).keeps.n hn) (phase_keeps_op h hi) ((exec_effect h).keeps.node hnode)

theorem phase_keeps_header (h : exec i s = .next t) (hi : phaseCode i = some p)
    (hn : writesN i = false) (hf : writesF i = false) (hpos : writesInPos i = false)
    (hh : HeaderRead s) : HeaderRead t :=
  have k := (exec_effect h).keeps
  headerRead_of_eq hh (phase_keeps_op h hi) (k.n hn) (k.f hf) (phase_keeps_inLen h hi) (k.inPos hpos)

/-- The steps from `TB.ROOT` on do not change with the operations before it. -/
theorem phase_keeps_treeSteps (h : exec i s = .next t) (hi : phaseCode i = some p) (n f : Nat) :
    t.treeSteps n f = s.treeSteps n f := by
  rw [State.treeSteps, State.treeSteps, phase_keeps_op h hi, phase_keeps_inLen h hi]

end

/-! ### One merge -/

/-- One `TB.MERGE` of the entries `a` and `b`, by its cursors and by the entries below the new tail. -/
structure Merges (s t : State) (a b : Nat) : Prop where
  n : t.n = s.n
  op : t.op = s.op
  nt : t.nt.toNat = s.nt.toNat + 1
  lrem_le : t.lrem.toNat ≤ s.lrem.toNat
  qh_le : s.qh.toNat ≤ t.qh.toNat
  qh_le_nt : t.qh.toNat ≤ s.nt.toNat
  /-- The cursors have passed two entries, -/
  two : s.lrem.toNat + t.qh.toNat = t.lrem.toNat + s.qh.toNat + 2
  /-- which are the items. -/
  passed : ∀ i, (t.lrem.toNat ≤ i ∧ i < s.lrem.toNat) ∨ (s.qh.toNat ≤ i ∧ i < t.qh.toNat) ↔
    i = a ∨ i = b
  ne : a ≠ b
  /-- The new node. -/
  made : ∃ e : NodeEntry, t.node[s.nt.toNat]? = some e ∧ e.kind = .internal ∧ e.left.toNat = a ∧
    e.right.toNat = b ∧ e.parent = Config.none
  /-- An item's entry: the new node is its parent. -/
  item : ∀ i e, i = a ∨ i = b → s.node[i]? = some e → t.node[i]? = some { e with parent := s.nt }
  other : ∀ i, i < s.nt.toNat → ¬(i = a ∨ i = b) → t.node[i]? = s.node[i]?

section
variable {s t : State} {a b : Nat}

/-- The entry that an index below `2 ^ 9` stands for. -/
theorem nodeAt_ofNat (s : State) {i : Nat} (hi : i < 512) :
    s.nodeAt (BitVec.ofNat 9 i) = s.node[i]? := by
  rw [State.nodeAt, BitVec.toNat_ofNat, Nat.mod_eq_of_lt hi]

theorem idx_ofNat_eq_iff {i : Nat} (hi : i < 512) (j : Idx) : BitVec.ofNat 9 i = j ↔ i = j.toNat := by
  rw [← BitVec.toNat_inj, BitVec.toNat_ofNat, Nat.mod_eq_of_lt hi]

theorem takes_n (h : Takes s t) : t.n = s.n := by
  rw [h.frame]

theorem takes_op (h : Takes s t) : t.op = s.op := by
  rw [h.frame]

/-- The items left, and the cursors that counted them: one cursor has moved by one (R124). -/
theorem takes_one (h : Takes s t) : s.lrem.toNat + t.qh.toNat = t.lrem.toNat + s.qh.toNat + 1 := by
  have hitems := h.items
  have hpending := h.cursors.pending
  have hlrem := h.lrem_le
  have hqh := h.qh_le
  rw [State.items, State.items, h.nt] at hitems
  rw [h.nt] at hpending
  omega

/-- An item taken is the one entry that the cursors have passed. -/
theorem takes_passed_iff (h : Takes s t) (i : Nat) :
    (t.lrem.toNat ≤ i ∧ i < s.lrem.toNat) ∨ (s.qh.toNat ≤ i ∧ i < t.qh.toNat) ↔
      i = t.sel.toNat := by
  have hone := takes_one h
  have hlrem := h.lrem_le
  have hqh := h.qh_le
  have hpassed := h.passed
  omega

section
variable {s1 s2 : State} (h1 : Takes s s1) (h2 : Takes s1 s2)
include h1 h2

/-- Two items taken are the two entries that the cursors have passed. -/
theorem takes_passed_two_iff (i : Nat) :
    (s2.lrem.toNat ≤ i ∧ i < s.lrem.toNat) ∨ (s.qh.toNat ≤ i ∧ i < s2.qh.toNat) ↔
      i = s1.sel.toNat ∨ i = s2.sel.toNat := by
  have hlrem1 := h1.lrem_le
  have hlrem2 := h2.lrem_le
  have hqh1 := h1.qh_le
  have hqh2 := h2.qh_le
  rw [← takes_passed_iff h1, ← takes_passed_iff h2]
  omega

/-- The join of two items taken, entry by entry. -/
theorem join_getElem? (hc : CursorsOk s) (x y : Word) {i : Nat} (hi : i < 512) :
    (s2.join s1.sel s2.sel x y).afterJoin.node[i]? =
      if i = s.nt.toNat then s.node[i]?.map fun e => e.asInternal (x + y) s1.sel s2.sel
      else if i = s1.sel.toNat ∨ i = s2.sel.toNat then
        s.node[i]?.map fun e => { e with parent := s.nt }
      else s.node[i]? := by
  have hjoin := nodeAt_afterJoin_of_takes h1 h2 hc x y (BitVec.ofNat 9 i)
  simpa only [nodeAt_ofNat _ hi, idx_ofNat_eq_iff hi] using hjoin

/-- Two takes in a row and the join of what they took. -/
theorem merges_of_takes (hc : CursorsOk s) (x y : Word) :
    Merges s (s2.join s1.sel s2.sel x y).afterJoin s1.sel.toNat s2.sel.toNat := by
  have hstore := hc.store
  have hpending : s2.qh.toNat ≤ s.nt.toNat := by
    rw [← h1.nt, ← h2.nt]
    exact h2.cursors.pending
  have hnt : (s2.nt + 1).toNat = s.nt.toNat + 1 := by
    rw [h2.nt, h1.nt]
    bv_omega
  have hsel1 : s1.sel.toNat < s.nt.toNat := BitVec.lt_def.mp (h1.sel_lt hc)
  have hsel2 : s2.sel.toNat < s.nt.toNat := h1.nt ▸ BitVec.lt_def.mp (h2.sel_lt h1.cursors)
  have entry {i : Nat} (hi : i < 512) := join_getElem? h1 h2 hc x y hi
  obtain ⟨v, hv⟩ := join_eq s2 s1.sel s2.sel x y
  have hframe := afterJoin_frame hv
  generalize (s2.join s1.sel s2.sel x y).afterJoin = t at hframe entry ⊢
  have hlrem : t.lrem = s2.lrem := by rw [hframe]
  have hqh : t.qh = s2.qh := by rw [hframe]
  constructor
  case n => rw [hframe, ← takes_n h1, ← takes_n h2]
  case op => rw [hframe, ← takes_op h1, ← takes_op h2]
  case nt => rw [hframe, hnt]
  case lrem_le => exact hlrem ▸ h2.lrem_le.trans h1.lrem_le
  case qh_le => exact hqh ▸ h1.qh_le.trans h2.qh_le
  case qh_le_nt => exact hqh ▸ hpending
  case two =>
    have hone1 := takes_one h1
    have hone2 := takes_one h2
    rw [hlrem, hqh]
    omega
  case passed =>
    rw [hlrem, hqh]
    exact takes_passed_two_iff h1 h2
  case ne => exact fun heq => h1.sel_ne h2 hc (BitVec.eq_of_toNat_eq heq)
  case made =>
    have hmade := entry (i := s.nt.toNat) (by omega)
    rw [if_pos rfl, Vector.getElem?_eq_getElem (xs := s.node) hstore] at hmade
    exact ⟨_, hmade, rfl, rfl, rfl, rfl⟩
  case item =>
    intro i e hi he
    rw [entry (by omega), if_neg (by omega), if_pos hi, he]
    rfl
  case other =>
    intro i hlt hi
    rw [entry (by omega), if_neg (by omega), if_neg hi]

end

/-- `TB.MERGE` with two items to take. -/
theorem exists_merges (hm : MergeOk s) (hi : 2 ≤ s.items) :
    ∃ t a b, execTbMerge s = .next t ∧ Merges s t a b ∧ t.items + 1 = s.items ∧
      t.phase = if 2 ≤ t.items then Phase.tbMerge else Phase.tbRoot := by
  have hc := cursorsOk_of_mergeOk hm hi
  obtain ⟨s1, ht1, h1⟩ := exists_takes hc (Nat.le_of_succ_le hi)
  have hitems1 := h1.items
  obtain ⟨s2, ht2, h2⟩ := exists_takes h1.cursors (by omega)
  have hitems2 := h2.items
  have hnode (i : Idx) : s2.nodeAt i = s.nodeAt i := (h2.nodeAt i).trans (h1.nodeAt i)
  obtain ⟨x, hx⟩ := h1.exists_item hc
  obtain ⟨y, hy⟩ := h2.exists_item h1.cursors
  obtain ⟨e, he⟩ := s.exists_nodeAt hc.store
  have hmerge := execTbMerge_joins hi ht1 ht2 ((hnode _).trans hx) ((h2.nodeAt _).trans hy)
    ((hnode _).trans (by rw [h2.nt, h1.nt, he]))
  obtain ⟨v, hv⟩ := join_eq s2 s1.sel s2.sel x.freq y.freq
  have hitems := items_afterJoin h2.cursors hv
  exact ⟨_, _, _, hmerge, merges_of_takes h1 h2 hc x.freq y.freq, by omega, rfl⟩

/-! ### What a merge keeps -/

/-- An entry below the old tail keeps all but its parent, which is the new node or the one it had. -/
theorem Merges.entry (h : Merges s t a b) {i : Nat} (hi : i < s.nt.toNat) {e : NodeEntry}
    (he : s.node[i]? = some e) :
    ∃ q, t.node[i]? = some { e with parent := q } ∧ (q = s.nt ∨ q = e.parent) := by
  by_cases hab : i = a ∨ i = b
  · exact ⟨s.nt, h.item i e hab he, .inl rfl⟩
  · exact ⟨e.parent, (h.other i hi hab).trans he, .inr rfl⟩

/-- The parent of such an entry is still missing or below the tail. -/
theorem parent_below {q : Idx} {e : NodeEntry} (hq : q = s.nt ∨ q = e.parent)
    (hp : e.parent = Config.none ∨ e.parent.toNat < s.nt.toNat) :
    q = Config.none ∨ q.toNat < s.nt.toNat + 1 := by
  rcases hq with rfl | rfl
  · exact .inr (Nat.lt_succ_self _)
  · exact hp.imp_right Nat.lt_succ_of_lt

theorem Merges.leafOk (h : Merges s t a b) {i : Nat} (hi : i < s.nt.toNat)
    (hl : LeafOk s s.nt.toNat i) : LeafOk t t.nt.toNat i := by
  obtain ⟨e, he, hk, hp, hsym⟩ := hl
  obtain ⟨q, hq, hparent⟩ := h.entry hi he
  exact ⟨_, hq, hk, h.nt ▸ parent_below hparent hp, h.op ▸ hsym⟩

/-- The items are entries below the old tail. -/
theorem Merges.items_lt (h : Merges s t a b) (hq : s.lrem.toNat ≤ s.nt.toNat) :
    a < s.nt.toNat ∧ b < s.nt.toNat := by
  have ha := (h.passed a).mpr (.inl rfl)
  have hb := (h.passed b).mpr (.inr rfl)
  have hqnt := h.qh_le_nt
  omega

theorem Merges.forestOk (h : Merges s t a b) (hq : s.lrem.toNat ≤ s.nt.toNat)
    (hn : s.n.toNat ≤ s.nt.toNat) (hf : ForestOk s s.nt.toNat) : ForestOk t t.nt.toNat where
  leaves i hi := by
    rw [h.n] at hi
    exact h.leafOk (by omega) (hf.leaves i hi)
  internals i hi hlt := by
    rw [h.n] at hi
    rw [h.nt] at hlt ⊢
    rcases Nat.lt_succ_iff_lt_or_eq.mp hlt with hlt | rfl
    · obtain ⟨e, he, hk, hleft, hright, hp⟩ := hf.internals i hi hlt
      obtain ⟨q, hq, hparent⟩ := h.entry hlt he
      exact ⟨_, hq, hk, Nat.lt_succ_of_lt hleft, Nat.lt_succ_of_lt hright, parent_below hparent hp⟩
    · obtain ⟨e, he, hk, hleft, hright, hp⟩ := h.made
      obtain ⟨ha, hb⟩ := h.items_lt hq
      exact ⟨e, he, hk, by omega, by omega, .inl hp⟩

theorem Merges.mergeOk (h : Merges s t a b) (hm : MergeOk s) : MergeOk t := by
  obtain ⟨hsome, hleft, ⟨hqueue, hpending⟩, hcount, hforest⟩ := hm
  have hnt := h.nt
  have hlrem := h.lrem_le
  have hqh := h.qh_le
  have hqnt := h.qh_le_nt
  have htwo := h.two
  have hn := congrArg BitVec.toNat h.n
  exact ⟨by omega, by omega, by omega, by omega,
    h.forestOk (by omega) (hqueue.trans hpending) hforest⟩

/-- An item is one of the two children of the new node. -/
theorem Merges.joined_item (h : Merges s t a b) {i : Nat} (hab : i = a ∨ i = b)
    (hi : i < s.nt.toNat) (hnt : s.nt.toNat < 509) : Joined t t.nt.toNat i := by
  obtain ⟨p, hp, hk, hleft, hright, -⟩ := h.made
  have he := h.item i _ hab (Vector.getElem?_eq_getElem (by omega))
  refine ⟨_, p, he, hi, h.nt ▸ Nat.lt_succ_self _, hp, hk, fun heq => h.ne ?_, ?_⟩
  · rw [← hleft, ← hright, heq]
  · exact hab.imp (fun h => hleft.trans h.symm) fun h => hright.trans h.symm

/-- What is joined stays joined: neither the entry's parent nor the parent's children change. -/
theorem Merges.joined_other (h : Merges s t a b) {i : Nat} (hab : ¬(i = a ∨ i = b))
    (hj : Joined s s.nt.toNat i) : Joined t t.nt.toNat i := by
  obtain ⟨e, p, he, hup, hbelow, hp, hk, hne, hchild⟩ := hj
  obtain ⟨q, hq, -⟩ := h.entry hbelow hp
  exact ⟨e, _, (h.other i (hup.trans hbelow) hab).trans he, hup, h.nt ▸ Nat.lt_succ_of_lt hbelow, hq, hk,
    hne, hchild⟩

theorem Merges.loose_other (h : Merges s t a b) {i : Nat} (hi : i < s.nt.toNat)
    (hab : ¬(i = a ∨ i = b)) (hl : Loose s i) : Loose t i := by
  obtain ⟨e, he, hp⟩ := hl
  exact ⟨e, (h.other i hi hab).trans he, hp⟩

theorem Merges.mergeLinked (h : Merges s t a b) (hm : MergeOk s) (hnt : s.nt.toNat < 509)
    (hl : MergeLinked s) : MergeLinked t := by
  obtain ⟨-, hleft, ⟨hqueue, hpending⟩, -, -⟩ := hm
  have hnt' := h.nt
  have hqnt := h.qh_le_nt
  have joined (i : Nat) (hi : i < s.nt.toNat) (hold : ¬(i = a ∨ i = b) → Joined s s.nt.toNat i) :
      Joined t t.nt.toNat i := by
    by_cases hab : i = a ∨ i = b
    · exact h.joined_item hab hi hnt
    · exact h.joined_other hab (hold hab)
  constructor
  case untaken =>
    intro i hi
    have hlrem := h.lrem_le
    have hab : ¬(i = a ∨ i = b) := by rw [← h.passed]; omega
    exact h.loose_other (by omega) hab (hl.untaken i (by omega))
  case taken =>
    intro i hi hn
    rw [h.n] at hn
    refine joined i (by omega) fun hab => hl.taken i ?_ hn
    rw [← h.passed] at hab
    omega
  case attached =>
    intro i hi hq
    rw [h.n] at hi
    refine joined i (by omega) fun hab => hl.attached i hi ?_
    rw [← h.passed] at hab
    omega
  case pending =>
    intro i hi hlt
    rw [hnt'] at hlt
    rcases Nat.lt_succ_iff_lt_or_eq.mp hlt with hlt | rfl
    · have hqh := h.qh_le
      have hab : ¬(i = a ∨ i = b) := by rw [← h.passed]; omega
      exact h.loose_other hlt hab (hl.pending i (by omega) hlt)
    · obtain ⟨e, he, -, -, -, hp⟩ := h.made
      exact ⟨e, he, hp⟩
  case last =>
    intro _
    omega

theorem tbMerge_advances (hs : RunOk s) (hb : s.status = .busy) (hp : s.phase = Phase.tbMerge) :
    Advances s (execTbMerge s) := by
  obtain ⟨hm, hl, hi, hh⟩ := (hs.phases hb).merge hp
  obtain ⟨t, a, b, ht, hj, hitems, hphase⟩ := exists_merges hm hi
  refine ⟨t, ht, fun _ => ?_⟩
  have hx : exec .tbMerge s = .next t := ht
  have hm' := hj.mergeOk hm
  have hl' := hj.mergeLinked hm (cursorsOk_of_mergeOk hm hi).store hl
  have hh' := phase_keeps_header hx rfl rfl rfl rfl hh
  have htree := phase_keeps_treeSteps hx rfl
  by_cases h2 : 2 ≤ t.items
  · have hq : t.phase = Phase.tbMerge := hphase.trans (if_pos h2)
    refine .of_phase _ hq (.merge ⟨hm', hl', h2, hh'⟩) fun n f _ => ?_
    rw [stepsLeft_tbMerge hp, stepsLeft_tbMerge hq, htree]
    omega
  · have hq : t.phase = Phase.tbRoot := hphase.trans (if_neg h2)
    refine .of_phase _ hq (.rooting ⟨hm', hl', by omega, hh'⟩) fun n f _ => ?_
    rw [stepsLeft_tbMerge hp, stepsLeft_tbRoot hq, htree]
    omega

/-! ### The root (R127) -/

/-- With one item left the cursors are at their ends (R126). -/
theorem cursors_of_one_item (hm : MergeOk s) (hl : MergeLinked s) (hi : s.items = 1) :
    s.nt.toNat = 2 * s.n.toNat - 1 ∧
      ((s.n.toNat = 1 ∧ s.lrem.toNat = 1) ∨
        (2 ≤ s.n.toNat ∧ s.lrem.toNat = 0 ∧ s.qh.toNat = 2 * s.n.toNat - 2)) := by
  obtain ⟨hsome, hleft, ⟨hqueue, hpending⟩, hcount, -⟩ := hm
  have hlast := hl.last
  rw [State.items] at hi
  omega

/-- The merge with one item left is the finished tree, its root the last entry. -/
theorem treeOk_of_one_item (hm : MergeOk s) (hl : MergeLinked s) (hi : s.items = 1)
    (same : SameTree s t) (hroot : t.root.toNat = 2 * s.n.toNat - 2) : TreeOk t := by
  obtain ⟨hnt, hcursors⟩ := cursors_of_one_item hm hl hi
  have hsome := hm.some
  have hforest := hm.forest
  rw [hnt] at hforest
  constructor
  case some => exact same.n ▸ hsome
  case forest => exact same.n ▸ same.forestOk hforest
  case root => rw [hroot, same.n]
  case top =>
    rw [same.n]
    refine same.loose ?_
    rcases hcursors with ⟨h1, hlrem⟩ | ⟨h2, hlrem, hqh⟩
    · exact hl.untaken _ (by omega)
    · exact hl.pending _ (by omega) (by omega)
  case joined =>
    intro i hlt
    rw [same.n] at hlt ⊢
    refine same.joined ?_
    rw [← hnt]
    by_cases hn : i < s.n.toNat
    · exact hl.taken i (by omega) hn
    · exact hl.attached i (by omega) (by omega)

/-- `TB.ROOT` names the last entry of the finished tree, entry 0 of a tree of one symbol. -/
theorem root_toNat_of_execTbRoot (h : execTbRoot s = .next t) (hsome : 1 ≤ s.n.toNat)
    (hnt : s.nt.toNat = 2 * s.n.toNat - 1) : t.root.toNat = 2 * s.n.toNat - 2 := by
  rw [execTbRoot_cases h]
  dsimp only
  split
  next hone =>
    rw [hone]
    rfl
  next =>
    have hle : (1 : Idx) ≤ s.nt := BitVec.le_def.mpr (show 1 ≤ s.nt.toNat by omega)
    rw [BitVec.toNat_sub_of_le hle]
    change s.nt.toNat - 1 = _
    omega

theorem tbRoot_advances (hs : RunOk s) (hb : s.status = .busy) (hp : s.phase = Phase.tbRoot) :
    Advances s (execTbRoot s) := by
  obtain ⟨hm, hl, hi, hh⟩ := (hs.phases hb).rooting hp
  obtain ⟨hnt, -⟩ := cursors_of_one_item hm hl hi
  have hsome := hm.some
  obtain ⟨t, ht⟩ : ∃ t, execTbRoot s = .next t := ⟨_, rfl⟩
  refine ⟨t, ht, fun _ => ?_⟩
  have hx : exec .tbRoot s = .next t := ht
  have htd := execTbRoot_cases ht
  have hroot := root_toNat_of_execTbRoot ht hsome hnt
  have htree := treeOk_of_one_item hm hl hi (phase_keeps_tree hx rfl rfl rfl) hroot
  by_cases hop : s.op = .compress
  · have hq : t.phase = Phase.caClear := by rw [htd]; exact if_pos hop
    refine .of_phase _ hq (.clearing htree) fun n f _ => ?_
    rw [stepsLeft_tbRoot hp, stepsLeft_caClear hq, State.treeSteps, if_pos hop,
      phase_keeps_inLen hx rfl]
  · have hq : t.phase = Phase.bsdInit := by rw [htd]; exact if_neg hop
    refine .of_phase _ hq (.decoding ⟨htree, phase_keeps_header hx rfl rfl rfl rfl hh⟩) fun n f _ => ?_
    rw [stepsLeft_tbRoot hp, stepsLeft_bsdInit hq, State.treeSteps, if_neg hop,
      phase_keeps_inLen hx rfl]

end

end Sys2Proof.Machine
end

section
/-! The phases of a COMPRESS behind the tree (R136 to R168): the codes, the header on its way out, and the bit
stream. -/

namespace Sys2Proof.Machine

open Sys2Proof.Claim Sys2Proof.Proofs

section
variable {s t : State}

/-! ### CodeAssigner (R136, R137) -/

theorem caClear_advances (hs : RunOk s) (hb : s.status = .busy) (hp : s.phase = Phase.caClear) :
    Advances s (execCaClear s) := by
  have htree := (hs.phases hb).coded (.inl hp)
  obtain ⟨t, ht⟩ : ∃ t, execCaClear s = .next t := ⟨_, rfl⟩
  refine ⟨t, ht, fun _ => ?_⟩
  have hx : exec .caClear s = .next t := ht
  have same := phase_keeps_tree hx rfl rfl rfl
  have htd := execCaClear_cases ht
  have hroot : t.root = s.root := by rw [htd]
  have hcaI : t.caI.toNat = 0 := by rw [htd]; rfl
  have hq : t.phase = Phase.caWalk := by rw [htd]
  refine .of_phase _ hq (.walking ⟨same.treeOk hroot htree, by omega⟩) fun n f _ => ?_
  rw [stepsLeft_caClear hp, stepsLeft_caWalk hq, hcaI, phase_keeps_inLen hx rfl]
  omega

/-- A walk up a chain that ends at a root meets no index outside the store. -/
theorem walkUp_ne_badIndex {v : Vector NodeEntry 509} {room l len : Nat} {i r : Idx} {acc : Word}
    (h : RootAbove v i len r) : walkUp v room i acc l ≠ .badIndex := by
  induction len generalizing room i acc l with
  | zero =>
    obtain ⟨hup, e, he, hnone⟩ := h
    cases hup
    rw [walkUp_root he hnone]
    exact nofun
  | succ len ih =>
    obtain ⟨e, he, hp, h⟩ := exists_parent_of_rootAbove h
    obtain ⟨p, hpe⟩ := Option.isSome_iff_exists.mp (isSome_of_ancestor h.1 (isSome_of_rootAbove h))
    cases room with
    | zero =>
      rw [walkUp_full he hp hpe]
      exact nofun
    | succ room =>
      rw [walkUp_edge he hp hpe]
      exact ih h

/-- Of a tree whose leaves have symbols of at most 127, `CA.WALK` codes the next leaf or overflows. -/
theorem execCaWalk_total (htree : TreeOk s) (hi : s.caI.toNat ≤ s.n.toNat) (hop : s.op = .compress) :
    ∃ t, execCaWalk s = .next t := by
  unfold execCaWalk
  split
  · exact ⟨_, rfl⟩
  next hne =>
    have hlt : s.caI.toNat < s.n.toNat := by omega
    obtain ⟨e, he, -, -, hsym⟩ := htree.forest.leaves _ hlt
    have hsym : e.sym.toNat < Config.symCount := Nat.lt_succ_of_le (hsym hop)
    obtain ⟨len, habove, -⟩ := exists_path_of_treeOk htree s.caI (by omega)
    have hwalk := walkUp_ne_badIndex (room := Config.codeBits) (l := 0) (acc := 0) habove
    have he : s.nodeAt s.caI = some e := he
    simp only [he]
    split
    next h => exact absurd h hwalk
    · exact ⟨_, rfl⟩
    · exact ⟨_, if_pos hsym⟩

/-- A leaf's code is not part of the tree. -/
theorem sameTree_assignCode (s : State) (sym : Byte) (c : Word) (len : Len) :
    SameTree s (s.assignCode sym c len) where
  n := rfl
  op := rfl
  entry i e he := by
    rw [State.assignCode_node, updNode_getElem?]
    split
    next hi =>
      subst hi
      exact ⟨_, congrArg (Option.map _) he, rfl, rfl, rfl, rfl, rfl⟩
    · exact ⟨e, he, rfl, rfl, rfl, rfl, rfl⟩

theorem caWalk_advances (hs : RunOk s) (hb : s.status = .busy) (hp : s.phase = Phase.caWalk) :
    Advances s (execCaWalk s) := by
  obtain ⟨htree, hi⟩ := (hs.phases hb).walking hp
  obtain ⟨t, ht⟩ := execCaWalk_total htree hi (op_eq_compress (hs.phase_mem hb hp) (by decide))
  refine ⟨t, ht, fun htb => ?_⟩
  rcases execCaWalk_cases ht with ⟨hend, rfl⟩ | ⟨hne, e, -, ⟨-, rfl⟩ | ⟨c, len, -, -, rfl⟩⟩
  · have same : SameTree s (s.setPhase Phase.hcWidth) := .of_node rfl rfl rfl
    refine .of_phase _ rfl (.coded (same.treeOk rfl htree)) fun n f _ => ?_
    rw [stepsLeft_caWalk hp, stepsLeft_hcWidth rfl, State.setPhase_inLen]
    omega
  · cases htb
  · have same := sameTree_assignCode s e.sym c (BitVec.ofNat 7 len)
    have hcaI : (s.caI + 1).toNat = s.caI.toNat + 1 := idx_succ_toNat (n := s.n) (by omega)
    refine .of_phase Phase.caWalk rfl (.walking ⟨same.treeOk rfl htree, ?_⟩) fun n f hend => ?_
    · rw [State.assignCode_caI, State.assignCode_n]
      omega
    · obtain ⟨rfl, -⟩ := hend.counted (by rw [hp]; decide)
      rw [stepsLeft_caWalk hp, stepsLeft_caWalk rfl, State.assignCode_caI, State.assignCode_inLen]
      omega

/-! ### HeaderCodec on the way out (R146 to R148) -/

theorem hcWidth_advances (hp : s.phase = Phase.hcWidth) : Advances s (execHcWidth s) :=
  ⟨_, rfl, fun _ => .of_phase Phase.hcPuthdr rfl (.header (widthFor_mem _)) fun n f _ => by
    rw [stepsLeft_hcWidth hp, stepsLeft_hcPuthdr rfl]⟩

/-- One byte is no wider an access than there may be (R69). -/
theorem byte_le_word {b : Byte} : [b].length ≤ 8 := Nat.le_add_left 1 7

theorem execHcPuthdr_total (s : State) : ∃ t, execHcPuthdr s = .next t :=
  memWrite_andThen_total le_rfl byte_le_word (memWrite_andThen_total le_rfl byte_le_word ⟨_, rfl⟩)

theorem hcPuthdr_advances (hs : RunOk s) (hb : s.status = .busy) (hp : s.phase = Phase.hcPuthdr) :
    Advances s (execHcPuthdr s) := by
  have hw := (hs.phases hb).header hp
  obtain ⟨t, ht⟩ := execHcPuthdr_total s
  refine ⟨t, ht, fun htb => ?_⟩
  have hx : exec .hcPuthdr s = .next t := ht
  have hf : t.f = s.f := (exec_effect hx).keeps.f rfl
  have hw' : WidthOk t := by rwa [WidthOk, hf]
  have hlen := phase_keeps_inLen hx rfl
  rcases execHcPuthdr_cases ht with rfl | rfl | htd
  · cases htb
  · cases htb
  · have hq : t.phase = Phase.hcPutpair := by rw [htd]
    have hcI : t.hcI.toNat = 0 := by rw [htd]; rfl
    refine .of_phase _ hq (.putpair ⟨hw', by omega⟩) fun n f _ => ?_
    rw [stepsLeft_hcPuthdr hp, stepsLeft_hcPutpair hq, hcI, hlen]
    omega

theorem execHcPutpair_total (hw : WidthOk s) (hi : s.hcI.toNat ≤ s.n.toNat) :
    ∃ t, execHcPutpair s = .next t := by
  have hn := s.n.isLt
  obtain ⟨e, he⟩ := s.exists_nodeAt (i := s.hcI) (by omega)
  obtain ⟨hf1, hf8⟩ := fieldWidth_le hw
  unfold execHcPutpair
  split
  · exact ⟨_, rfl⟩
  · simp only [he]
    refine memWrite_andThen_total le_rfl byte_le_word (memWrite_andThen_total ?_ ?_ ⟨_, rfl⟩)
    · simpa using hf1
    · simpa using hf8

theorem hcPutpair_advances (hs : RunOk s) (hb : s.status = .busy) (hp : s.phase = Phase.hcPutpair) :
    Advances s (execHcPutpair s) := by
  obtain ⟨hw, hi⟩ := (hs.phases hb).putpair hp
  obtain ⟨t, ht⟩ := execHcPutpair_total hw hi
  refine ⟨t, ht, fun htb => ?_⟩
  have hx : exec .hcPutpair s = .next t := ht
  have k := (exec_effect hx).keeps
  have hn : t.n = s.n := k.n rfl
  have hw' : WidthOk t := by rwa [WidthOk, k.f rfl]
  have hlen := phase_keeps_inLen hx rfl
  rcases execHcPutpair_cases ht with ⟨hend, rfl⟩ | ⟨hne, e, -, rfl | ⟨j, -, rfl⟩ | htd⟩
  · refine .of_phase Phase.bseInit rfl (.plain (by decide)) fun n f _ => ?_
    rw [stepsLeft_hcPutpair hp, stepsLeft_bseInit rfl, hlen]
    omega
  · cases htb
  · cases htb
  · have hq : t.phase = Phase.hcPutpair := by rw [htd]
    have hcI : t.hcI.toNat = s.hcI.toNat + 1 := by
      rw [htd]
      exact idx_succ_toNat (n := s.n) (by omega)
    refine .of_phase _ hq (.putpair ⟨hw', by rw [hn]; omega⟩) fun n f hend => ?_
    obtain ⟨rfl, -⟩ := hend.counted (by rw [hp]; decide)
    rw [stepsLeft_hcPutpair hp, stepsLeft_hcPutpair hq, hcI, hlen]
    omega

/-! ### BitStreamEncoder (R160 to R168) -/

theorem bseInit_advances (hp : s.phase = Phase.bseInit) : Advances s (execBseInit s) :=
  ⟨_, rfl, fun _ => .of_phase Phase.bseSym rfl (.packing ⟨le_rfl, Nat.zero_mod _⟩) fun n f _ => by
    rw [stepsLeft_bseInit hp, stepsLeft_bseSym rfl]
    exact le_rfl⟩

theorem freeBitsZero_of_eq (hz : FreeBitsZero s) (hacc : t.acc = s.acc) (hfree : t.free = s.free) :
    FreeBitsZero t := by
  rwa [FreeBitsZero, hacc, hfree]

/-- `BSE.PUT` keeps the free bits zero and the cursor where it is (R166). -/
theorem putCode_keeps {v : Word} {l : Len} {x : Unit} (hz : FreeBitsZero s)
    (h : putCode v l s = .ok x t) :
    FreeBitsZero t ∧ t.inLen = s.inLen ∧ t.inPos = s.inPos := by
  obtain ⟨hf, hv, ⟨hl, rfl⟩ | ⟨hl, -, rfl⟩⟩ := putCode_eq_ok h
  · obtain ⟨hl64, hlt⟩ := codeFits_iff.mp hv
    exact ⟨(putFit_bits hz hlt hl).1, rfl, rfl⟩
  · obtain ⟨hl64, hlt⟩ := codeFits_iff.mp hv
    exact ⟨(putRest_bits (by omega)).1, State.afterDraw_inLen s, State.afterDraw_inPos s⟩

theorem execBseSym_total (hs : RunOk s) (hb : s.status = .busy) (hz : FreeBitsZero s) :
    ∃ t, execBseSym s = .next t := by
  unfold execBseSym
  split
  · exact ⟨_, rfl⟩
  next hp =>
    refine memRead_andThen_total le_rfl (by decide) (hs.inOpen hb) (hs.input hb)
      (hs.inPos_succ_le hp) fun bs => ?_
    dsimp only
    split
    · exact ⟨_, rfl⟩
    next e he =>
      rw [lutFor_afterDraw, State.lutFor_eq_some] at he
      exact putCode_andThen_total (by simpa using hz.1) (hs.codes _ e he.1) fun u => ⟨_, rfl⟩

theorem bseSym_advances (hs : RunOk s) (hb : s.status = .busy) (hp : s.phase = Phase.bseSym) :
    Advances s (execBseSym s) := by
  have hz := (hs.phases hb).packing (.inl hp)
  obtain ⟨t, ht⟩ := execBseSym_total hs hb hz
  refine ⟨t, ht, fun htb => ?_⟩
  rcases execBseSym_cases ht with
    ⟨hend, rfl⟩ | ⟨-, rfl⟩ | ⟨b, -, -, hl, ⟨-, rfl⟩ | ⟨e, -, ⟨u, hu, rfl⟩ | hu⟩⟩
  · refine .of_phase Phase.bseEos rfl (.packed hz) fun n f _ => ?_
    rw [stepsLeft_bseSym hp, stepsLeft_bseEos rfl]
    omega
  · cases htb
  · cases htb
  · obtain ⟨hz', hlen, hpos⟩ := putCode_keeps (freeBitsZero_of_eq hz (by simp) (by simp)) hu
    have hpos' : u.inPos.toNat = s.inPos.toNat + 1 := by rw [hpos]; exact inPos_succ_toNat hl
    have hlen' : u.inLen = s.inLen := hlen.trans (State.afterDraw_inLen s)
    by_cases hend : b = Config.sentinel
    · refine .of_phase Phase.bseFinal (if_pos hend) (.flushing hz') fun n f _ => ?_
      rw [stepsLeft_bseSym hp, stepsLeft_bseFinal (if_pos hend)]
      omega
    · refine .of_phase Phase.bseSym (if_neg hend) (.packing hz') fun n f _ => ?_
      rw [stepsLeft_bseSym hp, stepsLeft_bseSym (if_neg hend), State.setPhase_inLen,
        State.setPhase_inPos, hlen', hpos']
      omega
  · obtain ⟨-, k, -, rfl⟩ := putCode_eq_halt hu
    cases htb

theorem bseEos_advances (hs : RunOk s) (hb : s.status = .busy) (hp : s.phase = Phase.bseEos) :
    Advances s (execBseEos s) := by
  have hz := (hs.phases hb).packing (.inr (.inl hp))
  have hcode := hs.codes 0 s.lut[0] (Vector.getElem?_eq_getElem (by decide))
  obtain ⟨t, ht⟩ : ∃ t, execBseEos s = .next t :=
    putCode_andThen_total hz.1 hcode fun u => ⟨_, rfl⟩
  refine ⟨t, ht, fun htb => ?_⟩
  rcases execBseEos_cases ht with ⟨u, hu, rfl⟩ | hu
  · refine .of_phase Phase.bseFinal rfl (.flushing (putCode_keeps hz hu).1) fun n f _ => ?_
    rw [stepsLeft_bseEos hp, stepsLeft_bseFinal rfl]
  · obtain ⟨-, k, -, rfl⟩ := putCode_eq_halt hu
    cases htb

theorem execBseFinal_total (hf : s.free.toNat ≤ 64) : ∃ t, execBseFinal s = .next t := by
  have h8 : ceil8 (64 - s.free.toNat) ≤ 8 := by
    rw [ceil8]
    omega
  unfold execBseFinal
  rw [if_neg (show ¬Config.wordBits < s.free.toNat from Nat.not_lt.mpr hf)]
  dsimp only
  split
  · exact ⟨_, rfl⟩
  next hk =>
    refine memWrite_andThen_total ?_ ?_ ⟨_, rfl⟩
    · rw [tailBytes_length]
      omega
    · rwa [tailBytes_length]

theorem bseFinal_advances (hs : RunOk s) (hb : s.status = .busy) (hp : s.phase = Phase.bseFinal) :
    Advances s (execBseFinal s) := by
  obtain ⟨t, ht⟩ := execBseFinal_total ((hs.phases hb).packing (.inr (.inr hp))).1
  refine ⟨t, ht, fun htb => ?_⟩
  have close (hq : t.phase = Phase.close) : GoesOn s t :=
    .of_phase _ hq (.plain (by decide)) fun n f _ => by
      rw [stepsLeft_bseFinal hp, stepsLeft_close hq]
  obtain ⟨-, ⟨-, rfl⟩ | ⟨k, -, rfl⟩ | ⟨-, -, rfl⟩⟩ := execBseFinal_cases ht
  · exact close rfl
  · cases htb
  · exact close rfl

end

end Sys2Proof.Machine
end

section
/-! The phases of a DECOMPRESS before and behind the tree (R150, R151, R175 to R178), and the close of a command
(R198): the header and its pairs lie within the input, and the walk stands on an internal node of the finished
tree. -/

namespace Sys2Proof.Machine

open Sys2Proof.Claim Sys2Proof.Proofs

section
variable {s t : State}

/-! ### HeaderCodec on the way in (R150, R151) -/

/-- A header that passes the tests. -/
theorem of_headerFault_none {n f : Byte} {l : Word} (h : headerFault n f l = none) :
    1 ≤ n.toNat ∧ f.toNat ∈ Config.fieldWidths ∧ headerLen n.toNat f.toNat ≤ l.toNat := by
  unfold headerFault at h
  split at h
  · cases h
  next hn =>
    split at h
    · cases h
    next hf =>
      split at h
      · cases h
      next hl =>
        refine ⟨?_, not_not.mp hf, Nat.le_of_not_lt hl⟩
        exact Nat.pos_of_ne_zero fun h0 => hn (BitVec.eq_of_toNat_eq h0)

/-- A legal width is the same in the register `F` as in the header byte. -/
theorem setWidth_toNat_of_legal {f : Byte} (hf : f.toNat ∈ Config.fieldWidths) :
    (f.setWidth 4).toNat = f.toNat := by
  have hle := fieldWidth_le hf
  rw [BitVec.toNat_setWidth]
  omega

theorem headerLen_succ (k f : Nat) : headerLen (k + 1) f = headerLen k f + 1 + f := by
  rw [headerLen, headerLen, Nat.succ_mul]
  omega

theorem headerLen_mono {k n : Nat} (h : k ≤ n) (f : Nat) : headerLen k f ≤ headerLen n f :=
  Nat.add_le_add_left (Nat.mul_le_mul_right _ h) 2

theorem execHcGethdr_total (hs : RunOk s) (hb : s.status = .busy) : ∃ t, execHcGethdr s = .next t := by
  unfold execHcGethdr
  split
  · exact ⟨_, rfl⟩
  next hl =>
    have ho := hs.inOpen hb
    have hin := hs.input hb
    refine memRead_andThen_total le_rfl (by decide) ho hin (by omega) fun ns => ?_
    refine memRead_andThen_total le_rfl (by decide) (by simpa) (by simpa) (by simp; omega) fun fs => ?_
    dsimp only
    split <;> exact ⟨_, rfl⟩

theorem hcGethdr_advances (hs : RunOk s) (hb : s.status = .busy) (hp : s.phase = Phase.hcGethdr) :
    Advances s (execHcGethdr s) := by
  obtain ⟨t, ht⟩ := execHcGethdr_total hs hb
  refine ⟨t, ht, fun htb => ?_⟩
  have hx : exec .hcGethdr s = .next t := ht
  have hlen := phase_keeps_inLen hx rfl
  rcases execHcGethdr_cases ht with
    ⟨-, rfl⟩ | ⟨-, rfl | rfl | ⟨n, f, -, -, ⟨info, -, rfl⟩ | ⟨hfault, htd⟩⟩⟩
  · cases htb
  · cases htb
  · cases htb
  · cases htb
  · obtain ⟨hn, hf, hl⟩ := of_headerFault_none hfault
    have hq : t.phase = Phase.hcGetpair := by rw [htd]
    have hn' : t.n = n := by rw [htd]
    have hf' : t.f.toNat = f.toNat := by rw [htd, setWidth_toNat_of_legal hf]
    have hcI : t.hcI.toNat = 0 := by rw [htd]; rfl
    have hpos : t.inPos.toNat = 2 := by rw [htd]; rfl
    refine .of_phase _ hq (.getpair ⟨hn' ▸ hn, by omega, ?_, ?_, ?_, fun i hi => by omega⟩)
      fun n f _ => ?_
    · rwa [WidthOk, hf']
    · rwa [hn', hf', hlen]
    · rw [hpos, hcI, headerLen, Nat.zero_mul]
    · rw [stepsLeft_hcGethdr hp, stepsLeft_hcGetpair hq, hcI, hlen]
      omega

/-- Between two pairs, with a pair left to read, the next one lies within the input. -/
theorem pair_within {k n f pos len : Nat} (hk : k < n) (hlen : headerLen n f ≤ len)
    (hpos : pos = headerLen k f) : pos + 1 + f ≤ len := by
  have hsucc := headerLen_succ k f
  have hmono := headerLen_mono (show k + 1 ≤ n from hk) f
  omega

theorem execHcGetpair_total (hs : RunOk s) (hb : s.status = .busy) (hp : s.phase = Phase.hcGetpair) :
    ∃ t, execHcGetpair s = .next t := by
  obtain ⟨-, hi, hw, hlen, hpos, -⟩ := (hs.phases hb).getpair hp
  obtain ⟨hf1, hf8⟩ := fieldWidth_le hw
  have hn := s.n.isLt
  obtain ⟨e, he⟩ := s.exists_nodeAt (i := s.hcI) (by omega)
  unfold execHcGetpair
  split
  · exact ⟨_, rfl⟩
  next hne =>
    have hpair := pair_within (Nat.lt_of_le_of_ne hi hne) hlen hpos
    have ho := hs.inOpen hb
    have hin := hs.input hb
    refine memRead_andThen_total le_rfl (by decide) ho hin (by omega) fun ss => ?_
    refine memRead_andThen_total (by simpa) (by simpa) (by simpa) (by simpa) (by simpa) fun bs => ?_
    have he' : s.afterDraw.afterDraw.nodeAt s.afterDraw.afterDraw.hcI = some e := by
      simpa [State.nodeAt] using he
    rw [he']
    exact ⟨_, rfl⟩

/-- The leaves read so far and the one just stored. -/
theorem leafOk_storePair {u : State} {sym : Byte} {freq : Word} {f : FieldWidth}
    (hnode : u.node = s.node) (hcI : u.hcI = s.hcI) (hop : u.op = .decompress) (hi : s.hcI.toNat < 509)
    (hl : ∀ i < s.hcI.toNat, LeafOk s 0 i) :
    ∀ i < s.hcI.toNat + 1, LeafOk (u.storePair sym freq f) 0 i := by
  intro i hlt
  have hentry : (u.storePair sym freq f).node[i]? =
      if i = s.hcI.toNat then s.node[s.hcI.toNat]?.map fun e => e.asLeaf sym freq
      else s.node[i]? := by
    rw [State.storePair_node, hnode, hcI, updNode_getElem?]
  have hno {P : Prop} (h : (u.storePair sym freq f).op = .compress) : P :=
    nomatch hop.symm.trans h
  rcases Nat.lt_succ_iff_lt_or_eq.mp hlt with hlt | rfl
  · obtain ⟨e, he, hk, hparent, -⟩ := hl i hlt
    rw [if_neg (by omega), he] at hentry
    exact ⟨e, hentry, hk, hparent, hno⟩
  · rw [if_pos rfl, Vector.getElem?_eq_getElem (xs := s.node) hi] at hentry
    exact ⟨_, hentry, rfl, .inl rfl, hno⟩

theorem hcGetpair_advances (hs : RunOk s) (hb : s.status = .busy) (hp : s.phase = Phase.hcGetpair) :
    Advances s (execHcGetpair s) := by
  obtain ⟨hn, hi, hw, hlen, hpos, hl⟩ := (hs.phases hb).getpair hp
  have hop : s.op = .decompress := op_eq_decompress (hs.phase_mem hb hp) (by decide)
  have hbyte := s.n.isLt
  obtain ⟨t, ht⟩ := execHcGetpair_total hs hb hp
  refine ⟨t, ht, fun htb => ?_⟩
  rcases execHcGetpair_cases ht with
    ⟨hend, rfl⟩ | ⟨hne, rfl | rfl | ⟨sym, bs, -, -, hbound, -, htd⟩⟩
  · refine .of_phase Phase.tbSort rfl (.sort ⟨hn, fun i hlt => hl i ?_, fun _ => ⟨hw, hlen, ?_⟩⟩)
      fun n f hend' => ?_
    · rw [hend]
      exact hlt
    · rw [hend] at hpos
      exact hpos
    · obtain ⟨rfl, -⟩ := hend'.counted (by rw [hp]; decide)
      rw [stepsLeft_hcGetpair hp, stepsLeft_tbSort rfl, State.treeSteps, State.setPhase_op,
        if_neg (by rw [hop]; exact nofun), State.setPhase_inLen]
      omega
  · cases htb
  · cases htb
  · have hx : exec .hcGetpair s = .next t := ht
    have k := (exec_effect hx).keeps
    have hn' : t.n = s.n := k.n rfl
    have hf' : t.f = s.f := k.f rfl
    have hlen' := phase_keeps_inLen hx rfl
    have hq : t.phase = Phase.hcGetpair := by rw [htd, State.storePair_phase]
    have hcI : t.hcI.toNat = s.hcI.toNat + 1 := by
      rw [htd, State.storePair_hcI, State.afterDraw_hcI, State.afterDraw_hcI]
      exact idx_succ_toNat (n := s.n) (by omega)
    have hpos' : t.inPos.toNat = s.inPos.toNat + 1 + s.f.toNat := by
      rw [htd, State.storePair_inPos, State.afterDraw_inPos, State.afterDraw_inPos]
      bv_omega
    refine .of_phase _ hq (.getpair ⟨hn' ▸ hn, ?_, ?_, ?_, ?_, ?_⟩) fun n f hend => ?_
    · rw [hn']
      omega
    · rwa [WidthOk, hf']
    · rwa [hn', hf', hlen']
    · rw [hpos', hcI, hf', headerLen_succ, hpos]
    · rw [hcI, htd]
      exact leafOk_storePair (by simp) (by simp) (by simpa using hop) (by omega) hl
    · obtain ⟨rfl, -⟩ := hend.counted (by rw [hp]; decide)
      rw [stepsLeft_hcGetpair hp, stepsLeft_hcGetpair hq, hcI, hlen']
      omega

/-! ### BitStreamDecoder (R175 to R178) -/

/-- In the finished tree an internal entry is one of `N .. 2N-2`. -/
theorem internal_within (htree : TreeOk s) {i : Nat} {e : NodeEntry} (he : s.node[i]? = some e)
    (hk : e.kind = .internal) : s.n.toNat ≤ i := by
  by_contra hlt
  obtain ⟨e', he', hleaf, -⟩ := htree.forest.leaves i (by omega)
  cases Option.some.inj (he.symm.trans he')
  cases hk.symm.trans hleaf

theorem execBsdInit_total (htree : TreeOk s) : ∃ t, execBsdInit s = .next t := by
  have hn := s.n.isLt
  have hroot := htree.root
  obtain ⟨e, he⟩ := s.exists_nodeAt (i := s.root) (by omega)
  unfold execBsdInit
  simp only [he]
  split
  · split <;> exact ⟨_, rfl⟩
  · exact ⟨_, rfl⟩

theorem bsdInit_advances (hs : RunOk s) (hb : s.status = .busy) (hp : s.phase = Phase.bsdInit) :
    Advances s (execBsdInit s) := by
  obtain ⟨htree, hh⟩ := (hs.phases hb).decoding hp
  have hop : s.op = .decompress := op_eq_decompress (hs.phase_mem hb hp) (by decide)
  obtain ⟨-, hlen, hpos⟩ := hh hop
  obtain ⟨hprem, -⟩ := startDecoder_prem_toNat hlen
  obtain ⟨t, ht⟩ := execBsdInit_total htree
  refine ⟨t, ht, fun htb => ?_⟩
  obtain ⟨e, he, ⟨-, -, rfl⟩ | ⟨-, -, rfl⟩ | ⟨hk, rfl⟩⟩ := execBsdInit_cases ht
  · refine .of_phase Phase.close rfl (.plain (by decide)) fun n f _ => ?_
    rw [stepsLeft_bsdInit hp, stepsLeft_close rfl, payloadSteps]
    omega
  · cases htb
  · have same : SameTree s (s.startDecoder.setPhase Phase.bsdFetch) := .of_node rfl rfl rfl
    have hroot := htree.root
    have hinside : s.n.toNat ≤ s.root.toNat := internal_within htree he hk
    have hsome := htree.some
    have hwalk : WalkOk (s.startDecoder.setPhase Phase.bsdFetch) := by
      refine ⟨same.treeOk rfl htree, ⟨hinside, ?_⟩, ?_, ?_, Nat.zero_le _⟩
      · show s.root.toNat < 2 * s.n.toNat - 1
        omega
      · show 2 ≤ s.n.toNat
        omega
      · show s.inPos.toNat + s.startDecoder.prem.toNat = s.inLen.toNat
        omega
    refine .of_phase Phase.bsdFetch rfl (.fetching hwalk) fun n f hend => ?_
    obtain ⟨rfl, hf⟩ := hend.counted (by rw [hp]; decide)
    obtain rfl := hf.resolve_left (by rw [hop]; exact nofun)
    rw [stepsLeft_bsdInit hp, stepsLeft_bsdFetch rfl, State.setPhase_prem, hprem]

theorem execBsdFetch_total (hs : RunOk s) (hb : s.status = .busy)
    (hpay : s.inPos.toNat + s.prem.toNat = s.inLen.toNat) : ∃ t, execBsdFetch s = .next t := by
  unfold execBsdFetch
  split
  · exact ⟨_, rfl⟩
  next hne =>
    obtain ⟨h1, h8, hle⟩ := fetchWidth_bounds hne rfl
    exact memRead_andThen_total h1 h8 (hs.inOpen hb) (hs.input hb) (by omega) fun bs => ⟨_, rfl⟩

/-- One fetch uses up a word's share of the steps (R182). -/
theorem payloadSteps_fetch {p k : Nat} (hp : p ≠ 0) (hk : k = min 8 p) :
    8 * k + payloadSteps (p - k) + 1 ≤ payloadSteps p := by
  simp only [payloadSteps, ceil8]
  omega

theorem bsdFetch_advances (hs : RunOk s) (hb : s.status = .busy) (hp : s.phase = Phase.bsdFetch) :
    Advances s (execBsdFetch s) := by
  obtain ⟨htree, hinside, hseveral, hpay, -⟩ := (hs.phases hb).fetching hp
  obtain ⟨t, ht⟩ := execBsdFetch_total hs hb hpay
  refine ⟨t, ht, fun htb => ?_⟩
  rcases execBsdFetch_cases ht with ⟨-, rfl⟩ | ⟨-, rfl⟩ | ⟨hne, bs, -, hbound, htd⟩
  · cases htb
  · cases htb
  · obtain ⟨h1, h8, hle⟩ := fetchWidth_bounds hne (k := min 8 s.prem.toNat) rfl
    have hx : exec .bsdFetch s = .next t := ht
    have k := (exec_effect hx).keeps
    have hlen := phase_keeps_inLen hx rfl
    have hq : t.phase = Phase.bsdBit := by rw [htd, State.loadWord_phase]
    have hnbits : t.nbits.toNat = 8 * min 8 s.prem.toNat := by
      rw [htd, State.loadWord_nbits, BitVec.toNat_ofNat]
      omega
    have hprem : t.prem.toNat = s.prem.toNat - min 8 s.prem.toNat := by
      rw [htd, (loadWord_prem_toNat _ (by simp)).1, State.afterDraw_prem]
    have hpos : t.inPos.toNat = s.inPos.toNat + min 8 s.prem.toNat := by
      rw [htd, State.loadWord_inPos, State.afterDraw_inPos, inPos_add_toNat ⟨hs.inOpen hb, hbound⟩]
    have hwalk : WalkOk t :=
      { tree := (phase_keeps_tree hx rfl rfl rfl).treeOk (k.root rfl) htree
        inside := by rwa [k.n rfl, k.cur rfl]
        several := by rwa [k.n rfl]
        payload := by rw [hprem, hpos, hlen]; omega
        bits := by omega }
    refine .of_phase _ hq (.bit ⟨hwalk, by omega⟩) fun n f _ => ?_
    rw [stepsLeft_bsdFetch hp, stepsLeft_bsdBit hq, hnbits, hprem]
    exact payloadSteps_fetch (fun h0 => hne (BitVec.eq_of_toNat_eq h0)) rfl

/-- `BSD.LEAF` on an entry of the store goes on, stops or fails to append. -/
theorem emitLeaf_total {e : NodeEntry} (he : s.nodeAt s.cur = some e) :
    (∃ b t, emitLeaf s = .ok b t) ∨ ∃ t, emitLeaf s = .halt (.next t) := by
  by_cases hs : e.sym = 0
  · exact .inl ⟨_, _, emitLeaf_sentinel he hs⟩
  · cases hd : s.nextDraw with
    | passes => exact .inl ⟨_, _, emitLeaf_pass he hs hd⟩
    | fails p => exact .inr ⟨_, emitLeaf_fail he hs hd⟩

/-- From an internal entry of the finished tree an edge leads to an entry of it. -/
theorem exists_edge (htree : TreeOk s) (hcur : s.n.toNat ≤ s.cur.toNat ∧ s.cur.toNat < 2 * s.n.toNat - 1)
    (bit : Bool) : ∃ e d, s.nodeAt s.cur = some e ∧ e.kind = .internal ∧
      (if bit then e.right else e.left).toNat < 2 * s.n.toNat - 1 ∧
      s.nodeAt (if bit then e.right else e.left) = some d := by
  have hn := s.n.isLt
  obtain ⟨e, he, hk, hleft, hright, -⟩ := htree.forest.internals _ hcur.1 hcur.2
  have hchild : (if bit then e.right else e.left).toNat < 2 * s.n.toNat - 1 := by
    split
    · exact hright
    · exact hleft
  obtain ⟨d, hd⟩ := s.exists_nodeAt (i := if bit then e.right else e.left) (by omega)
  exact ⟨e, d, he, hk, hchild, hd⟩

theorem walkBit_total (htree : TreeOk s)
    (hcur : s.n.toNat ≤ s.cur.toNat ∧ s.cur.toNat < 2 * s.n.toNat - 1) (bit : Bool) :
    (∃ b t, walkBit bit s = .ok b t) ∨ ∃ t, walkBit bit s = .halt (.next t) := by
  obtain ⟨e, d, he, hk, -, hd⟩ := exists_edge htree hcur bit
  cases hdk : d.kind with
  | internal => exact .inl ⟨_, _, walkBit_inner he hk hd hdk⟩
  | leaf =>
    rw [walkBit_leaf he hk hd hdk]
    exact emitLeaf_total hd

/-- A walk that goes on stands on an internal entry again: the child, or the root behind a leaf. -/
theorem walkBit_inside (htree : TreeOk s)
    (hcur : s.n.toNat ≤ s.cur.toNat ∧ s.cur.toNat < 2 * s.n.toNat - 1) (h2 : 2 ≤ s.n.toNat) {bit : Bool}
    (h : walkBit bit s = .ok false t) : s.n.toNat ≤ t.cur.toNat ∧ t.cur.toNat < 2 * s.n.toNat - 1 := by
  obtain ⟨e, d, he, -, hchild, hd⟩ := exists_edge htree hcur bit
  obtain ⟨e', d', he', -, hd', hx⟩ := walkBit_eq h (.inl ⟨false, t, rfl⟩)
  cases Option.some.inj (he.symm.trans he')
  cases Option.some.inj (hd.symm.trans hd')
  rcases hx with ⟨hk, hx⟩ | ⟨-, hx⟩
  · cases hx
    exact ⟨internal_within htree hd hk, hchild⟩
  · obtain ⟨_, -, ⟨hb, -⟩ | ⟨-, -, -, rfl⟩⟩ := emitLeaf_eq_ok hx.symm
    · cases hb
    · have hroot := htree.root
      show s.n.toNat ≤ s.root.toNat ∧ s.root.toNat < 2 * s.n.toNat - 1
      omega

theorem execBsdBit_total (hw : WalkOk s) (hn : 1 ≤ s.nbits.toNat) : ∃ t, execBsdBit s = .next t := by
  have same : SameTree s s.dropBit := .of_node rfl rfl rfl
  have hne : s.nbits ≠ 0 := fun h0 => by rw [h0] at hn; cases hn
  unfold execBsdBit
  rw [if_neg hne]
  rcases walkBit_total (same.treeOk rfl hw.tree) hw.inside (s.dword.getLsbD 63) with
    ⟨b, t, h⟩ | ⟨t, h⟩
  · rw [h, Access.andThen_ok]
    split <;> exact ⟨_, rfl⟩
  · rw [h]
    exact ⟨_, rfl⟩

theorem bsdBit_advances (hs : RunOk s) (hb : s.status = .busy) (hp : s.phase = Phase.bsdBit) :
    Advances s (execBsdBit s) := by
  obtain ⟨hw, hn⟩ := (hs.phases hb).bit hp
  obtain ⟨t, ht⟩ := execBsdBit_total hw hn
  refine ⟨t, ht, fun htb => ?_⟩
  have hx : exec .bsdBit s = .next t := ht
  have k := (exec_effect hx).keeps
  obtain ⟨-, hstop | ⟨u, hu, htd⟩ | hfail⟩ := execBsdBit_cases ht
  · have hq : t.phase = Phase.close := walkBit_stop_phase hstop
    refine .of_phase _ hq (.plain (by decide)) fun n f _ => ?_
    rw [stepsLeft_bsdBit hp, stepsLeft_close hq, payloadSteps]
    omega
  · have same : SameTree s s.dropBit := .of_node rfl rfl rfl
    have hcur := walkBit_inside (same.treeOk rfl hw.tree) hw.inside hw.several hu
    have hnbits : u.nbits.toNat = s.nbits.toNat - 1 := by
      have hle : (1 : Len) ≤ s.nbits := BitVec.le_def.mpr hn
      rw [walkBit_frame hu, State.dropBit_nbits, BitVec.toNat_sub_of_le hle]
      rfl
    have hbits := hw.bits
    have hwalk : WalkOk t :=
      { tree := (phase_keeps_tree hx rfl rfl rfl).treeOk (k.root rfl) hw.tree
        inside := by
          rw [k.n rfl, htd, State.setPhase_cur]
          exact hcur
        several := by
          rw [k.n rfl]
          exact hw.several
        payload := by
          rw [k.inPos rfl, k.prem rfl, phase_keeps_inLen hx rfl]
          exact hw.payload
        bits := by
          rw [htd, State.setPhase_nbits]
          omega }
    have hprem : t.prem = s.prem := k.prem rfl
    by_cases h0 : u.nbits = 0
    · have hq : t.phase = Phase.bsdFetch := by
        rw [htd]
        exact if_pos h0
      refine .of_phase _ hq (.fetching hwalk) fun n f _ => ?_
      rw [stepsLeft_bsdBit hp, stepsLeft_bsdFetch hq, hprem]
      omega
    · have hq : t.phase = Phase.bsdBit := by
        rw [htd]
        exact if_neg h0
      have hnbits' : t.nbits = u.nbits := by rw [htd, State.setPhase_nbits]
      have hpos : u.nbits.toNat ≠ 0 := fun h => h0 (BitVec.eq_of_toNat_eq h)
      refine .of_phase _ hq (.bit ⟨hwalk, by rw [hnbits']; omega⟩) fun n f _ => ?_
      rw [stepsLeft_bsdBit hp, stepsLeft_bsdBit hq, hprem, hnbits']
      omega
  · obtain ⟨u, -, rfl⟩ := walkBit_halt_frame hfail
    cases htb

/-! ### The close (R198) -/

theorem cmdClose_advances (s : State) : Advances s (execCmdClose s) :=
  ⟨_, rfl, nofun⟩

end

end Sys2Proof.Machine
end

section
/-! Whole steps and whole runs (R225, R250): O59 puts the phases together with the acts of the host; O60 counts
down the steps of a run, for every `N` and `F` that it can end with. -/

namespace Sys2Proof.Machine

open Sys2Proof.Claim Sys2Proof.Proofs

section
variable {i : Instr} {s t : State}

/-! ### The operation of a running command's phase -/

theorem exec_advances (hs : RunOk s) (hb : s.status = .busy) (hd : decodePhase s.phase = some i) :
    Advances s (exec i s) := by
  have hi := phaseCode_of_decodePhase _ _ hd
  have hp {p : PhaseCode} (h : phaseCode i = some p) : s.phase = p := Option.some.inj (hi.symm.trans h)
  cases i with
  | fsClear => exact fsClear_advances (hp rfl)
  | fsCount => exact fsCount_advances hs hb (hp rfl)
  | fsSent => exact fsSent_advances (hp rfl)
  | fsCollect => exact fsCollect_advances hs hb (hp rfl)
  | tbSort => exact tbSort_advances hs hb (hp rfl)
  | tbInit => exact tbInit_advances hs hb (hp rfl)
  | tbMerge => exact tbMerge_advances hs hb (hp rfl)
  | tbRoot => exact tbRoot_advances hs hb (hp rfl)
  | caClear => exact caClear_advances hs hb (hp rfl)
  | caWalk => exact caWalk_advances hs hb (hp rfl)
  | hcWidth => exact hcWidth_advances (hp rfl)
  | hcPuthdr => exact hcPuthdr_advances hs hb (hp rfl)
  | hcPutpair => exact hcPutpair_advances hs hb (hp rfl)
  | hcGethdr => exact hcGethdr_advances hs hb (hp rfl)
  | hcGetpair => exact hcGetpair_advances hs hb (hp rfl)
  | bseInit => exact bseInit_advances (hp rfl)
  | bseSym => exact bseSym_advances hs hb (hp rfl)
  | bseEos => exact bseEos_advances hs hb (hp rfl)
  | bseFinal => exact bseFinal_advances hs hb (hp rfl)
  | bsdInit => exact bsdInit_advances hs hb (hp rfl)
  | bsdFetch => exact bsdFetch_advances hs hb (hp rfl)
  | bsdBit => exact bsdBit_advances hs hb (hp rfl)
  | cmdClose => exact cmdClose_advances s
  | pIdle => exact absurd (hs.phase_mem hb (hp rfl)) (idle_not_mem_phases s.op)
  | _ => cases hi

/-- A running command's phase selects an operation. -/
theorem exists_operation (hs : RunOk s) (hb : s.status = .busy) :
    ∃ i, decodePhase s.phase = some i := by
  have known : ∀ op : Op, ∀ p ∈ op.phases, p ∈ phaseTable.map Prod.fst := by
    intro op
    cases op <;> decide
  exact Option.isSome_iff_exists.mp
    (decodePhase_isSome _ (known s.op _ (hs.phase_mem hb rfl)))

/-! ### The table of codes (R36, R137) -/

theorem codeFits_of_walkUp {v : Vector NodeEntry 509} {j : Idx} {c : Word} {len : Nat}
    (h : walkUp v 64 j 0 0 = .code c len) : codeFits c (BitVec.ofNat 7 len) = true := by
  obtain ⟨-, hlen, hlt⟩ := walkUp_code h Nat.one_pos
  have hword : (BitVec.ofNat 7 len).toNat = len := by
    rw [BitVec.toNat_ofNat, Nat.mod_eq_of_lt (by omega)]
  exact codeFits_iff.mpr ⟨by omega, by rwa [hword]⟩

/-- Every code of the table fits in its length. -/
def CodesFit (s : State) : Prop :=
  ∀ (i : Nat) (e : LutEntry), s.lut[i]? = some e → codeFits e.code e.len = true

theorem codesFit_resetCore (s : State) : CodesFit s.resetCore := runOk_reset.codes

theorem exec_keeps_codes (hc : CodesFit s) (h : exec i s = .next t) : CodesFit t := by
  by_cases hw : writesLut i = false
  · rw [CodesFit, (exec_effect h).keeps.lut hw]
    exact hc
  · cases i with
    | caClear =>
      obtain rfl := execCaClear_cases h
      intro j e he
      rw [Vector.getElem?_map, Option.map_eq_some_iff] at he
      obtain ⟨e', he', rfl⟩ := he
      exact hc j e' he'
    | caWalk =>
      rcases execCaWalk_cases h with ⟨-, rfl⟩ | ⟨-, x, -, ⟨-, rfl⟩ | ⟨c, len, hwalk, -, rfl⟩⟩
      · exact hc
      · exact hc
      · intro j e he
        rw [State.assignCode_lut, Vector.getElem?_setIfInBounds] at he
        split at he
        · split at he
          · cases he
            exact codeFits_of_walkUp hwalk
          · cases he
        · exact hc j e he
    | reset =>
      cases h
      exact codesFit_resetCore s
    | _ => exact absurd rfl hw

/-! ### O59 -/

/-- The host's plan may lose acts or draw nearer, and it may hold out another input as long as it says. -/
theorem RunOk.withHost (hs : RunOk s) {plan : List HostEvent} {o : Offer}
    (hp : ∀ e ∈ plan, ∃ e' ∈ s.host, e.act = e'.act) (ho : o.input.covers o.len) :
    RunOk { s with host := plan, offer := o } where
  control := hs.control.withHost plan o
  codes := hs.codes
  input := hs.input
  offered := ho
  planned e he := by
    obtain ⟨e', he', ha⟩ := hp e he
    exact ha ▸ hs.planned e' he'
  phases hb := (hs.phases hb).withHost plan o

/-- What is left to show of a next state: the needs of its phase, while a command runs. -/
theorem RunOk.next (hs : RunOk s) (hc : ControlOk t) (hcodes : CodesFit t)
    (hin : t.status = .busy → t.inp.covers t.inLen) (hhost : t.host = s.host) (hoffer : t.offer = s.offer)
    (hphase : t.status = .busy → PhaseOk t) : RunOk t :=
  ⟨hc, hcodes, hin, hoffer ▸ hs.offered, hhost ▸ hs.planned, hphase⟩

/-- The operation of the phase answers a state that meets the invariant. -/
theorem RunOk.phase (hs : RunOk s) (hb : s.status = .busy) (hd : decodePhase s.phase = some i)
    (h : exec i s = .next t) : RunOk t := by
  have hi := phaseCode_of_decodePhase _ _ hd
  obtain ⟨hstart, -, -⟩ := no_command_of_phaseCode hi
  have hx := exec_effect h
  obtain ⟨-, hhost, hoffer⟩ := hx.cfg_host_offer
  obtain ⟨t', ht', hgo⟩ := exec_advances hs hb hd
  cases h.symm.trans ht'
  refine hs.next (exec_keeps_control hs.control hb hd h) (exec_keeps_codes hs.codes h) (fun _ => ?_)
    hhost hoffer fun htb => (hgo htb).ready.phaseOk
  rw [hx.inp hstart, phase_keeps_inLen h hi]
  exact hs.input hb

/-- A command starts on an input that is as long as the host says (H9, R243). -/
theorem RunOk.startCommand (hs : RunOk s) {op : Op} (hop : op.firstPhase ∈ op.phases)
    (hready : Ready (s.startCommand op) op.firstPhase) : RunOk (s.startCommand op) :=
  hs.next (.startCommand hop) hs.codes (fun _ => hs.offered) rfl rfl fun _ => Ready.phaseOk hready

/-- A command byte never stops the machine (R190, R197). -/
theorem RunOk.command (hs : RunOk s) (c : Byte) : ∃ t, exec (decodeCmd c) s = .next t ∧ RunOk t := by
  obtain ⟨t, ht⟩ : ∃ t, exec (decodeCmd c) s = .next t := by
    rcases decodeCmd_cases c with e | e | e | ⟨b, e⟩
    · exact ⟨_, by rw [e]; rfl⟩
    · exact ⟨_, by rw [e]; rfl⟩
    · exact ⟨_, by rw [e]; rfl⟩
    · exact ⟨_, e s⟩
  refine ⟨t, ht, ?_⟩
  rcases execCmd_cases ht with rfl | ⟨-, rfl | rfl | ⟨b, rfl⟩⟩
  · exact hs
  · exact hs.startCommand (by decide) (.plain (by decide))
  · exact hs.startCommand (by decide) (.plain (by decide))
  · exact hs.next (hs.control.illegal b) hs.codes nofun rfl rfl nofun

theorem RunOk.resetCore (hs : RunOk s) : RunOk s.resetCore :=
  hs.next ControlOk.resetCore (codesFit_resetCore s) nofun rfl rfl nofun

/-- A due act of the host: a `CMD` write or `RESET`. -/
theorem RunOk.deliver (hs : RunOk s) {e : HostEvent} {rest : List HostEvent} (hh : s.host = e :: rest) :
    ∃ t, (deliver e.act { s with host := rest }).outcome = .next t ∧ RunOk t := by
  have hrest : ∀ e' ∈ rest, ∃ e'' ∈ s.host, e'.act = e''.act := fun e' he' =>
    ⟨e', hh ▸ List.mem_cons_of_mem e he', rfl⟩
  have hact := hs.planned e (hh ▸ List.mem_cons_self)
  cases ha : e.act with
  | cmd c m len =>
    rw [ha] at hact
    exact (hs.withHost (o := { input := m, len := len }) hrest hact).command c
  | reset => exact ⟨_, rfl, (hs.withHost hrest hs.offered).resetCore⟩

end

end Sys2Proof.Machine

namespace Sys2Proof.Proofs

open Sys2Proof.Machine Sys2Proof.Claim

/-- Settles O59: the operation of the phase, an idle step, and a due act of the host. -/
theorem noStepStopsAndTheRunInvariantIsKept : Obligations.NoStepStopsAndTheRunInvariantIsKept := by
  intro s hs
  have hticked : RunOk { s with host := tickHost s.host } :=
    hs.withHost (fun _ he => tickHost_acts he) hs.offered
  by_cases hw : HostWaits s
  · by_cases hb : s.status = .busy
    · obtain ⟨i, hd⟩ := exists_operation hs hb
      obtain ⟨t, ht, -⟩ := exec_advances hticked hb hd
      exact ⟨t, (step_busy hw hb hd).trans ht, hticked.phase hb hd ht⟩
    · exact ⟨_, step_resting hw hb, hticked⟩
  · obtain ⟨e, rest, hh, hdue⟩ : ∃ e rest, s.host = e :: rest ∧ e.due s = true := by
      simpa [HostWaits] using hw
    rw [step_due hh hdue]
    exact hs.deliver hh

end Sys2Proof.Proofs
end

section
/-! Every run ends (R250, O60). A step brings a running command nearer to its end by the counts of every `N` and
`F` that it can still end with (`MayEndWith`); these are finitely many, so one bound holds for all of them, and
induction on it needs no guess of the `N` and `F` at the end. -/

namespace Sys2Proof.Machine

open Sys2Proof.Claim Sys2Proof.Proofs

section
variable {i : Instr} {s t : State}

/-- A running command has a step to go, whatever it ends with: each count ends in a step of its own. -/
theorem stepsLeft_pos (s : State) (n f : Nat) : 0 < s.stepsLeft n f := by
  unfold State.stepsLeft
  repeat' first | exact Nat.succ_pos _ | apply ite_pos | apply Nat.add_pos_right

theorem mayEndWith_self (s : State) : MayEndWith s s.n s.f := .inr ⟨rfl, .inr rfl⟩

/-- Once a command has found `N` no operation changes it, and none changes the `F` of a DECOMPRESS. -/
theorem phase_keeps_counts (hs : RunOk s) (hb : s.status = .busy) (hd : decodePhase s.phase = some i)
    (h : exec i s = .next t) (hp : s.phase ∉ uncountedPhases) :
    t.n = s.n ∧ (s.op = .compress ∨ t.f = s.f) := by
  have k := (exec_effect h).keeps
  have hi := phaseCode_of_decodePhase _ _ hd
  cases i with
  | fsCollect | hcGethdr =>
    rw [← Option.some.inj hi] at hp
    exact absurd (by decide) hp
  | hcWidth =>
    have hmem := hs.phase_mem hb (Option.some.inj hi).symm
    exact ⟨k.n rfl, .inl (op_eq_compress hmem (by decide))⟩
  | compress | decompress | reset | hdrCount | hdrWidth => cases hi
  | _ => exact ⟨k.n rfl, .inr (k.f rfl)⟩

/-- No command comes back to a phase before its counts (R200). -/
theorem successors_counted : ∀ p : PhaseCode, p ∉ uncountedPhases →
    ∀ q ∈ successors p, q ∉ uncountedPhases := by
  decide

/-- What a command can end with after a step, it could end with before. -/
theorem MayEndWith.back {n : Byte} {f : FieldWidth} (hs : RunOk s) (hb : s.status = .busy)
    (hd : decodePhase s.phase = some i) (h : exec i s = .next t) (htb : t.status = .busy)
    (hend : MayEndWith t n f) : MayEndWith s n f := by
  by_cases hp : s.phase ∈ uncountedPhases
  · exact .inl hp
  · have hi := phaseCode_of_decodePhase _ _ hd
    have hidle : s.phase ≠ Phase.idle := fun h => idle_not_mem_phases s.op (hs.phase_mem hb h)
    have hq : t.phase ∈ successors s.phase :=
      ((exec_effect h).transfer hi hidle).resolve_right fun hf => nomatch htb.symm.trans hf.2
    obtain ⟨hn, hf⟩ := hend.counted (successors_counted _ hp _ hq)
    obtain ⟨hn', hf'⟩ := phase_keeps_counts hs hb hd h hp
    rw [phase_keeps_op h hi] at hf
    refine .inr ⟨hn.trans hn', ?_⟩
    rcases hf with hop | hf
    · exact .inl hop
    · exact hf'.imp_right hf.trans

/-- A running command is running, done or failed after its operation. -/
theorem phase_status {p : PhaseCode} (hb : s.status = .busy) (hi : phaseCode i = some p) (h : exec i s = .next t) :
    t.status = .busy ∨ t.status = .done ∨ t.status = .failed := by
  cases exec_effect h with
  | completes _ w => exact .inl (w.status.trans hb)
  | fails | illegal => exact .inr (.inr rfl)
  | closes => exact .inr (.inl rfl)
  | compress | decompress | resets => cases hi

/-- With nothing planned a step is the operation of the phase. -/
theorem step_unplanned (hh : s.host = []) (hb : s.status = .busy) (hd : decodePhase s.phase = some i) :
    step s = exec i s := by
  rw [step_eq, fetch, hh]
  simp only [sequencer_busy hb hd]
  rfl

/-- One step of a run with nothing planned: it ends the run, or it is one of the steps left. -/
theorem exists_run_step (hs : RunOk s) (hh : s.host = []) (hb : s.status = .busy) :
    ∃ t, step s = .next t ∧ RunOk t ∧ t.host = [] ∧
      (((t.status = .done ∨ t.status = .failed) ∧ MayEndWith s t.n t.f) ∨
        (t.status = .busy ∧ ∀ n f, MayEndWith t n f → MayEndWith s n f ∧
          t.stepsLeft n.toNat f.toNat + 1 ≤ s.stepsLeft n.toNat f.toNat)) := by
  obtain ⟨i, hd⟩ := exists_operation hs hb
  obtain ⟨t, ht, hgo⟩ := exec_advances hs hb hd
  obtain ⟨-, hhost, -⟩ := (exec_effect ht).cfg_host_offer
  refine ⟨t, (step_unplanned hh hb hd).trans ht, hs.phase hb hd ht, hhost.trans hh, ?_⟩
  rcases phase_status hb (phaseCode_of_decodePhase _ _ hd) ht with htb | hended
  · refine .inr ⟨htb, fun n f hend => ?_⟩
    have hback := hend.back hs hb hd ht htb
    exact ⟨hback, (hgo htb).nearer n f hback⟩
  · refine .inl ⟨hended, ?_⟩
    by_cases hp : s.phase ∈ uncountedPhases
    · exact .inl hp
    · exact .inr (phase_keeps_counts hs hb hd ht hp)

/-- A run whose counts are all within `m` ends, by induction on `m`. -/
theorem run_ends_within (m : Nat) (hs : RunOk s) (hh : s.host = []) (hb : s.status = .busy)
    (hm : ∀ n f, MayEndWith s n f → s.stepsLeft n.toNat f.toNat ≤ m) :
    ∃ (k : Nat) (t : State), Sys2Proof.core.run k s = Host.Outcome.next t ∧
      (t.status = .done ∨ t.status = .failed) ∧ MayEndWith s t.n t.f ∧
      k ≤ s.stepsLeft t.n.toNat t.f.toNat := by
  induction m generalizing s with
  | zero =>
    have hpos := stepsLeft_pos s s.n.toNat s.f.toNat
    have hzero := hm _ _ (mayEndWith_self s)
    omega
  | succ m ih =>
    obtain ⟨t, hstep, ht, hhost, ⟨hended, hend⟩ | ⟨htb, hnear⟩⟩ := exists_run_step hs hh hb
    · exact ⟨1, t, run_succ (M := Sys2Proof.core) hstep, hended, hend, stepsLeft_pos _ _ _⟩
    · have hm' (n : Byte) (f : FieldWidth) (hend : MayEndWith t n f) :
          t.stepsLeft n.toNat f.toNat ≤ m := by
        obtain ⟨hback, hless⟩ := hnear n f hend
        have hle := hm n f hback
        omega
      obtain ⟨k, u, hrun, hended, hend, hk⟩ := ih ht hhost htb hm'
      obtain ⟨hback, hless⟩ := hnear _ _ hend
      exact ⟨k + 1, u, (run_succ (M := Sys2Proof.core) hstep).trans hrun, hended, hback, by omega⟩

/-- The counts of one state for every `N` and `F` that the registers hold. -/
theorem exists_stepsLeft_bound (s : State) :
    ∃ m, ∀ (n : Byte) (f : FieldWidth), s.stepsLeft n.toNat f.toNat ≤ m := by
  obtain ⟨m, hm⟩ := (Set.finite_range fun c : Byte × FieldWidth =>
    s.stepsLeft c.1.toNat c.2.toNat).bddAbove
  exact ⟨m, fun n f => hm ⟨(n, f), rfl⟩⟩

end

end Sys2Proof.Machine

namespace Sys2Proof.Proofs

open Sys2Proof.Machine

/-- Settles O60: the counts of a state have a bound, and a run within a bound ends. -/
theorem everyRunEnds : Obligations.EveryRunEnds := by
  intro s hs hh hb
  obtain ⟨m, hm⟩ := exists_stepsLeft_bound s
  obtain ⟨k, t, hrun, hended, -, hk⟩ := run_ends_within m hs hh hb fun n f _ => hm n f
  exact ⟨k, t, hrun, hended, hk⟩

end Sys2Proof.Proofs
end
